-- ==== Sys2Proof/Word.lean ====
section
/-! DEFINITION. The word types of the core (rule R5 of 00_scope.md): 64-bit registers, pc and
addresses, 32-bit instruction words, 8-bit bytes, 32 register indices. -/

namespace Sys2Proof

/-- A register value, the pc or an address: an unsigned 64-bit integer (R5, R11). -/
abbrev Word := BitVec 64

/-- One 32-bit instruction encoding (R15 "Word", R130). -/
abbrev InstrWord := BitVec 32

/-- One byte of memory (R5, R50). -/
abbrev Byte := BitVec 8

/-- A general register's index, 0 to 31 (R20, R21). -/
abbrev Reg := Fin 32

end Sys2Proof
end

