-- ==== Sys2Proof/Config.lean ====
section
/-! DEFINITION. What one machine fixes for its whole life (rules R6, R7, R34), and the values that
the spec leaves free: constants with no body, so that no proof can know them. -/

namespace Sys2Proof

/-- The named parameters of a machine (R6, R7; 93_implementation_defined.md U1). No step and no
command changes them (R34, R375). -/
structure Params where
  /-- `MEMORY_SIZE`: capacity of the Memory Store in bytes (R6). -/
  memorySize : Nat
  /-- `DATA_BASE`: addresses below it are code, the others data (R6). -/
  dataBase : Nat
  /-- `SMC_ENABLE`: whether stores into the code region are allowed (R7). -/
  smcEnable : Bool
  /-- `STRICT_DECODE`: refuse an unhandled word in place of running it as a no-op (U1). -/
  strictDecode : Bool
  deriving DecidableEq, Repr

/-- The constraints R6 puts on the two bounds (decision D3). -/
def Params.Valid (p : Params) : Prop :=
  0 < p.memorySize ∧ p.memorySize < 2 ^ 64 ∧ p.dataBase % 4 = 0 ∧ 4 ≤ p.dataBase ∧
    p.dataBase ≤ p.memorySize

/-- The parameters of the machine that `State.reset` builds. DESIGN CHOICE (log entry 1): the spec
fixes no sizes; these are the example sizes of R6. `SMC_ENABLE` and `STRICT_DECODE` have the
spec's own default, false (R7, U1). -/
def Params.default : Params :=
  { memorySize := 0x50000, dataBase := 0x10000, smcEnable := false, strictDecode := false }

/-- FREE VALUE (R93, decision D12, log entry 4): the `n`-th draw of the RANDOM replacement policy.
Nothing constrains it; the victim operation reduces it to `0 .. associativity-1`. -/
opaque Config.randomDraw : Nat → Nat

/-- FREE VALUE (R330, log entry 5): the source line of instruction index `i` under a line table that
was handed over with fewer than `i + 1` entries. The spec gives no such line. -/
opaque Config.lineBeyondTable : Nat → Nat

end Sys2Proof
end

