-- ==== Sys2Proof/Decode.lean ====
section
/-! DEFINITION. Decoding (30_encoding.md): the fields of a word, the decoder, the byte decoder, and
after them the encoder and the opcode table. The decoder is total; a word that is no instruction is
rejected by name, and the step then runs it as R272 says. -/

namespace Sys2Proof

/-! ## Fields of a word (R132) -/

def opcodeOf (w : InstrWord) : BitVec 7 := w.extractLsb' 0 7
def rdOf (w : InstrWord) : Reg := (w.extractLsb' 7 5).toFin
def funct3Of (w : InstrWord) : BitVec 3 := w.extractLsb' 12 3
def rs1Of (w : InstrWord) : Reg := (w.extractLsb' 15 5).toFin
def rs2Of (w : InstrWord) : Reg := (w.extractLsb' 20 5).toFin
def funct7Of (w : InstrWord) : BitVec 7 := w.extractLsb' 25 7
/-- The function field of a shift-immediate (R135, 90_conflicts.md C1). -/
def funct6Of (w : InstrWord) : BitVec 6 := w.extractLsb' 26 6
/-- The amount of a shift-immediate (R146). -/
def shamtOf (w : InstrWord) : BitVec 6 := w.extractLsb' 20 6

/-! ## Immediates, as encoded and before sign extension (R141 to R145) -/

/-- I-type: `w[31:20]` (R141). -/
def immIOf (w : InstrWord) : BitVec 12 := w.extractLsb' 20 12
/-- S-type: `w[31:25] ++ w[11:7]` (R142). -/
def immSOf (w : InstrWord) : BitVec 12 :=
  (w.extractLsb' 25 7).setWidth 12 <<< 5 ||| (w.extractLsb' 7 5).setWidth 12
/-- B-type: `w[31] ++ w[7] ++ w[30:25] ++ w[11:8] ++ 0` (R143). -/
def immBOf (w : InstrWord) : BitVec 13 :=
  (w.extractLsb' 31 1).setWidth 13 <<< 12 ||| (w.extractLsb' 7 1).setWidth 13 <<< 11 |||
    (w.extractLsb' 25 6).setWidth 13 <<< 5 ||| (w.extractLsb' 8 4).setWidth 13 <<< 1
/-- U-type: the 20-bit field `w[31:12]` (R144). -/
def immUOf (w : InstrWord) : BitVec 20 := w.extractLsb' 12 20
/-- J-type: `w[31] ++ w[19:12] ++ w[20] ++ w[30:21] ++ 0` (R145). -/
def immJOf (w : InstrWord) : BitVec 21 :=
  (w.extractLsb' 31 1).setWidth 21 <<< 20 ||| (w.extractLsb' 12 8).setWidth 21 <<< 12 |||
    (w.extractLsb' 20 1).setWidth 21 <<< 11 ||| (w.extractLsb' 21 10).setWidth 21 <<< 1

/-! ## The decoder -/

/-- Why a string of bytes is no instruction. The two classes of unhandled word are those of R151. -/
inductive DecodeReject where
  /-- Fewer than four bytes were given (R130: every instruction is one 32-bit word). -/
  | truncated
  /-- The opcode selects a format (R131), and the key matches no row (R151). -/
  | unhandledFunct (w : InstrWord)
  /-- The opcode selects no format (R131, R151, decision D28). -/
  | unhandledOpcode (w : InstrWord)
  deriving DecidableEq, Repr

/-- Opcode OP (0x33): the key is funct3 and the whole of funct7 (R147, R181). -/
def decodeOp (w : InstrWord) : Option Instr :=
  if funct7Of w = 0x00#7 then
    if funct3Of w = 0#3 then some (.add (rdOf w) (rs1Of w) (rs2Of w))
    else if funct3Of w = 1#3 then some (.sll (rdOf w) (rs1Of w) (rs2Of w))
    else if funct3Of w = 2#3 then some (.slt (rdOf w) (rs1Of w) (rs2Of w))
    else if funct3Of w = 3#3 then some (.sltu (rdOf w) (rs1Of w) (rs2Of w))
    else if funct3Of w = 4#3 then some (.xor (rdOf w) (rs1Of w) (rs2Of w))
    else if funct3Of w = 5#3 then some (.srl (rdOf w) (rs1Of w) (rs2Of w))
    else if funct3Of w = 6#3 then some (.or (rdOf w) (rs1Of w) (rs2Of w))
    else if funct3Of w = 7#3 then some (.and (rdOf w) (rs1Of w) (rs2Of w))
    else none
  else if funct7Of w = 0x20#7 then
    if funct3Of w = 0#3 then some (.sub (rdOf w) (rs1Of w) (rs2Of w))
    else if funct3Of w = 5#3 then some (.sra (rdOf w) (rs1Of w) (rs2Of w))
    else none
  else if funct7Of w = 0x01#7 then
    if funct3Of w = 0#3 then some (.mul (rdOf w) (rs1Of w) (rs2Of w))
    else if funct3Of w = 1#3 then some (.mulh (rdOf w) (rs1Of w) (rs2Of w))
    else if funct3Of w = 2#3 then some (.mulhsu (rdOf w) (rs1Of w) (rs2Of w))
    else if funct3Of w = 3#3 then some (.mulhu (rdOf w) (rs1Of w) (rs2Of w))
    else if funct3Of w = 4#3 then some (.div (rdOf w) (rs1Of w) (rs2Of w))
    else if funct3Of w = 5#3 then some (.divu (rdOf w) (rs1Of w) (rs2Of w))
    else if funct3Of w = 6#3 then some (.rem (rdOf w) (rs1Of w) (rs2Of w))
    else if funct3Of w = 7#3 then some (.remu (rdOf w) (rs1Of w) (rs2Of w))
    else none
  else none

/-- Opcode OP-IMM (0x13): six immediate forms by funct3, three shifts by funct3 and funct6 (R147, R200). -/
def decodeOpImm (w : InstrWord) : Option Instr :=
  if funct3Of w = 0#3 then some (.addi (rdOf w) (rs1Of w) (immIOf w))
  else if funct3Of w = 2#3 then some (.slti (rdOf w) (rs1Of w) (immIOf w))
  else if funct3Of w = 3#3 then some (.sltiu (rdOf w) (rs1Of w) (immIOf w))
  else if funct3Of w = 4#3 then some (.xori (rdOf w) (rs1Of w) (immIOf w))
  else if funct3Of w = 6#3 then some (.ori (rdOf w) (rs1Of w) (immIOf w))
  else if funct3Of w = 7#3 then some (.andi (rdOf w) (rs1Of w) (immIOf w))
  else if funct3Of w = 1#3 ∧ funct6Of w = 0x00#6 then some (.slli (rdOf w) (rs1Of w) (shamtOf w))
  else if funct3Of w = 5#3 ∧ funct6Of w = 0x00#6 then some (.srli (rdOf w) (rs1Of w) (shamtOf w))
  else if funct3Of w = 5#3 ∧ funct6Of w = 0x10#6 then some (.srai (rdOf w) (rs1Of w) (shamtOf w))
  else none

/-- Opcode LOAD (0x03): funct3 7 is no instruction (R219). -/
def decodeLoad (w : InstrWord) : Option Instr :=
  if funct3Of w = 0#3 then some (.lb (rdOf w) (rs1Of w) (immIOf w))
  else if funct3Of w = 1#3 then some (.lh (rdOf w) (rs1Of w) (immIOf w))
  else if funct3Of w = 2#3 then some (.lw (rdOf w) (rs1Of w) (immIOf w))
  else if funct3Of w = 3#3 then some (.ld (rdOf w) (rs1Of w) (immIOf w))
  else if funct3Of w = 4#3 then some (.lbu (rdOf w) (rs1Of w) (immIOf w))
  else if funct3Of w = 5#3 then some (.lhu (rdOf w) (rs1Of w) (immIOf w))
  else if funct3Of w = 6#3 then some (.lwu (rdOf w) (rs1Of w) (immIOf w))
  else none

/-- Opcode STORE (0x23): funct3 4 to 7 is no instruction (R232). -/
def decodeStore (w : InstrWord) : Option Instr :=
  if funct3Of w = 0#3 then some (.sb (rs1Of w) (immSOf w) (rs2Of w))
  else if funct3Of w = 1#3 then some (.sh (rs1Of w) (immSOf w) (rs2Of w))
  else if funct3Of w = 2#3 then some (.sw (rs1Of w) (immSOf w) (rs2Of w))
  else if funct3Of w = 3#3 then some (.sd (rs1Of w) (immSOf w) (rs2Of w))
  else none

/-- Opcode BRANCH (0x63): funct3 2 and 3 is no instruction (R243). -/
def decodeBranch (w : InstrWord) : Option Instr :=
  if funct3Of w = 0#3 then some (.beq (rs1Of w) (rs2Of w) (immBOf w))
  else if funct3Of w = 1#3 then some (.bne (rs1Of w) (rs2Of w) (immBOf w))
  else if funct3Of w = 4#3 then some (.blt (rs1Of w) (rs2Of w) (immBOf w))
  else if funct3Of w = 5#3 then some (.bge (rs1Of w) (rs2Of w) (immBOf w))
  else if funct3Of w = 6#3 then some (.bltu (rs1Of w) (rs2Of w) (immBOf w))
  else if funct3Of w = 7#3 then some (.bgeu (rs1Of w) (rs2Of w) (immBOf w))
  else none

/-- Opcode JALR (0x67): funct3 other than 0 is no instruction (R254). -/
def decodeJalr (w : InstrWord) : Option Instr :=
  if funct3Of w = 0#3 then some (.jalr (rdOf w) (rs1Of w) (immIOf w)) else none

/-- Opcode SYSTEM (0x73): the whole word is matched (R140, decision D30). -/
def decodeSystem (w : InstrWord) : Option Instr :=
  if w = 0x00000073#32 then some .ecall
  else if w = 0x00100073#32 then some .ebreak
  else none

/-- A key that matches no row under an opcode that selects a format (R151). -/
def orUnhandled (w : InstrWord) (o : Option Instr) : Except DecodeReject Instr :=
  match o with
  | some i => .ok i
  | none => .error (.unhandledFunct w)

/-- The decoder, in the order of R148: the sentinel first, then the opcode and the key. -/
def decodeWord (w : InstrWord) : Except DecodeReject Instr :=
  if w = 0#32 then .ok .sentinel
  else if opcodeOf w = 0x33#7 then orUnhandled w (decodeOp w)
  else if opcodeOf w = 0x13#7 then orUnhandled w (decodeOpImm w)
  else if opcodeOf w = 0x03#7 then orUnhandled w (decodeLoad w)
  else if opcodeOf w = 0x23#7 then orUnhandled w (decodeStore w)
  else if opcodeOf w = 0x63#7 then orUnhandled w (decodeBranch w)
  else if opcodeOf w = 0x6F#7 then .ok (.jal (rdOf w) (immJOf w))
  else if opcodeOf w = 0x67#7 then orUnhandled w (decodeJalr w)
  else if opcodeOf w = 0x37#7 then .ok (.lui (rdOf w) (immUOf w))
  else if opcodeOf w = 0x17#7 then .ok (.auipc (rdOf w) (immUOf w))
  else if opcodeOf w = 0x73#7 then orUnhandled w (decodeSystem w)
  else .error (.unhandledOpcode w)

/-- The little-endian word of four bytes, lowest address first (R52, R130). -/
def wordOfFourBytes (b0 b1 b2 b3 : Byte) : InstrWord :=
  b0.setWidth 32 ||| b1.setWidth 32 <<< 8 ||| b2.setWidth 32 <<< 16 ||| b3.setWidth 32 <<< 24

/-- The four bytes of a word, lowest address first (R52). -/
def bytesOfWord (w : InstrWord) : List Byte :=
  [w.extractLsb' 0 8, w.extractLsb' 8 8, w.extractLsb' 16 8, w.extractLsb' 24 8]

/-- The decoder on bytes: the instruction and the bytes after it. -/
def decode : List Byte → Except DecodeReject (Instr × List Byte)
  | b0 :: b1 :: b2 :: b3 :: rest =>
    match decodeWord (wordOfFourBytes b0 b1 b2 b3) with
    | .ok i => .ok (i, rest)
    | .error r => .error r
  | _ => .error .truncated

/-- The instruction word whose low `nbits` bits are those of `w`, all others 0. -/
def tableWord (nbits w : Nat) : InstrWord := BitVec.ofNat 32 (w % 2 ^ nbits)

/-- The instruction the decoder reads from a word of the opcode table, laid out in memory as the
hardware stores it (R52). -/
def decodeTableWord (nbits w : Nat) : Option Instr :=
  match decode (bytesOfWord (tableWord nbits w)) with
  | .ok (i, _) => some i
  | .error _ => none

/-! ## The encoder, by format -/

/-- A register index as a 5-bit field. -/
def regField (r : Reg) : InstrWord := (BitVec.ofFin r : BitVec 5).setWidth 32

/-- R format (R133). -/
def rWord (funct7 : BitVec 7) (rs2 rs1 : Reg) (funct3 : BitVec 3) (rd : Reg) (opcode : BitVec 7) :
    InstrWord :=
  funct7.setWidth 32 <<< 25 ||| regField rs2 <<< 20 ||| regField rs1 <<< 15 |||
    funct3.setWidth 32 <<< 12 ||| regField rd <<< 7 ||| opcode.setWidth 32

/-- I format (R134). -/
def iWord (imm : BitVec 12) (rs1 : Reg) (funct3 : BitVec 3) (rd : Reg) (opcode : BitVec 7) :
    InstrWord :=
  imm.setWidth 32 <<< 20 ||| regField rs1 <<< 15 ||| funct3.setWidth 32 <<< 12 |||
    regField rd <<< 7 ||| opcode.setWidth 32

/-- I-shift format (R135). -/
def shiftWord (funct6 : BitVec 6) (shamt : BitVec 6) (rs1 : Reg) (funct3 : BitVec 3) (rd : Reg)
    (opcode : BitVec 7) : InstrWord :=
  funct6.setWidth 32 <<< 26 ||| shamt.setWidth 32 <<< 20 ||| regField rs1 <<< 15 |||
    funct3.setWidth 32 <<< 12 ||| regField rd <<< 7 ||| opcode.setWidth 32

/-- S format (R136). -/
def sWord (imm : BitVec 12) (rs2 rs1 : Reg) (funct3 : BitVec 3) (opcode : BitVec 7) : InstrWord :=
  (imm.extractLsb' 5 7).setWidth 32 <<< 25 ||| regField rs2 <<< 20 ||| regField rs1 <<< 15 |||
    funct3.setWidth 32 <<< 12 ||| (imm.extractLsb' 0 5).setWidth 32 <<< 7 ||| opcode.setWidth 32

/-- B format (R137). -/
def bWord (imm : BitVec 13) (rs2 rs1 : Reg) (funct3 : BitVec 3) (opcode : BitVec 7) : InstrWord :=
  (imm.extractLsb' 12 1).setWidth 32 <<< 31 ||| (imm.extractLsb' 5 6).setWidth 32 <<< 25 |||
    regField rs2 <<< 20 ||| regField rs1 <<< 15 ||| funct3.setWidth 32 <<< 12 |||
    (imm.extractLsb' 1 4).setWidth 32 <<< 8 ||| (imm.extractLsb' 11 1).setWidth 32 <<< 7 |||
    opcode.setWidth 32

/-- U format (R138). -/
def uWord (imm : BitVec 20) (rd : Reg) (opcode : BitVec 7) : InstrWord :=
  imm.setWidth 32 <<< 12 ||| regField rd <<< 7 ||| opcode.setWidth 32

/-- J format (R139). -/
def jWord (imm : BitVec 21) (rd : Reg) (opcode : BitVec 7) : InstrWord :=
  (imm.extractLsb' 20 1).setWidth 32 <<< 31 ||| (imm.extractLsb' 1 10).setWidth 32 <<< 21 |||
    (imm.extractLsb' 11 1).setWidth 32 <<< 20 ||| (imm.extractLsb' 12 8).setWidth 32 <<< 12 |||
    regField rd <<< 7 ||| opcode.setWidth 32

/-- The encoder: the word of an instruction, from the table of R150. -/
def encode : Instr → InstrWord
  | .add rd rs1 rs2 => rWord 0x00#7 rs2 rs1 0#3 rd 0x33#7
  | .sub rd rs1 rs2 => rWord 0x20#7 rs2 rs1 0#3 rd 0x33#7
  | .sll rd rs1 rs2 => rWord 0x00#7 rs2 rs1 1#3 rd 0x33#7
  | .slt rd rs1 rs2 => rWord 0x00#7 rs2 rs1 2#3 rd 0x33#7
  | .sltu rd rs1 rs2 => rWord 0x00#7 rs2 rs1 3#3 rd 0x33#7
  | .xor rd rs1 rs2 => rWord 0x00#7 rs2 rs1 4#3 rd 0x33#7
  | .srl rd rs1 rs2 => rWord 0x00#7 rs2 rs1 5#3 rd 0x33#7
  | .sra rd rs1 rs2 => rWord 0x20#7 rs2 rs1 5#3 rd 0x33#7
  | .or rd rs1 rs2 => rWord 0x00#7 rs2 rs1 6#3 rd 0x33#7
  | .and rd rs1 rs2 => rWord 0x00#7 rs2 rs1 7#3 rd 0x33#7
  | .addi rd rs1 imm => iWord imm rs1 0#3 rd 0x13#7
  | .slti rd rs1 imm => iWord imm rs1 2#3 rd 0x13#7
  | .sltiu rd rs1 imm => iWord imm rs1 3#3 rd 0x13#7
  | .xori rd rs1 imm => iWord imm rs1 4#3 rd 0x13#7
  | .ori rd rs1 imm => iWord imm rs1 6#3 rd 0x13#7
  | .andi rd rs1 imm => iWord imm rs1 7#3 rd 0x13#7
  | .slli rd rs1 shamt => shiftWord 0x00#6 shamt rs1 1#3 rd 0x13#7
  | .srli rd rs1 shamt => shiftWord 0x00#6 shamt rs1 5#3 rd 0x13#7
  | .srai rd rs1 shamt => shiftWord 0x10#6 shamt rs1 5#3 rd 0x13#7
  | .lb rd rs1 imm => iWord imm rs1 0#3 rd 0x03#7
  | .lh rd rs1 imm => iWord imm rs1 1#3 rd 0x03#7
  | .lw rd rs1 imm => iWord imm rs1 2#3 rd 0x03#7
  | .ld rd rs1 imm => iWord imm rs1 3#3 rd 0x03#7
  | .lbu rd rs1 imm => iWord imm rs1 4#3 rd 0x03#7
  | .lhu rd rs1 imm => iWord imm rs1 5#3 rd 0x03#7
  | .lwu rd rs1 imm => iWord imm rs1 6#3 rd 0x03#7
  | .sb rs1 imm rs2 => sWord imm rs2 rs1 0#3 0x23#7
  | .sh rs1 imm rs2 => sWord imm rs2 rs1 1#3 0x23#7
  | .sw rs1 imm rs2 => sWord imm rs2 rs1 2#3 0x23#7
  | .sd rs1 imm rs2 => sWord imm rs2 rs1 3#3 0x23#7
  | .beq rs1 rs2 offset => bWord offset rs2 rs1 0#3 0x63#7
  | .bne rs1 rs2 offset => bWord offset rs2 rs1 1#3 0x63#7
  | .blt rs1 rs2 offset => bWord offset rs2 rs1 4#3 0x63#7
  | .bge rs1 rs2 offset => bWord offset rs2 rs1 5#3 0x63#7
  | .bltu rs1 rs2 offset => bWord offset rs2 rs1 6#3 0x63#7
  | .bgeu rs1 rs2 offset => bWord offset rs2 rs1 7#3 0x63#7
  | .jal rd offset => jWord offset rd 0x6F#7
  | .jalr rd rs1 imm => iWord imm rs1 0#3 rd 0x67#7
  | .lui rd imm => uWord imm rd 0x37#7
  | .auipc rd imm => uWord imm rd 0x17#7
  | .ecall => 0x00000073#32
  | .ebreak => 0x00100073#32
  | .mul rd rs1 rs2 => rWord 0x01#7 rs2 rs1 0#3 rd 0x33#7
  | .mulh rd rs1 rs2 => rWord 0x01#7 rs2 rs1 1#3 rd 0x33#7
  | .mulhsu rd rs1 rs2 => rWord 0x01#7 rs2 rs1 2#3 rd 0x33#7
  | .mulhu rd rs1 rs2 => rWord 0x01#7 rs2 rs1 3#3 rd 0x33#7
  | .div rd rs1 rs2 => rWord 0x01#7 rs2 rs1 4#3 rd 0x33#7
  | .divu rd rs1 rs2 => rWord 0x01#7 rs2 rs1 5#3 rd 0x33#7
  | .rem rd rs1 rs2 => rWord 0x01#7 rs2 rs1 6#3 rd 0x33#7
  | .remu rd rs1 rs2 => rWord 0x01#7 rs2 rs1 7#3 rd 0x33#7
  | .sentinel => 0x00000000#32

/-! ## The opcode table (R150) -/

/-- One row of the table: an instruction is selected when the word ANDed with `mask` equals
`pattern` (R147). -/
structure OpcodeRow where
  mnemonic : String
  pattern : InstrWord
  mask : InstrWord
  deriving DecidableEq, Repr

/-- An instruction's row of the table. -/
def Instr.row : Instr → OpcodeRow
  | .add _ _ _ => ⟨"add", 0x00000033#32, 0xFE00707F#32⟩
  | .sub _ _ _ => ⟨"sub", 0x40000033#32, 0xFE00707F#32⟩
  | .sll _ _ _ => ⟨"sll", 0x00001033#32, 0xFE00707F#32⟩
  | .slt _ _ _ => ⟨"slt", 0x00002033#32, 0xFE00707F#32⟩
  | .sltu _ _ _ => ⟨"sltu", 0x00003033#32, 0xFE00707F#32⟩
  | .xor _ _ _ => ⟨"xor", 0x00004033#32, 0xFE00707F#32⟩
  | .srl _ _ _ => ⟨"srl", 0x00005033#32, 0xFE00707F#32⟩
  | .sra _ _ _ => ⟨"sra", 0x40005033#32, 0xFE00707F#32⟩
  | .or _ _ _ => ⟨"or", 0x00006033#32, 0xFE00707F#32⟩
  | .and _ _ _ => ⟨"and", 0x00007033#32, 0xFE00707F#32⟩
  | .addi _ _ _ => ⟨"addi", 0x00000013#32, 0x0000707F#32⟩
  | .slti _ _ _ => ⟨"slti", 0x00002013#32, 0x0000707F#32⟩
  | .sltiu _ _ _ => ⟨"sltiu", 0x00003013#32, 0x0000707F#32⟩
  | .xori _ _ _ => ⟨"xori", 0x00004013#32, 0x0000707F#32⟩
  | .ori _ _ _ => ⟨"ori", 0x00006013#32, 0x0000707F#32⟩
  | .andi _ _ _ => ⟨"andi", 0x00007013#32, 0x0000707F#32⟩
  | .slli _ _ _ => ⟨"slli", 0x00001013#32, 0xFC00707F#32⟩
  | .srli _ _ _ => ⟨"srli", 0x00005013#32, 0xFC00707F#32⟩
  | .srai _ _ _ => ⟨"srai", 0x40005013#32, 0xFC00707F#32⟩
  | .lb _ _ _ => ⟨"lb", 0x00000003#32, 0x0000707F#32⟩
  | .lh _ _ _ => ⟨"lh", 0x00001003#32, 0x0000707F#32⟩
  | .lw _ _ _ => ⟨"lw", 0x00002003#32, 0x0000707F#32⟩
  | .ld _ _ _ => ⟨"ld", 0x00003003#32, 0x0000707F#32⟩
  | .lbu _ _ _ => ⟨"lbu", 0x00004003#32, 0x0000707F#32⟩
  | .lhu _ _ _ => ⟨"lhu", 0x00005003#32, 0x0000707F#32⟩
  | .lwu _ _ _ => ⟨"lwu", 0x00006003#32, 0x0000707F#32⟩
  | .sb _ _ _ => ⟨"sb", 0x00000023#32, 0x0000707F#32⟩
  | .sh _ _ _ => ⟨"sh", 0x00001023#32, 0x0000707F#32⟩
  | .sw _ _ _ => ⟨"sw", 0x00002023#32, 0x0000707F#32⟩
  | .sd _ _ _ => ⟨"sd", 0x00003023#32, 0x0000707F#32⟩
  | .beq _ _ _ => ⟨"beq", 0x00000063#32, 0x0000707F#32⟩
  | .bne _ _ _ => ⟨"bne", 0x00001063#32, 0x0000707F#32⟩
  | .blt _ _ _ => ⟨"blt", 0x00004063#32, 0x0000707F#32⟩
  | .bge _ _ _ => ⟨"bge", 0x00005063#32, 0x0000707F#32⟩
  | .bltu _ _ _ => ⟨"bltu", 0x00006063#32, 0x0000707F#32⟩
  | .bgeu _ _ _ => ⟨"bgeu", 0x00007063#32, 0x0000707F#32⟩
  | .jal _ _ => ⟨"jal", 0x0000006F#32, 0x0000007F#32⟩
  | .jalr _ _ _ => ⟨"jalr", 0x00000067#32, 0x0000707F#32⟩
  | .lui _ _ => ⟨"lui", 0x00000037#32, 0x0000007F#32⟩
  | .auipc _ _ => ⟨"auipc", 0x00000017#32, 0x0000007F#32⟩
  | .ecall => ⟨"ecall", 0x00000073#32, 0xFFFFFFFF#32⟩
  | .ebreak => ⟨"ebreak", 0x00100073#32, 0xFFFFFFFF#32⟩
  | .mul _ _ _ => ⟨"mul", 0x02000033#32, 0xFE00707F#32⟩
  | .mulh _ _ _ => ⟨"mulh", 0x02001033#32, 0xFE00707F#32⟩
  | .mulhsu _ _ _ => ⟨"mulhsu", 0x02002033#32, 0xFE00707F#32⟩
  | .mulhu _ _ _ => ⟨"mulhu", 0x02003033#32, 0xFE00707F#32⟩
  | .div _ _ _ => ⟨"div", 0x02004033#32, 0xFE00707F#32⟩
  | .divu _ _ _ => ⟨"divu", 0x02005033#32, 0xFE00707F#32⟩
  | .rem _ _ _ => ⟨"rem", 0x02006033#32, 0xFE00707F#32⟩
  | .remu _ _ _ => ⟨"remu", 0x02007033#32, 0xFE00707F#32⟩
  | .sentinel => ⟨"sentinel", 0x00000000#32, 0xFFFFFFFF#32⟩

/-- Rows of 40_alu_register.md. -/
def opcodeRowsAlu : List OpcodeRow :=
  [⟨"add", 0x00000033#32, 0xFE00707F#32⟩,
   ⟨"sub", 0x40000033#32, 0xFE00707F#32⟩,
   ⟨"sll", 0x00001033#32, 0xFE00707F#32⟩,
   ⟨"slt", 0x00002033#32, 0xFE00707F#32⟩,
   ⟨"sltu", 0x00003033#32, 0xFE00707F#32⟩,
   ⟨"xor", 0x00004033#32, 0xFE00707F#32⟩,
   ⟨"srl", 0x00005033#32, 0xFE00707F#32⟩,
   ⟨"sra", 0x40005033#32, 0xFE00707F#32⟩,
   ⟨"or", 0x00006033#32, 0xFE00707F#32⟩,
   ⟨"and", 0x00007033#32, 0xFE00707F#32⟩]

/-- Rows of 41_alu_immediate.md. -/
def opcodeRowsImm : List OpcodeRow :=
  [⟨"addi", 0x00000013#32, 0x0000707F#32⟩,
   ⟨"slti", 0x00002013#32, 0x0000707F#32⟩,
   ⟨"sltiu", 0x00003013#32, 0x0000707F#32⟩,
   ⟨"xori", 0x00004013#32, 0x0000707F#32⟩,
   ⟨"ori", 0x00006013#32, 0x0000707F#32⟩,
   ⟨"andi", 0x00007013#32, 0x0000707F#32⟩,
   ⟨"slli", 0x00001013#32, 0xFC00707F#32⟩,
   ⟨"srli", 0x00005013#32, 0xFC00707F#32⟩,
   ⟨"srai", 0x40005013#32, 0xFC00707F#32⟩]

/-- Rows of 42_loads.md. -/
def opcodeRowsLoad : List OpcodeRow :=
  [⟨"lb", 0x00000003#32, 0x0000707F#32⟩,
   ⟨"lh", 0x00001003#32, 0x0000707F#32⟩,
   ⟨"lw", 0x00002003#32, 0x0000707F#32⟩,
   ⟨"ld", 0x00003003#32, 0x0000707F#32⟩,
   ⟨"lbu", 0x00004003#32, 0x0000707F#32⟩,
   ⟨"lhu", 0x00005003#32, 0x0000707F#32⟩,
   ⟨"lwu", 0x00006003#32, 0x0000707F#32⟩]

/-- Rows of 43_stores.md. -/
def opcodeRowsStore : List OpcodeRow :=
  [⟨"sb", 0x00000023#32, 0x0000707F#32⟩,
   ⟨"sh", 0x00001023#32, 0x0000707F#32⟩,
   ⟨"sw", 0x00002023#32, 0x0000707F#32⟩,
   ⟨"sd", 0x00003023#32, 0x0000707F#32⟩]

/-- Rows of 44_branches.md. -/
def opcodeRowsBranch : List OpcodeRow :=
  [⟨"beq", 0x00000063#32, 0x0000707F#32⟩,
   ⟨"bne", 0x00001063#32, 0x0000707F#32⟩,
   ⟨"blt", 0x00004063#32, 0x0000707F#32⟩,
   ⟨"bge", 0x00005063#32, 0x0000707F#32⟩,
   ⟨"bltu", 0x00006063#32, 0x0000707F#32⟩,
   ⟨"bgeu", 0x00007063#32, 0x0000707F#32⟩]

/-- Rows of 45_jumps.md, 46_upper_immediate.md, 47_system.md. -/
def opcodeRowsOther : List OpcodeRow :=
  [⟨"jal", 0x0000006F#32, 0x0000007F#32⟩,
   ⟨"jalr", 0x00000067#32, 0x0000707F#32⟩,
   ⟨"lui", 0x00000037#32, 0x0000007F#32⟩,
   ⟨"auipc", 0x00000017#32, 0x0000007F#32⟩,
   ⟨"ecall", 0x00000073#32, 0xFFFFFFFF#32⟩,
   ⟨"ebreak", 0x00100073#32, 0xFFFFFFFF#32⟩]

/-- Rows of 48_muldiv.md. -/
def opcodeRowsMulDiv : List OpcodeRow :=
  [⟨"mul", 0x02000033#32, 0xFE00707F#32⟩,
   ⟨"mulh", 0x02001033#32, 0xFE00707F#32⟩,
   ⟨"mulhsu", 0x02002033#32, 0xFE00707F#32⟩,
   ⟨"mulhu", 0x02003033#32, 0xFE00707F#32⟩,
   ⟨"div", 0x02004033#32, 0xFE00707F#32⟩,
   ⟨"divu", 0x02005033#32, 0xFE00707F#32⟩,
   ⟨"rem", 0x02006033#32, 0xFE00707F#32⟩,
   ⟨"remu", 0x02007033#32, 0xFE00707F#32⟩]

/-- Rows of the sentinel row. -/
def opcodeRowsSentinel : List OpcodeRow :=
  [⟨"sentinel", 0x00000000#32, 0xFFFFFFFF#32⟩]

/-- The 50 instruction rows of R150 and the sentinel row. -/
def opcodeTable : List OpcodeRow :=
  opcodeRowsAlu ++ opcodeRowsImm ++ opcodeRowsLoad ++ opcodeRowsStore ++
    opcodeRowsBranch ++ opcodeRowsOther ++ opcodeRowsMulDiv ++ opcodeRowsSentinel

end Sys2Proof
end

