-- ==== Sys2Proof/Machine/State.lean ====
section
/-! DEFINITION. The state of the core, as plain data (10_state.md), the reasons a step can stop, and
the state right after power-on. -/

namespace Sys2Proof.Machine

/-! ## Reasons -/

/-- The closed list of fault causes (R340). `Check` raises `oob` and `textWrite`, the fetch guard
raises `pcData`. The spec describes what a fault does to the machine (R343), so every meaning and the
step TAKE the fault: they answer a next state that is FAULTED and holds the cause. No meaning and no
step ever answers `Host.Outcome.fault`; safe, since nothing is claimed of a stopped machine. -/
inductive Fault where
  /-- `F_PC_DATA`, code 1: `pc >= DATA_BASE` at the start of a step (R344). Raised by the fetch guard. -/
  | pcData
  /-- `F_OOB`, code 2: an access ends beyond `MEMORY_SIZE` (R345). Raised by any load, store or fetch. -/
  | oob
  /-- `F_TEXT_WRITE`, code 3: a store into the code region while `SMC_ENABLE` is false (R346). -/
  | textWrite
  deriving DecidableEq, Repr

/-- Why a step refuses. -/
inductive Refusal where
  /-- An instruction with no meaning in this model. No arm of `exec` answers it. Safe. -/
  | notModelled (mnemonic : String)
  /-- An unhandled word under `STRICT_DECODE` (93_implementation_defined.md U1). Raised by the step,
  and only where that parameter is true; its default is false, and the word is then a no-op (R272).
  Safe: the machine stops where the lenient one goes on. -/
  | unhandledWord (w : InstrWord)
  deriving DecidableEq, Repr

/-! ## Control state -/

/-- `run_state` (R31). -/
inductive RunState where
  | running
  | halted
  | faulted
  deriving DecidableEq, Repr

/-- What one step returns: status 0, 1, 2 or 3 (R310). -/
inductive Status where
  /-- 0: normal. -/
  | normal
  /-- 1: the end-of-program sentinel is at `pc`. -/
  | ended
  /-- 2: the instruction at the new `pc` is a breakpoint or an ebreak. -/
  | halted
  /-- 3: a fault, or already FAULTED. -/
  | fault
  deriving DecidableEq, Repr

/-! ## Memory and the Cache Model -/

/-- The Memory Store (R43, R50): address and byte pairs in the canonical form `Memory.wf` of
Machine/Memory.lean. An unlisted address reads as 0, the spec's power-on and zero-fill value
(R371, R321). -/
abbrev Memory := List Host.Cell

/-- The replacement policies (R80). -/
inductive Replacement where
  | fifo
  | lru
  | random
  deriving DecidableEq, Repr

/-- The write policies (R80). -/
inductive WritePolicy where
  | writeThrough
  | writeBack
  deriving DecidableEq, Repr

/-- A validated Cache Config (R35, R80). The two masks of R83 are functions of it. -/
structure CacheConfig where
  /-- Bytes in a block. -/
  blockSize : Nat
  /-- The number of sets. -/
  nLines : Nat
  /-- The number of ways of a set. -/
  associativity : Nat
  replacement : Replacement
  writePolicy : WritePolicy
  writeAllocate : Bool
  deriving DecidableEq, Repr

/-- One line (R36). `ts` is kept under RANDOM too and never read there (R93). -/
structure Line where
  valid : Bool
  dirty : Bool
  tag : Word
  data : List Byte
  ts : Word
  deriving DecidableEq, Repr

/-- The cache statistics (R38, R100): four unsigned 64-bit counters and the exact rational
`hit_rate`. -/
structure CacheStats where
  accessCount : Word
  hitCount : Word
  missCount : Word
  writebacks : Word
  hitRate : Rat
  deriving DecidableEq, Repr

/-- All counters 0 (R45, R109). -/
def CacheStats.zero : CacheStats :=
  { accessCount := 0, hitCount := 0, missCount := 0, writebacks := 0, hitRate := 0 }

/-- The Cache Model while it is enabled (R35 to R39). `sets` lists the sets by index, each the list
of its ways. -/
structure Cache where
  cfg : CacheConfig
  traceEnable : Bool
  sets : List (List Line)
  /-- `cache_clk` (R37). -/
  clk : Word
  stats : CacheStats
  deriving DecidableEq, Repr

/-- The direction of a byte access in the trace (R104). -/
inductive Direction where
  | read
  | write
  deriving DecidableEq, Repr

/-- One record of the cache trace (R39, R104). -/
structure TraceRecord where
  dir : Direction
  address : Word
  set : Nat
  hit : Bool
  tag : Word
  dirty : Bool
  deriving DecidableEq, Repr

/-- What the access primitives work on: the Memory Store, the optional Cache Model in front of it,
the model's own count of RANDOM draws, and the trace sent to the external sink. -/
structure MemSystem where
  /-- `M` (R43). -/
  store : Memory
  /-- The Cache Model; `none` is `cache_enabled = false` (R35). -/
  cache : Option Cache
  /-- THE MODEL'S OWN FIELD, not the spec's: how many draws of `Config.randomDraw` were taken (R93). -/
  draws : Nat
  /-- The trace, oldest record first (R39). -/
  trace : List TraceRecord
  deriving DecidableEq, Repr

/-! ## Diagnostic and host-side state -/

/-- A call frame: the recorded line and the index of the label that owns the return line (R40). -/
structure Frame where
  line : Nat
  owner : Option Nat
  deriving DecidableEq, Repr

/-- An entry of the label table: a label and its start position, a line (R331). -/
structure Label where
  name : String
  start : Nat
  deriving DecidableEq, Repr

/-- A loadable program: instruction words and the initial bytes of the data region (R41, R320). -/
structure Image where
  words : List InstrWord
  data : List Byte
  deriving DecidableEq, Repr

/-! ## The state -/

/-- The whole machine. -/
structure State where
  /-- `MEMORY_SIZE`, `DATA_BASE`, `SMC_ENABLE`, `STRICT_DECODE` (R34). -/
  params : Params
  /-- `x0` to `x31` (R20). Read and written only through `readReg` and `writeReg`. -/
  regs : Vector Word 32
  /-- The program counter (R25). -/
  pc : Word
  /-- `run_state` (R31). -/
  runState : RunState
  /-- `fault_cause` (R32). -/
  faultCause : Option Fault
  /-- `wb`, the write-back record: an index, without a value (R42; DESIGN CHOICE beside D38, log entry 14). -/
  wb : Option Reg
  /-- `breakpoints` (R33): a set of instruction indices, held strictly rising. -/
  breakpoints : List Nat
  /-- Memory Store, Cache Model and trace (R35 to R39, R43). -/
  memSys : MemSystem
  /-- `call_stack` (R40), innermost frame first. -/
  callStack : List Frame
  /-- The line table given at load, if one was (R40, R330). -/
  lineTable : Option (List Nat)
  /-- The deduplicated label table given at load; empty if none was (R40, R331). -/
  labels : List Label
  /-- `image`, the last successfully loaded program (R41). -/
  image : Image
  /-- THE MODEL'S OWN FIELD, not the spec's: the status the last step returned, `none` since the last
  load or reset (log entry 3). -/
  lastStatus : Option Status
  /-- The external reporting sink, oldest first: the cause of each fault message pushed (R343). The
  message texts are not in the spec (R32). -/
  reports : List Fault
  deriving DecidableEq, Repr

/-- Power-on (R371, R45) of the machine with parameters `p`. -/
def State.powerOn (p : Params) : State :=
  { params := p
    regs := Vector.replicate 32 0
    pc := 0
    runState := .running
    faultCause := none
    wb := none
    breakpoints := []
    memSys := { store := [], cache := none, draws := 0, trace := [] }
    callStack := []
    lineTable := none
    labels := []
    image := { words := [], data := [] }
    lastStatus := none
    reports := [] }

/-- The machine right after power-on, with the sizes of log entry 1. -/
def State.reset : State := State.powerOn Params.default

end Sys2Proof.Machine
end

