-- ==== Sys2Proof/Machine/Memory.lean ====
section
/-! DEFINITION. The Memory Store (20_memory.md section 1): reading and writing one byte of `M`, blocks
of it, and the canonical form. -/

namespace Sys2Proof.Machine

/-- The canonical form: addresses strictly rising, no byte equal to what an unlisted address reads as. -/
def Memory.wf : Memory → Bool
  | [] => true
  | (a, b) :: m => b != 0 && m.all (fun c => decide (a < c.1)) && Memory.wf m

/-- Every listed address is backed (R50: there is no byte at an address `>= MEMORY_SIZE`). -/
def Memory.within (size : Nat) (m : Memory) : Bool := m.all (fun c => decide (c.1 < size))

/-- `M[a]` (R50). An unlisted address reads as 0 (R371, R321). -/
def Memory.read : Memory → Nat → Byte
  | [], _ => 0
  | (k, b) :: m, a => if a = k then b else Memory.read m a

/-- `M[a] <- b` (R50). Writing 0 removes the entry. -/
def Memory.write : Memory → Nat → Byte → Memory
  | [], a, b => if b = 0 then [] else [(a, b)]
  | (k, c) :: m, a, b =>
    if a < k then (if b = 0 then (k, c) :: m else (a, b) :: (k, c) :: m)
    else if a = k then (if b = 0 then m else (a, b) :: m)
    else (k, c) :: Memory.write m a b

/-- `n` bytes from `a` on; bytes at or past `size` read as 0 (R94, R103, decision D48). -/
def Memory.readBlock (size : Nat) (m : Memory) (a : Nat) : Nat → List Byte
  | 0 => []
  | n + 1 => (if a < size then m.read a else 0) :: Memory.readBlock size m (a + 1) n

/-- The dump of `M`: every backed byte, lowest address first (R391). -/
def Memory.dump (size : Nat) (m : Memory) : List Byte := m.readBlock size 0 size

/-- The bytes at `a` on; bytes at or past `size` are dropped (R94, R103, decision D48). -/
def Memory.writeBlock (size : Nat) (m : Memory) (a : Nat) : List Byte → Memory
  | [] => m
  | b :: bs => Memory.writeBlock size (if a < size then m.write a b else m) (a + 1) bs

end Sys2Proof.Machine
end

