-- ==== Sys2Proof/Machine/CacheModel.lean ====
section
/-! DEFINITION. The Cache Model (21_cache.md): configuration, address decomposition, lookup, victim
selection, fill and flush, the two byte accesses, invalidate, and the coherent view. -/

namespace Sys2Proof.Machine

/-! ## Configuration (R80 to R83) -/

/-- Zero is not a power of two (R81). -/
def isPow2 (n : Nat) : Bool := n != 0 && (n &&& (n - 1)) == 0

/-- What the enable command is given (R80). -/
structure CacheRequest where
  size : Nat
  blockSize : Nat
  associativity : Nat
  replacement : Replacement
  writePolicy : WritePolicy
  writeAllocate : Bool
  traceEnable : Bool
  deriving DecidableEq, Repr

/-- Construction of the Cache Config (R81); `none` is ConfigError. -/
def CacheRequest.config (r : CacheRequest) : Option CacheConfig :=
  let nLines := r.size / (r.blockSize * r.associativity)
  if !isPow2 r.size || !isPow2 r.blockSize || r.associativity = 0 ||
      r.size % (r.blockSize * r.associativity) != 0 || nLines = 0 || r.size < r.blockSize then
    none
  else
    some { blockSize := r.blockSize, nLines := nLines, associativity := r.associativity,
           replacement := r.replacement, writePolicy := r.writePolicy,
           writeAllocate := r.writeAllocate }

/-- `offsetMask` (R83). -/
def CacheConfig.offsetMask (g : CacheConfig) : Word := BitVec.ofNat 64 (g.blockSize - 1)

/-- `indexMask` (R83, decision D13). -/
def CacheConfig.indexMask (g : CacheConfig) : Word :=
  BitVec.ofNat 64 ((g.nLines - 1) * g.blockSize)

/-! ## Address decomposition (R84, R103) -/

def CacheConfig.offset (g : CacheConfig) (a : Word) : Nat := (a &&& g.offsetMask).toNat

def CacheConfig.index (g : CacheConfig) (a : Word) : Nat :=
  (a &&& g.indexMask).toNat / g.blockSize

/-- The tag is the address with its index and offset bits cleared, not shifted (R84). -/
def CacheConfig.tag (g : CacheConfig) (a : Word) : Word := a &&& ~~~g.indexMask &&& ~~~g.offsetMask

/-- The first address of the block of `a` (R103). -/
def CacheConfig.base (g : CacheConfig) (a : Word) : Word := a &&& ~~~g.offsetMask

/-- The first address of the block a line of set `s` with tag `t` holds (R103). -/
def CacheConfig.blockAddr (g : CacheConfig) (s : Nat) (t : Word) : Nat := t.toNat + s * g.blockSize

/-! ## Lines -/

/-- A line as construction leaves it: invalid, its other fields never read (R36, R109). -/
def Line.empty (blockSize : Nat) : Line :=
  { valid := false, dirty := false, tag := 0, data := List.replicate blockSize 0, ts := 0 }

/-- The ways of set `s`. -/
def Cache.ways (c : Cache) (s : Nat) : List Line := c.sets.getD s []

/-- The line at set `s`, way `w`. -/
def Cache.line (c : Cache) (s w : Nat) : Line := (c.ways s).getD w (Line.empty c.cfg.blockSize)

/-- Replaces the line at set `s`, way `w`. -/
def Cache.setLine (c : Cache) (s w : Nat) (L : Line) : Cache :=
  { c with sets := c.sets.set s ((c.ways s).set w L) }

/-- The lowest-numbered way of a set that hits: valid, and its tag equal (R86, R89). -/
def hitWay (ways : List Line) (tag : Word) : Option Nat :=
  ways.findIdx? (fun L => L.valid && L.tag == tag)

/-- The way with the smallest timestamp, the lowest-numbered of equals, and its timestamp (R91, R92,
decision D11). -/
def oldest : List Line → Option (Nat × Word)
  | [] => none
  | L :: rest =>
    match oldest rest with
    | none => some (0, L.ts)
    | some (w, t) => if t < L.ts then some (w + 1, t) else some (0, L.ts)

/-- The victim (R90 to R93): the lowest-numbered invalid way, or else the policy's choice. `draw` is
the oracle's number, reduced to a way of the set. -/
def victimWay (g : CacheConfig) (ways : List Line) (draw : Nat) : Nat :=
  match ways.findIdx? (fun L => !L.valid) with
  | some w => w
  | none =>
    match g.replacement with
    | .fifo => ((oldest ways).map Prod.fst).getD 0
    | .lru => ((oldest ways).map Prod.fst).getD 0
    | .random => draw % g.associativity

/-- Whether a victim selection consumes a draw: RANDOM, and no invalid way (R93). -/
def takesDraw (g : CacheConfig) (ways : List Line) : Bool :=
  decide (g.replacement = .random) && ways.all (fun L => L.valid)

/-! ## Statistics (R38, R85 to R88, R100) -/

/-- Start of a lookup: one access, one tick of `cache_clk` (R85). -/
def Cache.beginLookup (c : Cache) : Cache :=
  { c with clk := c.clk + 1
           stats := { c.stats with accessCount := c.stats.accessCount + 1 } }

def Cache.countHit (c : Cache) : Cache :=
  { c with stats := { c.stats with hitCount := c.stats.hitCount + 1 } }

def Cache.countMiss (c : Cache) : Cache :=
  { c with stats := { c.stats with missCount := c.stats.missCount + 1 } }

def Cache.countWriteback (c : Cache) : Cache :=
  { c with stats := { c.stats with writebacks := c.stats.writebacks + 1 } }

/-- `hit_count / access_count` exactly, and 0 while there was no access (R38, decision D16). -/
def CacheStats.exactRate (t : CacheStats) : Rat := mkRat t.hitCount.toNat t.accessCount.toNat

/-- End of a byte access: `hit_rate` is recomputed (R95, R96, R100). -/
def Cache.refreshRate (c : Cache) : Cache :=
  { c with stats := { c.stats with hitRate := c.stats.exactRate } }

/-! ## Fill, flush and lookup (R89, R94). `size` is `MEMORY_SIZE`. -/

/-- Whether a line's bytes are newer than the store: valid, dirty, under write-back (R94). -/
def mustFlush (g : CacheConfig) (L : Line) : Bool :=
  L.valid && L.dirty && decide (g.writePolicy = .writeBack)

/-- `Flush(s, L)` on the store (R94). -/
def flushLine (size : Nat) (g : CacheConfig) (m : Memory) (s : Nat) (L : Line) : Memory :=
  m.writeBlock size (g.blockAddr s L.tag) L.data

/-- `Fill(s, v, a)` (R94): flush the victim if need be, then load the block of `a` from the store. -/
def Cache.fill (size : Nat) (c : Cache) (m : Memory) (s w : Nat) (a : Word) : Cache × Memory :=
  let L := c.line s w
  let flush := mustFlush c.cfg L
  let m' := if flush then flushLine size c.cfg m s L else m
  let c' := if flush then c.countWriteback else c
  let L' : Line :=
    { valid := true, dirty := false, tag := c.cfg.tag a, ts := c.clk
      data := m'.readBlock size (c.cfg.base a).toNat c.cfg.blockSize }
  (c'.setLine s w L', m')

/-- What a lookup answers: the way that now holds the block, if one does, whether it hit, and the
state after. -/
structure LookupResult where
  way : Option Nat
  hit : Bool
  cache : Cache
  store : Memory
  draws : Nat
  deriving DecidableEq, Repr

/-- On a hit under LRU the line's timestamp is refreshed (R87). -/
def touchLine (c : Cache) (L : Line) : Line :=
  match c.cfg.replacement with
  | .lru => { L with ts := c.clk }
  | .fifo => L
  | .random => L

/-- `Lookup(a, allocate)` (R85 to R89). -/
def Cache.lookup (size : Nat) (c0 : Cache) (m : Memory) (draws : Nat) (a : Word)
    (allocate : Bool) : LookupResult :=
  let c := c0.beginLookup
  let s := c.cfg.index a
  match hitWay (c.ways s) (c.cfg.tag a) with
  | some w =>
    { way := some w, hit := true, store := m, draws := draws
      cache := c.countHit.setLine s w (touchLine c (c.line s w)) }
  | none =>
    let cm := c.countMiss
    if allocate then
      let v := victimWay c.cfg (c.ways s) (Config.randomDraw draws)
      let f := cm.fill size m s v a
      { way := some v, hit := false, cache := f.1, store := f.2
        draws := if takesDraw c.cfg (c.ways s) then draws + 1 else draws }
    else
      { way := none, hit := false, cache := cm, store := m, draws := draws }

/-! ## Byte accesses (R95, R96, R104) -/

/-- The trace record of an access (R104): Clean when there is no line (decision D17). -/
def traceRecord (dir : Direction) (a : Word) (hit : Bool) (c : Cache) (way : Option Nat) :
    TraceRecord :=
  { dir := dir, address := a, set := c.cfg.index a, hit := hit, tag := c.cfg.tag a
    dirty := match way with
      | some w => (c.line (c.cfg.index a) w).dirty
      | none => false }

/-- Appends a record when tracing is on (R104). -/
def appendTrace (c : Cache) (t : List TraceRecord) (r : TraceRecord) : List TraceRecord :=
  if c.traceEnable then t ++ [r] else t

/-- `CacheReadByte(a)` (R95): a read miss always allocates. -/
def cacheReadByte (size : Nat) (c : Cache) (x : MemSystem) (a : Word) : Byte × MemSystem :=
  let r := c.lookup size x.store x.draws a true
  let b := (r.cache.line (c.cfg.index a) (r.way.getD 0)).data.getD (c.cfg.offset a) 0
  let c' := r.cache.refreshRate
  (b, { store := r.store, cache := some c', draws := r.draws
        trace := appendTrace c' x.trace (traceRecord .read a r.hit c' r.way) })

/-- The byte `b` put into a line, which is marked dirty under write-back (R96). -/
def putByte (g : CacheConfig) (L : Line) (k : Nat) (b : Byte) : Line :=
  { L with data := L.data.set k b
           dirty := match g.writePolicy with
             | .writeBack => true
             | .writeThrough => L.dirty }

/-- The resident line, if there is one, updated with the written byte (R96). -/
def Cache.updateLine (c : Cache) (way : Option Nat) (a : Word) (b : Byte) : Cache :=
  match way with
  | some w =>
    c.setLine (c.cfg.index a) w (putByte c.cfg (c.line (c.cfg.index a) w) (c.cfg.offset a) b)
  | none => c

/-- `CacheWriteByte(a, b)` (R96 to R98). -/
def cacheWriteByte (size : Nat) (c : Cache) (x : MemSystem) (a : Word) (b : Byte) : MemSystem :=
  let r := c.lookup size x.store x.draws a c.cfg.writeAllocate
  let c1 := r.cache.updateLine r.way a b
  let c2 :=
    match c.cfg.writePolicy with
    | .writeThrough => c1.countWriteback
    | .writeBack => c1
  let m' :=
    match c.cfg.writePolicy, r.way with
    | .writeThrough, _ => r.store.write a.toNat b
    | .writeBack, none => r.store.write a.toNat b
    | .writeBack, some _ => r.store
  let c3 := c2.refreshRate
  { store := m', cache := some c3, draws := r.draws
    trace := appendTrace c3 x.trace (traceRecord .write a r.hit c3 r.way) }

/-- `ByteRead(a)` (R58). -/
def MemSystem.byteRead (size : Nat) (x : MemSystem) (a : Word) : Byte × MemSystem :=
  match x.cache with
  | some c => cacheReadByte size c x a
  | none => (x.store.read a.toNat, x)

/-- `ByteWrite(a, b)` (R58). -/
def MemSystem.byteWrite (size : Nat) (x : MemSystem) (a : Word) (b : Byte) : MemSystem :=
  match x.cache with
  | some c => cacheWriteByte size c x a b
  | none => { x with store := x.store.write a.toNat b }

/-! ## The coherent view (R106) -/

/-- `PeekByte(a)` through an enabled cache: the byte of the valid line that holds `a`, or else
`M[a]`. -/
def Cache.peek (c : Cache) (m : Memory) (a : Word) : Byte :=
  match hitWay (c.ways (c.cfg.index a)) (c.cfg.tag a) with
  | some w => (c.line (c.cfg.index a) w).data.getD (c.cfg.offset a) 0
  | none => m.read a.toNat

/-- `PeekByte(a)`, the current value `Cur(a)` of an address (R106, R107). Changes nothing. -/
def MemSystem.peekByte (x : MemSystem) (a : Word) : Byte :=
  match x.cache with
  | some c => c.peek x.store a
  | none => x.store.read a.toNat

/-! ## Invalidate, enable and disable (R101, R109) -/

/-- The flushes of `Invalidate()` over the ways of set `s`, in ascending order: the store after them
and how many there were. -/
def flushWays (size : Nat) (g : CacheConfig) (s : Nat) : List Line → Memory → Word → Memory × Word
  | [], m, n => (m, n)
  | L :: rest, m, n =>
    if mustFlush g L then flushWays size g s rest (flushLine size g m s L) (n + 1)
    else flushWays size g s rest m n

/-- The flushes of `Invalidate()` over the sets from `s` on, in ascending order. -/
def flushSets (size : Nat) (g : CacheConfig) : Nat → List (List Line) → Memory → Word → Memory × Word
  | _, [], m, n => (m, n)
  | s, ways :: rest, m, n =>
    let r := flushWays size g s ways m n
    flushSets size g (s + 1) rest r.1 r.2

/-- A line as invalidate and soft reset leave it: not valid, not dirty, the rest kept (R101, R374). -/
def Line.clear (L : Line) : Line := { L with valid := false, dirty := false }

/-- Every line cleared (R101, R374). -/
def Cache.clearLines (c : Cache) : Cache := { c with sets := c.sets.map (fun ws => ws.map Line.clear) }

/-- `Invalidate()` (R101). Without a cache there is nothing to do. -/
def MemSystem.invalidate (size : Nat) (x : MemSystem) : MemSystem :=
  match x.cache with
  | none => x
  | some c =>
    let r := flushSets size c.cfg 0 c.sets x.store c.stats.writebacks
    { x with store := r.1
             cache := some { c.clearLines with stats := { c.stats with writebacks := r.2 } } }

/-- A newly constructed cache (R109): every line invalid, all counters and `cache_clk` 0. -/
def Cache.new (g : CacheConfig) (traceEnable : Bool) : Cache :=
  { cfg := g, traceEnable := traceEnable
    sets := List.replicate g.nLines (List.replicate g.associativity (Line.empty g.blockSize))
    clk := 0, stats := CacheStats.zero }

/-- Disable (R109): invalidate first, so that no written byte is lost, then discard the cache. -/
def MemSystem.disable (size : Nat) (x : MemSystem) : MemSystem :=
  { x.invalidate size with cache := none }

/-- Enable or reconfigure (R109): disable, then construct. The flag says whether the configuration
was valid; after a ConfigError the cache is disabled (R81). -/
def MemSystem.enable (size : Nat) (x : MemSystem) (r : CacheRequest) : Bool × MemSystem :=
  match r.config with
  | some g => (true, { x.disable size with cache := some (Cache.new g r.traceEnable) })
  | none => (false, x.disable size)

/-- What soft reset does to an enabled cache (R374): lines cleared with no flush, `cache_clk` and the
statistics 0, configuration kept. -/
def Cache.softReset (c : Cache) : Cache := { c.clearLines with clk := 0, stats := CacheStats.zero }

end Sys2Proof.Machine
end

