-- ==== Sys2Proof/Machine/Flags.lean ====
section
/-! DEFINITION. The core has no status flags (R29): a comparison writes 0 or 1 to a register or
decides a branch. These are the comparisons. -/

namespace Sys2Proof.Machine

/-- `s64(x) < s64(y)` (R174, R192, R238). -/
def lessSigned (x y : Word) : Bool := x.slt y

/-- `x < y` as unsigned 64-bit values (R175, R193, R240). -/
def lessUnsigned (x y : Word) : Bool := x.ult y

/-- The 64-bit value 0 or 1 of a comparison (R174). -/
def boolWord (b : Bool) : Word := if b then 1 else 0

/-- `slt`, `slti` (R174, R192). -/
def setLessSigned (x y : Word) : Word := boolWord (lessSigned x y)

/-- `sltu`, `sltiu` (R175, R193). -/
def setLessUnsigned (x y : Word) : Word := boolWord (lessUnsigned x y)

/-! ## Branch conditions (R236 to R241) -/

def condEq (x y : Word) : Bool := x == y
def condNe (x y : Word) : Bool := x != y
def condLt (x y : Word) : Bool := lessSigned x y
def condGe (x y : Word) : Bool := !lessSigned x y
def condLtu (x y : Word) : Bool := lessUnsigned x y
def condGeu (x y : Word) : Bool := !lessUnsigned x y

end Sys2Proof.Machine
end

