-- ==== Sys2Proof/Machine/Operands.lean ====
section
/-! DEFINITION. Operand forms: sign and zero extension, the immediates as 64-bit values, shift
amounts, the access widths, the byte order, the effective address, and the arithmetic of each ALU,
multiply and divide instruction. -/

namespace Sys2Proof.Machine

/-! ## Extension (R12) -/

/-- `sext_N(v)`: the low `n` bits of `v` read as two's complement (R12). -/
def sext (n : Nat) (v : Word) : Word := (v.setWidth n).signExtend 64

/-- `zext_N(v)`: the low `n` bits of `v` (R12). -/
def zext (n : Nat) (v : Word) : Word := (v.setWidth n).setWidth 64

/-! ## Immediates as 64-bit values -/

/-- `immI` and `immS`: a 12-bit immediate sign-extended (R141, R142). -/
def imm12 (imm : BitVec 12) : Word := imm.signExtend 64

/-- `immB`: the 13-bit branch offset sign-extended (R143). -/
def immB (offset : BitVec 13) : Word := offset.signExtend 64

/-- `immJ`: the 21-bit jump offset sign-extended (R145). -/
def immJ (offset : BitVec 21) : Word := offset.signExtend 64

/-- `immU`: the 20-bit field sign-extended and shifted left by 12 (R144, R260, decision D43). -/
def immU (imm : BitVec 20) : Word := imm.signExtend 64 <<< 12

/-- The effective address of a load or a store: base plus displacement, modulo `2^64` (R210, R225). -/
def effectiveAddr (base : Word) (imm : BitVec 12) : Word := base + imm12 imm

/-! ## Byte order (R52) -/

/-- The value of bytes, least significant first (R52, R56). -/
def wordOfBytes : List Byte → Word
  | [] => 0
  | b :: bs => b.setWidth 64 ||| wordOfBytes bs <<< 8

/-- The low `n` bytes of `v`, least significant first (R52, R57). -/
def bytesOfValue : Nat → Word → List Byte
  | 0, _ => []
  | n + 1, v => v.setWidth 8 :: bytesOfValue n (v >>> 8)

/-! ## Arithmetic (R170 to R180, R190 to R199) -/

/-- The amount of a register shift: the low 6 bits (R170, decision D20). -/
def shiftAmount (v : Word) : Nat := (v.extractLsb' 0 6).toNat

def shiftLeft (v : Word) (n : Nat) : Word := v <<< n
def shiftRightLogical (v : Word) (n : Nat) : Word := v >>> n
/-- Copies of bit 63 enter at the top (R178). -/
def shiftRightArith (v : Word) (n : Nat) : Word := v.sshiftRight n

/-! ## Multiplication (R281 to R284): the product is exact in 128 bits, and a half of it is taken -/

def mulLow (x y : Word) : Word := x * y

/-- Bits 127:64 of a 128-bit product (R289: the upper half, not a left shift). -/
def upperHalf (p : BitVec 128) : Word := p.extractLsb' 64 64

def mulHighSigned (x y : Word) : Word := upperHalf (x.signExtend 128 * y.signExtend 128)
def mulHighSignedUnsigned (x y : Word) : Word := upperHalf (x.signExtend 128 * y.setWidth 128)
def mulHighUnsigned (x y : Word) : Word := upperHalf (x.setWidth 128 * y.setWidth 128)

/-! ## Division (R285 to R288): a zero divisor gives 0 -/

/-- The quotient of `-2^63 / -1`, a named constant as 93_implementation_defined.md U2 asks
(R285, decision D25, log entry 6). -/
def divOverflowQuotient : Word := 0x8000000000000000#64

/-- The remainder of `-2^63 / -1`, a named constant likewise (R287, decision D25, log entry 6). -/
def divOverflowRemainder : Word := 0#64

/-- The overflow case of signed division (R285). -/
def divOverflows (x y : Word) : Bool := x == 0x8000000000000000#64 && y == 0xFFFFFFFFFFFFFFFF#64

/-- `div`: rounds toward zero (R285). -/
def divSigned (x y : Word) : Word :=
  if y = 0 then 0 else if divOverflows x y then divOverflowQuotient else x.sdiv y

/-- `divu` (R286). -/
def divUnsigned (x y : Word) : Word := if y = 0 then 0 else x.udiv y

/-- `rem`: the sign of the dividend (R287). -/
def remSigned (x y : Word) : Word :=
  if y = 0 then 0 else if divOverflows x y then divOverflowRemainder else x.srem y

/-- `remu` (R288). -/
def remUnsigned (x y : Word) : Word := if y = 0 then 0 else x.umod y

end Sys2Proof.Machine
end

