-- ==== Sys2Proof/Machine/Tracker.lean ====
section
/-! DEFINITION. The Call-Stack Tracker (50_step_and_run.md section 5): lines, owning labels, push, pop
and refresh. Diagnostic state that no instruction reads (R40). -/

namespace Sys2Proof.Machine

/-- `line_of(i)` (R330): the index itself when no table was given. Beyond the end of a table that was
given the spec states no line, and the value is free (log entry 5). -/
def lineOf (table : Option (List Nat)) (i : Nat) : Nat :=
  match table with
  | none => i
  | some t =>
    match t[i]? with
    | some l => l
    | none => Config.lineBeyondTable i

/-- Labels with an identical start position are dropped but for the first one seen (R331). -/
def dedupLabels : List Label → List Label
  | [] => []
  | l :: ls => l :: (dedupLabels ls).filter (fun k => k.start != l.start)

/-- The label with the greatest start position `<= line`, the first of equals: its index, counting
from `i`, and its start (R331). -/
def nearestLabel (line : Nat) : List Label → Nat → Option (Nat × Nat)
  | [], _ => none
  | l :: ls, i =>
    match nearestLabel line ls (i + 1) with
    | none => if l.start ≤ line then some (i, l.start) else none
    | some (j, st) => if l.start ≤ line ∧ st ≤ l.start then some (i, l.start) else some (j, st)

/-- `Owner(L)` in the deduplicated table (R331). -/
def ownerOf (labels : List Label) (line : Nat) : Option Nat :=
  (nearestLabel line labels 0).map Prod.fst

/-- `Line(a) = line_of(a >> 2)` (R330). -/
def State.lineAt (s : State) (a : Word) : Nat := lineOf s.lineTable (a >>> 2).toNat

/-- The top frame's line replaced; an empty stack stays empty (R332). -/
def refreshTop (line : Nat) : List Frame → List Frame
  | [] => []
  | f :: fs => { f with line := line } :: fs

/-- `CallStackRefresh(a)` (R332). -/
def State.callStackRefresh (s : State) (a : Word) : State :=
  { s with callStack := refreshTop (s.lineAt a) s.callStack }

/-- `CallStackPush(r)` (R333). -/
def State.callStackPush (s : State) (r : Word) : State :=
  { s with callStack :=
      { line := s.lineAt r, owner := ownerOf s.labels (s.lineAt r) } :: s.callStack }

/-- `CallStackPop()` (R334): with an empty stack it does nothing. -/
def State.callStackPop (s : State) : State := { s with callStack := s.callStack.tail }

/-- The stack emptied (R304, R335). -/
def State.callStackClear (s : State) : State := { s with callStack := [] }

end Sys2Proof.Machine
end

