-- ==== Sys2Proof/Machine/Ops.lean ====
section
/-! DEFINITION. The shared operations of the meanings: registers, the pc, the checked memory accesses,
taking a fault, and the instruction shapes. -/

namespace Sys2Proof.Machine

/-! ## Registers (R21, R22) -/

/-- `x[i]`: `x[0]` is 0 always (R21). -/
def State.readReg (s : State) (r : Reg) : Word := if r = 0 then 0 else s.regs[r]

/-- `x[i] <- v`: discarded when `i = 0`, and the write-back record is set in every case (R22). DESIGN CHOICE (log
entry 14): the record is the index alone, as R22 and R42 have it, where decision D38 writes a pair `(0, value)`. -/
def State.writeReg (s : State) (r : Reg) (v : Word) : State :=
  { s with regs := if r = 0 then s.regs else s.regs.set r v
           wb := some r }

/-! ## Program counter (R26) -/

/-- `pc <- t`. -/
def State.jumpTo (s : State) (t : Word) : State := { s with pc := t }

/-- `pc <- u64(pc + 4)`. -/
def State.advance (s : State) : State := s.jumpTo (s.pc + 4)

/-! ## Checked memory accesses (R55 to R57) -/

/-- `Check(addr, n, is_write)` (R55): bounds first, by integers with no wrap, then the write guard. -/
def check (p : Params) (addr : Word) (n : Nat) (isWrite : Bool) : Option Fault :=
  if p.memorySize < addr.toNat + n then some .oob
  else if isWrite && !p.smcEnable && decide (addr.toNat < p.dataBase) then some .textWrite
  else none

/-- `n` byte reads from `a` on, in ascending order (R56). -/
def readBytes (size : Nat) : Nat → Word → MemSystem → List Byte × MemSystem
  | 0, _, x => ([], x)
  | n + 1, a, x =>
    let r := x.byteRead size a
    let rest := readBytes size n (a + 1) r.2
    (r.1 :: rest.1, rest.2)

/-- Byte writes from `a` on, in ascending order (R57). -/
def writeBytes (size : Nat) : List Byte → Word → MemSystem → MemSystem
  | [], _, x => x
  | b :: bs, a, x => writeBytes size bs (a + 1) (x.byteWrite size a b)

/-- `MemRead(addr, n)` (R56): the value and the state after, or the fault that `Check` raised. -/
def State.memRead (s : State) (addr : Word) (n : Nat) : Except Fault (Word × State) :=
  match check s.params addr n false with
  | some c => .error c
  | none =>
    let r := readBytes s.params.memorySize n addr s.memSys
    .ok (wordOfBytes r.1, { s with memSys := r.2 })

/-- `MemWrite(addr, n, v)` (R57): the low `8n` bits of `v`, or the fault that `Check` raised. -/
def State.memWrite (s : State) (addr : Word) (n : Nat) (v : Word) : Except Fault State :=
  match check s.params addr n true with
  | some c => .error c
  | none => .ok { s with memSys := writeBytes s.params.memorySize (bytesOfValue n v) addr s.memSys }

/-- `Cur(a)`: the coherent byte at an address, with no side effect (R106, R107). -/
def State.peekByte (s : State) (a : Word) : Byte := s.memSys.peekByte a

/-- `Peek32(addr)` (R60): `none` where the word is not backed. -/
def State.peek32 (s : State) (addr : Word) : Option InstrWord :=
  if s.params.memorySize < addr.toNat + 4 then none
  else some (wordOfFourBytes (s.peekByte addr) (s.peekByte (addr + 1)) (s.peekByte (addr + 2))
    (s.peekByte (addr + 3)))

/-! ## Taking a fault (R343)

Nothing is saved and control goes nowhere (R350): `pc`, the registers and memory keep their values.
No instruction returns from a fault (R351): the ways back are `hardReset`, `softReset` and `load` of
Machine/Reset.lean. -/

/-- Fault entry: FAULTED, the cause, a message to the reporting sink, status 3. -/
def State.takeFault (s : State) (c : Fault) : State :=
  { s with runState := .faulted
           faultCause := some c
           lastStatus := some .fault
           reports := s.reports ++ [c] }

/-! ## Instruction shapes -/

/-- The answer of a meaning or a step. -/
abbrev Answer := Host.Outcome State Fault Refusal

/-- A register result, then `pc + 4` (R170, R190, R260, R280). -/
def State.result (s : State) (rd : Reg) (v : Word) : Answer := .next (s.writeReg rd v).advance

/-- Register-register form (R170, R280): both sources are read before `rd` is written. -/
def State.aluReg (s : State) (f : Word → Word → Word) (rd rs1 rs2 : Reg) : Answer :=
  s.result rd (f (s.readReg rs1) (s.readReg rs2))

/-- Register-immediate form with a sign-extended 12-bit immediate (R190). -/
def State.aluImm (s : State) (f : Word → Word → Word) (rd rs1 : Reg) (imm : BitVec 12) : Answer :=
  s.result rd (f (s.readReg rs1) (imm12 imm))

/-- Shift-immediate form (R190, R146). -/
def State.shiftImm (s : State) (f : Word → Nat → Word) (rd rs1 : Reg) (shamt : BitVec 6) : Answer :=
  s.result rd (f (s.readReg rs1) shamt.toNat)

/-- A load of `n` bytes, extended by `ext` (R210). A fault is taken with nothing written. -/
def State.loadFrom (s : State) (n : Nat) (ext : Word → Word) (rd rs1 : Reg) (imm : BitVec 12) :
    Answer :=
  match s.memRead (effectiveAddr (s.readReg rs1) imm) n with
  | .error c => .next (s.takeFault c)
  | .ok (v, t) => t.result rd (ext v)

/-- A store of `n` bytes (R225). A fault is taken with no byte written. -/
def State.storeTo (s : State) (n : Nat) (rs1 : Reg) (imm : BitVec 12) (rs2 : Reg) : Answer :=
  match s.memWrite (effectiveAddr (s.readReg rs1) imm) n (s.readReg rs2) with
  | .error c => .next (s.takeFault c)
  | .ok t => .next t.advance

/-- A conditional branch (R235): the offset is added to the address of the branch itself. -/
def State.branchIf (s : State) (cond : Word → Word → Bool) (rs1 rs2 : Reg) (offset : BitVec 13) :
    Answer :=
  if cond (s.readReg rs1) (s.readReg rs2) then .next (s.jumpTo (s.pc + immB offset))
  else .next s.advance

end Sys2Proof.Machine
end

