-- ==== Sys2Proof/Machine/Alu.lean ====
section
/-! DEFINITION. Register-register ALU instructions (40_alu_register.md). -/

namespace Sys2Proof.Machine

/-- `add` (R171). -/
def execAdd (rd rs1 rs2 : Reg) (s : State) : Answer :=
  s.aluReg (fun x y => x + y) rd rs1 rs2

/-- `sub` (R172). -/
def execSub (rd rs1 rs2 : Reg) (s : State) : Answer :=
  s.aluReg (fun x y => x - y) rd rs1 rs2

/-- `sll` (R173). -/
def execSll (rd rs1 rs2 : Reg) (s : State) : Answer :=
  s.aluReg (fun x y => shiftLeft x (shiftAmount y)) rd rs1 rs2

/-- `slt` (R174). -/
def execSlt (rd rs1 rs2 : Reg) (s : State) : Answer :=
  s.aluReg setLessSigned rd rs1 rs2

/-- `sltu` (R175). -/
def execSltu (rd rs1 rs2 : Reg) (s : State) : Answer :=
  s.aluReg setLessUnsigned rd rs1 rs2

/-- `xor` (R176). -/
def execXor (rd rs1 rs2 : Reg) (s : State) : Answer :=
  s.aluReg (fun x y => x ^^^ y) rd rs1 rs2

/-- `srl` (R177). -/
def execSrl (rd rs1 rs2 : Reg) (s : State) : Answer :=
  s.aluReg (fun x y => shiftRightLogical x (shiftAmount y)) rd rs1 rs2

/-- `sra` (R178). -/
def execSra (rd rs1 rs2 : Reg) (s : State) : Answer :=
  s.aluReg (fun x y => shiftRightArith x (shiftAmount y)) rd rs1 rs2

/-- `or` (R179). -/
def execOr (rd rs1 rs2 : Reg) (s : State) : Answer :=
  s.aluReg (fun x y => x ||| y) rd rs1 rs2

/-- `and` (R180). -/
def execAnd (rd rs1 rs2 : Reg) (s : State) : Answer :=
  s.aluReg (fun x y => x &&& y) rd rs1 rs2

end Sys2Proof.Machine
end

