-- ==== Sys2Proof/Machine/AluImm.lean ====
section
/-! DEFINITION. Register-immediate ALU instructions (41_alu_immediate.md). -/

namespace Sys2Proof.Machine

/-- `addi` (R191). -/
def execAddi (rd rs1 : Reg) (imm : BitVec 12) (s : State) : Answer :=
  s.aluImm (fun x y => x + y) rd rs1 imm

/-- `slti` (R192). -/
def execSlti (rd rs1 : Reg) (imm : BitVec 12) (s : State) : Answer :=
  s.aluImm setLessSigned rd rs1 imm

/-- `sltiu` (R193: the immediate is sign-extended, then compared as unsigned). -/
def execSltiu (rd rs1 : Reg) (imm : BitVec 12) (s : State) : Answer :=
  s.aluImm setLessUnsigned rd rs1 imm

/-- `xori` (R194). -/
def execXori (rd rs1 : Reg) (imm : BitVec 12) (s : State) : Answer :=
  s.aluImm (fun x y => x ^^^ y) rd rs1 imm

/-- `ori` (R195). -/
def execOri (rd rs1 : Reg) (imm : BitVec 12) (s : State) : Answer :=
  s.aluImm (fun x y => x ||| y) rd rs1 imm

/-- `andi` (R196). -/
def execAndi (rd rs1 : Reg) (imm : BitVec 12) (s : State) : Answer :=
  s.aluImm (fun x y => x &&& y) rd rs1 imm

/-- `slli` (R197). -/
def execSlli (rd rs1 : Reg) (shamt : BitVec 6) (s : State) : Answer :=
  s.shiftImm shiftLeft rd rs1 shamt

/-- `srli` (R198). -/
def execSrli (rd rs1 : Reg) (shamt : BitVec 6) (s : State) : Answer :=
  s.shiftImm shiftRightLogical rd rs1 shamt

/-- `srai` (R199). -/
def execSrai (rd rs1 : Reg) (shamt : BitVec 6) (s : State) : Answer :=
  s.shiftImm shiftRightArith rd rs1 shamt

end Sys2Proof.Machine
end

