-- ==== Sys2Proof/Machine/Branches.lean ====
section
/-! DEFINITION. Conditional branches (44_branches.md). -/

namespace Sys2Proof.Machine

/-- `beq` (R236). -/
def execBeq (rs1 rs2 : Reg) (offset : BitVec 13) (s : State) : Answer :=
  s.branchIf condEq rs1 rs2 offset

/-- `bne` (R237). -/
def execBne (rs1 rs2 : Reg) (offset : BitVec 13) (s : State) : Answer :=
  s.branchIf condNe rs1 rs2 offset

/-- `blt` (R238). -/
def execBlt (rs1 rs2 : Reg) (offset : BitVec 13) (s : State) : Answer :=
  s.branchIf condLt rs1 rs2 offset

/-- `bge` (R239). -/
def execBge (rs1 rs2 : Reg) (offset : BitVec 13) (s : State) : Answer :=
  s.branchIf condGe rs1 rs2 offset

/-- `bltu` (R240). -/
def execBltu (rs1 rs2 : Reg) (offset : BitVec 13) (s : State) : Answer :=
  s.branchIf condLtu rs1 rs2 offset

/-- `bgeu` (R241). -/
def execBgeu (rs1 rs2 : Reg) (offset : BitVec 13) (s : State) : Answer :=
  s.branchIf condGeu rs1 rs2 offset

end Sys2Proof.Machine
end

