-- ==== Sys2Proof/Machine/Jumps.lean ====
section
/-! DEFINITION. Unconditional jumps (45_jumps.md): the target is computed from the old registers, then the link
is written, then the call stack is updated, then `pc` is set (R250). -/

namespace Sys2Proof.Machine

/-- `jal` (R251): pushes a frame whatever `rd` is. -/
def execJal (rd : Reg) (offset : BitVec 21) (s : State) : Answer :=
  .next (((s.writeReg rd (s.pc + 4)).callStackPush (s.pc + 4)).jumpTo (s.pc + immJ offset))

/-- The target of `jalr`: the sum with bit 0 cleared (R252, decision D23). -/
def jalrTarget (base : Word) (imm : BitVec 12) : Word := effectiveAddr base imm &&& ~~~1#64

/-- `jalr` (R252): pops a frame whatever `rd` is. -/
def execJalr (rd rs1 : Reg) (imm : BitVec 12) (s : State) : Answer :=
  .next ((s.writeReg rd (s.pc + 4)).callStackPop.jumpTo (jalrTarget (s.readReg rs1) imm))

end Sys2Proof.Machine
end

