-- ==== Sys2Proof/Machine/Loads.lean ====
section
/-! DEFINITION. Load instructions (42_loads.md). -/

namespace Sys2Proof.Machine

/-- `lb` (R211). -/
def execLb (rd rs1 : Reg) (imm : BitVec 12) (s : State) : Answer :=
  s.loadFrom 1 (sext 8) rd rs1 imm

/-- `lh` (R212). -/
def execLh (rd rs1 : Reg) (imm : BitVec 12) (s : State) : Answer :=
  s.loadFrom 2 (sext 16) rd rs1 imm

/-- `lw` (R213). -/
def execLw (rd rs1 : Reg) (imm : BitVec 12) (s : State) : Answer :=
  s.loadFrom 4 (sext 32) rd rs1 imm

/-- `ld` (R214). -/
def execLd (rd rs1 : Reg) (imm : BitVec 12) (s : State) : Answer :=
  s.loadFrom 8 (zext 64) rd rs1 imm

/-- `lbu` (R215). -/
def execLbu (rd rs1 : Reg) (imm : BitVec 12) (s : State) : Answer :=
  s.loadFrom 1 (zext 8) rd rs1 imm

/-- `lhu` (R216). -/
def execLhu (rd rs1 : Reg) (imm : BitVec 12) (s : State) : Answer :=
  s.loadFrom 2 (zext 16) rd rs1 imm

/-- `lwu` (R217). -/
def execLwu (rd rs1 : Reg) (imm : BitVec 12) (s : State) : Answer :=
  s.loadFrom 4 (zext 32) rd rs1 imm

end Sys2Proof.Machine
end

