-- ==== Sys2Proof/Machine/MulDiv.lean ====
section
/-! DEFINITION. Multiply, divide and remainder (48_muldiv.md). -/

namespace Sys2Proof.Machine

/-- `mul` (R281). -/
def execMul (rd rs1 rs2 : Reg) (s : State) : Answer := s.aluReg mulLow rd rs1 rs2

/-- `mulh` (R282). -/
def execMulh (rd rs1 rs2 : Reg) (s : State) : Answer := s.aluReg mulHighSigned rd rs1 rs2

/-- `mulhsu` (R283: `rs1` signed, `rs2` unsigned). -/
def execMulhsu (rd rs1 rs2 : Reg) (s : State) : Answer := s.aluReg mulHighSignedUnsigned rd rs1 rs2

/-- `mulhu` (R284). -/
def execMulhu (rd rs1 rs2 : Reg) (s : State) : Answer := s.aluReg mulHighUnsigned rd rs1 rs2

/-- `div` (R285). -/
def execDiv (rd rs1 rs2 : Reg) (s : State) : Answer := s.aluReg divSigned rd rs1 rs2

/-- `divu` (R286). -/
def execDivu (rd rs1 rs2 : Reg) (s : State) : Answer := s.aluReg divUnsigned rd rs1 rs2

/-- `rem` (R287). -/
def execRem (rd rs1 rs2 : Reg) (s : State) : Answer := s.aluReg remSigned rd rs1 rs2

/-- `remu` (R288). -/
def execRemu (rd rs1 rs2 : Reg) (s : State) : Answer := s.aluReg remUnsigned rd rs1 rs2

end Sys2Proof.Machine
end

