-- ==== Sys2Proof/Machine/Stores.lean ====
section
/-! DEFINITION. Store instructions (43_stores.md). -/

namespace Sys2Proof.Machine

/-- `sb` (R226). -/
def execSb (rs1 : Reg) (imm : BitVec 12) (rs2 : Reg) (s : State) : Answer :=
  s.storeTo 1 rs1 imm rs2

/-- `sh` (R227). -/
def execSh (rs1 : Reg) (imm : BitVec 12) (rs2 : Reg) (s : State) : Answer :=
  s.storeTo 2 rs1 imm rs2

/-- `sw` (R228). -/
def execSw (rs1 : Reg) (imm : BitVec 12) (rs2 : Reg) (s : State) : Answer :=
  s.storeTo 4 rs1 imm rs2

/-- `sd` (R229). -/
def execSd (rs1 : Reg) (imm : BitVec 12) (rs2 : Reg) (s : State) : Answer :=
  s.storeTo 8 rs1 imm rs2

end Sys2Proof.Machine
end

