-- ==== Sys2Proof/Machine/System.lean ====
section
/-! DEFINITION. System instructions and the sentinel word (47_system.md). -/

namespace Sys2Proof.Machine

/-- `ecall` (R266): advances the pc, nothing else. -/
def execEcall (s : State) : Answer := .next s.advance

/-- `ebreak` as the current instruction (R267): advances the pc, nothing else. Its halt belongs to the
look-ahead of the step before it. -/
def execEbreak (s : State) : Answer := .next s.advance

/-- The sentinel word (R270, R304): the call stack is emptied, the core is HALTED, the step returns 1;
`pc`, registers, `wb` and memory keep their values. -/
def execSentinel (s : State) : Answer :=
  .next { s.callStackClear with runState := .halted, lastStatus := some .ended }

end Sys2Proof.Machine
end

