-- ==== Sys2Proof/Machine/Upper.lean ====
section
/-! DEFINITION. Upper-immediate instructions (46_upper_immediate.md). -/

namespace Sys2Proof.Machine

/-- `lui` (R261). -/
def execLui (rd : Reg) (imm : BitVec 20) (s : State) : Answer := s.result rd (immU imm)

/-- `auipc` (R262): the address of the auipc itself. -/
def execAuipc (rd : Reg) (imm : BitVec 20) (s : State) : Answer := s.result rd (s.pc + immU imm)

end Sys2Proof.Machine
end

