-- ==== Sys2Proof/Machine/Cycle.lean ====
section
/-! DEFINITION. One step of the driver (50_step_and_run.md section 2): fetch guard, fetch, sentinel,
execution, commit and look-ahead. -/

namespace Sys2Proof.Machine

/-- The fetch: `MemRead(pc, 4)` (R59, R303). -/
def State.fetch (s : State) : Except Fault (InstrWord × State) :=
  match s.memRead s.pc 4 with
  | .error c => .error c
  | .ok (v, t) => .ok (v.setWidth 32, t)

/-- What the step does before it executes a word other than the sentinel (R305): no write-back yet,
and the tracker's top frame shows the line of this instruction. -/
def State.beginInstr (s : State) : State := { s.callStackRefresh s.pc with wb := none }

/-- Whether the new `pc` is a breakpoint or holds ebreak (R307). `pc >> 2` is the index of the word. -/
def State.haltsAhead (s : State) : Bool :=
  s.breakpoints.contains (s.pc >>> 2).toNat || s.peek32 s.pc == some 0x00100073#32

/-- The look-ahead at the new `pc` and the status it gives (R307, R308). -/
def State.lookAhead (s : State) : State :=
  if s.haltsAhead then { s with runState := .halted, lastStatus := some .halted }
  else { s with runState := .running, lastStatus := some .normal }

/-- After execution: a step that faulted ends there (R306), any other goes on to the look-ahead (R307). -/
def finishStep (r : Answer) : Answer :=
  match r with
  | .next t => .next (if t.runState = .faulted then t else t.lookAhead)
  | .fault c => .fault c
  | .refused q => .refused q

/-- The executed instruction and what the step adds around it. The sentinel executes nothing and has
no look-ahead (R304). -/
def runInstr (i : Instr) (s : State) : Answer :=
  if i = .sentinel then exec i s else finishStep (exec i s.beginInstr)

/-- An unhandled word: a silent no-op (R272), or refused under `STRICT_DECODE`
(93_implementation_defined.md U1). -/
def runUnhandled (w : InstrWord) (s : State) : Answer :=
  if s.params.strictDecode then .refused (.unhandledWord w)
  else finishStep (.next s.beginInstr.advance)

/-- The fetched word classified and run, in the order of R148. -/
def runWord (w : InstrWord) (s : State) : Answer :=
  match decodeWord w with
  | .ok i => runInstr i s
  | .error _ => runUnhandled w s

/-- The whole step (R309). -/
def cycle (s : State) : Answer :=
  if s.runState = .faulted then .next { s with lastStatus := some .fault }
  else if s.params.dataBase ≤ s.pc.toNat then .next (s.takeFault .pcData)
  else
    match s.fetch with
    | .error c => .next (s.takeFault c)
    | .ok (w, t) => runWord w t

/-- Puts a byte where the next read of `a` finds it: in the store, and in the valid line that holds
`a` if there is one. Not an operation of the core; `withFetchWord` places a program's word with it. -/
def MemSystem.plantByte (x : MemSystem) (a : Word) (b : Byte) : MemSystem :=
  { x with
    store := x.store.write a.toNat b
    cache := match x.cache with
      | none => none
      | some c =>
        match hitWay (c.ways (c.cfg.index a)) (c.cfg.tag a) with
        | none => some c
        | some w =>
          let L := c.line (c.cfg.index a) w
          some (c.setLine (c.cfg.index a) w { L with data := L.data.set (c.cfg.offset a) b }) }

/-- Bytes put at consecutive addresses. -/
def MemSystem.plantBytes : List Byte → Word → MemSystem → MemSystem
  | [], _, x => x
  | b :: bs, a, x => MemSystem.plantBytes bs (a + 1) (x.plantByte a b)

end Sys2Proof.Machine
end

