-- ==== Sys2Proof/Machine/Step.lean ====
section
/-! DEFINITION. The step relation (R309) and the placing of one instruction where it fetches. -/

namespace Sys2Proof.Machine

/-- One step of the machine: `step()` of R309. Its status is in `lastStatus`. -/
def step (s : State) : Host.Outcome State Fault Refusal := cycle s

/-- `s` with an instruction's word at `pc`, little-endian (R52), where the fetch of the next step reads
it. It stands for the load of a program from outside the machine (log entry 2). A FAULTED core and
one whose `pc` is in the data region fetch nothing, whatever memory holds (R301, R302). -/
def State.withFetchWord (s : State) (nbits w : Nat) : State :=
  { s with memSys := s.memSys.plantBytes (bytesOfWord (tableWord nbits w)) s.pc }

end Sys2Proof.Machine
end

