-- ==== Sys2Proof/Machine/Reset.lean ====
section
/-! DEFINITION. Load, hard reset and soft reset (50_step_and_run.md section 4, 70_reset_and_hazards.md):
the initialising events, and the only ways out of FAULTED (R351). -/

namespace Sys2Proof.Machine

/-- An image applied to memory (R321): every byte 0, then the words from address 0 on, little-endian,
then the data bytes from `DATA_BASE` on. -/
def applyImage (p : Params) (image : Image) : Memory :=
  Memory.writeBlock p.memorySize
    (Memory.writeBlock p.memorySize [] 0 (image.words.flatMap bytesOfWord)) p.dataBase image.data

/-- Whether an image fits (R320, decision D35). -/
def Image.fits (p : Params) (image : Image) : Bool :=
  decide (4 * image.words.length ≤ p.dataBase) &&
    decide (p.dataBase + image.data.length ≤ p.memorySize)

/-- What load and both resets have in common (R45, R370): registers and `pc` 0, RUNNING, no fault
cause, no write-back record, call stack empty, the stored image applied over zeros. The arguments
are the breakpoint set and the cache after the event. The draws taken, the trace and the reports are
the outside's (log entry 3) and go on. -/
def State.restart (s : State) (breakpoints : List Nat) (cache : Option Cache) : State :=
  { s with
    regs := Vector.replicate 32 0
    pc := 0
    runState := .running
    faultCause := none
    wb := none
    breakpoints := breakpoints
    memSys := { s.memSys with store := applyImage s.params s.image, cache := cache }
    callStack := []
    lastStatus := none }

/-- `reset(hard)` (R372): breakpoints emptied, the cache discarded with no flush. -/
def State.hardReset (s : State) : State := s.restart [] none

/-- `reset(soft)` (R374): breakpoints and cache configuration kept, cache contents and statistics
cleared with no flush. -/
def State.softReset (s : State) : State :=
  s.restart s.breakpoints (s.memSys.cache.map Cache.softReset)

/-- `load` (R320): `none` if the image does not fit, and then nothing changes. A successful load
stores the image and both tables, empties the breakpoints and disables the cache. -/
def State.load (s : State) (image : Image) (lines : Option (List Nat))
    (labels : Option (List Label)) : Option State :=
  if image.fits s.params then
    some (State.restart
      { s with image := image, lineTable := lines, labels := dedupLabels (labels.getD []) } [] none)
  else none

end Sys2Proof.Machine
end

