-- ==== Sys2Proof/Machine/Driver.lean ====
section
/-! DEFINITION. The run loops and the host's command interface (50_step_and_run.md sections 1, 3 and 4),
the breakpoint set, the viewers' handles (R47), and the text of trace and dump (R104, R105). Commands
take effect between steps (R380). -/

namespace Sys2Proof.Machine

/-! ## Breakpoints (R33, R323): a set held strictly rising -/

/-- `bp_set(k)` on the set. -/
def insertIndex (k : Nat) : List Nat → List Nat
  | [] => [k]
  | j :: js => if k < j then k :: j :: js else if k = j then j :: js else j :: insertIndex k js

/-- `bp_clear(k)` on the set. -/
def removeIndex (k : Nat) (js : List Nat) : List Nat := js.filter (fun j => j != k)

def State.bpSet (s : State) (k : Nat) : State := { s with breakpoints := insertIndex k s.breakpoints }
def State.bpClear (s : State) (k : Nat) : State :=
  { s with breakpoints := removeIndex k s.breakpoints }

/-! ## Cache commands (R81, R101, R109) -/

def State.cacheInvalidate (s : State) : State :=
  { s with memSys := s.memSys.invalidate s.params.memorySize }

def State.cacheDisable (s : State) : State :=
  { s with memSys := s.memSys.disable s.params.memorySize }

/-- `cache_enable` and `cache_reconfigure`; `false` is ConfigError. -/
def State.cacheEnable (s : State) (r : CacheRequest) : Bool × State :=
  let e := s.memSys.enable s.params.memorySize r
  (e.1, { s with memSys := e.2 })

/-! ## Text of the trace and the dump (R104, R105, decision D17) -/

/-- Lower-case hex, no leading zeros. -/
def hexText (n : Nat) : String := "0x" ++ String.ofList (Nat.toDigits 16 n)

def dirtyText (d : Bool) : String := if d then "Dirty" else "Clean"

/-- One line of the trace (R104). -/
def TraceRecord.text (r : TraceRecord) : String :=
  (match r.dir with
    | .read => "R"
    | .write => "W") ++ ": Address: " ++ hexText r.address.toNat ++ ", Set: " ++ hexText r.set ++
    ", " ++ (if r.hit then "Hit" else "Miss") ++ ", Tag: " ++ hexText r.tag.toNat ++ ", " ++
    dirtyText r.dirty

/-- The valid lines in ascending set and then way order: set, tag and dirty state (R105). -/
def dumpEntries : Nat → List (List Line) → List (Nat × Word × Bool)
  | _, [] => []
  | s, ways :: rest =>
    (ways.filter (fun L => L.valid)).map (fun L => (s, L.tag, L.dirty)) ++ dumpEntries (s + 1) rest

/-- The cache dump (R105). -/
def Cache.dump (c : Cache) : List String :=
  (dumpEntries 0 c.sets).map
    (fun e => "Set: " ++ hexText e.1 ++ ", Tag: " ++ hexText e.2.1.toNat ++ ", " ++ dirtyText e.2.2)

/-! ## The run loops (R311 to R315) -/

/-- One answer of the poll input. -/
inductive Poll where
  | proceed
  | stop
  deriving DecidableEq, Repr

/-- `run` and `run_to_end` (R311, R312; one definition serves both, the pacing having no effect). The
poll answers are the input, one for each iteration. The status is the command's; `none` says that the
answers ran out before the loop ended, which is this model's fuel (R314). -/
def runLoop : List Poll → State → Host.Outcome (State × Option Status) Fault Refusal
  | [], s => .next (s, none)
  | .stop :: _, s => .next (s, some .normal)
  | .proceed :: polls, s =>
    match step s with
    | .next t => if t.lastStatus = some .normal then runLoop polls t else .next (t, t.lastStatus)
    | .fault c => .fault c
    | .refused q => .refused q

/-! ## The command interface (R300) -/

inductive ResetKind where
  | hard
  | soft
  deriving DecidableEq, Repr

/-- The commands of R300, one at a time, and the read handles of R47. -/
inductive Command where
  | load (image : Image) (lines : Option (List Nat)) (labels : Option (List Label))
  | step
  | run (polls : List Poll)
  | runToEnd (polls : List Poll)
  | reset (kind : ResetKind)
  | bpSet (k : Nat)
  | bpClear (k : Nat)
  | bpGet
  | cacheEnable (r : CacheRequest)
  | cacheReconfigure (r : CacheRequest)
  | cacheDisable
  | cacheInvalidate
  | getRegister (r : Reg)
  | getPc
  | getMemory (a : Nat)
  | getStats
  | getCallStack
  | getRunState
  | getFaultCause
  | getWb
  | getDump
  | getMemoryDump
  deriving DecidableEq, Repr

/-- What a command answers. -/
inductive Reply where
  | done
  | loadRefused
  | configError
  /-- The status of `step`, `run` or `run_to_end`; `none` for a run whose poll answers ran out. -/
  | status (code : Option Status)
  | breakpoints (ks : List Nat)
  | word (v : Word)
  /-- A byte of `M` itself, not of the cached view (R47, R108); `none` past `MEMORY_SIZE`. -/
  | byte (b : Option Byte)
  /-- `none` while the cache is disabled. -/
  | stats (t : Option CacheStats)
  | callStack (fs : List Frame)
  | runState (r : RunState)
  | faultCause (c : Option Fault)
  | wb (r : Option Reg)
  | dump (lines : List String)
  /-- Every byte of `M` itself, not of the cached view (R391). -/
  | memory (bytes : List Byte)
  deriving DecidableEq, Repr

/-- The answer of a command of the run family. -/
def replyStatus (r : Host.Outcome (State × Option Status) Fault Refusal) :
    Host.Outcome (State × Reply) Fault Refusal :=
  match r with
  | .next (t, st) => .next (t, .status st)
  | .fault c => .fault c
  | .refused q => .refused q

/-- The answer of an enable command. DESIGN CHOICE (log entry 16): ConfigError is answered without a text or a
reason, although R81 and R110 call it a descriptive error; the spec gives no wording. -/
def replyEnable (e : Bool × State) : Host.Outcome (State × Reply) Fault Refusal :=
  .next (e.2, if e.1 then .done else .configError)

/-- The answer of a breakpoint command: the set as the command leaves it (R300). -/
def replyBreakpoints (s : State) : Host.Outcome (State × Reply) Fault Refusal :=
  .next (s, .breakpoints s.breakpoints)

/-- One command, run to completion (R300). Both dumps are served, each by a command of its own: `getDump` answers
the cache dump (R105), `getMemoryDump` all of `M` (R391). DESIGN CHOICE (log entry 15): R300 lists neither, and the
dump of `M` is its bytes in ascending order. -/
def issue (c : Command) (s : State) : Host.Outcome (State × Reply) Fault Refusal :=
  match c with
  | .load image lines labels =>
    match s.load image lines labels with
    | some t => .next (t, .done)
    | none => .next (s, .loadRefused)
  | .step =>
    match step s with
    | .next t => .next (t, .status t.lastStatus)
    | .fault f => .fault f
    | .refused q => .refused q
  | .run polls => replyStatus (runLoop polls s)
  | .runToEnd polls => replyStatus (runLoop polls s)
  | .reset .hard => .next (s.hardReset, .done)
  | .reset .soft => .next (s.softReset, .done)
  | .bpSet k => replyBreakpoints (s.bpSet k)
  | .bpClear k => replyBreakpoints (s.bpClear k)
  | .bpGet => replyBreakpoints s
  | .cacheEnable r => replyEnable (s.cacheEnable r)
  | .cacheReconfigure r => replyEnable (s.cacheEnable r)
  | .cacheDisable => .next (s.cacheDisable, .done)
  | .cacheInvalidate => .next (s.cacheInvalidate, .done)
  | .getRegister r => .next (s, .word (s.readReg r))
  | .getPc => .next (s, .word s.pc)
  | .getMemory a =>
    .next (s, .byte (if a < s.params.memorySize then some (s.memSys.store.read a) else none))
  | .getStats => .next (s, .stats (s.memSys.cache.map Cache.stats))
  | .getCallStack => .next (s, .callStack s.callStack)
  | .getRunState => .next (s, .runState s.runState)
  | .getFaultCause => .next (s, .faultCause s.faultCause)
  | .getWb => .next (s, .wb s.wb)
  | .getDump => .next (s, .dump (match s.memSys.cache with
    | some c => c.dump
    | none => []))
  | .getMemoryDump => .next (s, .memory (s.memSys.store.dump s.params.memorySize))

end Sys2Proof.Machine
end

