-- ==== Sys2Proof/Safety.lean ====
section
/-! DEFINITION. What counts as a safe run, and the invariants claims are stated in: the canonical
memory, the coherence of the Cache Model, the statistics, and the whole-state invariant. -/

namespace Sys2Proof.Machine

/-- A valid line of set `s` beside the store (R36, R94, R97): its tag has no index or offset bit, a
clean line equals its block in `M` (R103), and a line is dirty only under write-back. -/
structure Line.Agrees (size : Nat) (g : CacheConfig) (m : Memory) (s : Nat) (L : Line) : Prop where
  tag_clear : g.tag L.tag = L.tag
  clean : L.dirty = false → L.data = m.readBlock size (g.blockAddr s L.tag) g.blockSize
  dirty : L.dirty = true → g.writePolicy = .writeBack

/-- The coherence of an enabled cache (R82, R86, R107): a valid geometry, the line records it asks
for, no two valid ways of a set with one tag, and every valid line agreeing with the store. -/
structure Cache.Coherent (size : Nat) (m : Memory) (c : Cache) : Prop where
  block_pow2 : isPow2 c.cfg.blockSize = true
  lines_pow2 : isPow2 c.cfg.nLines = true
  ways_pow2 : isPow2 c.cfg.associativity = true
  set_count : c.sets.length = c.cfg.nLines
  way_count : ∀ s, s < c.cfg.nLines → (c.ways s).length = c.cfg.associativity
  data_length : ∀ s L, L ∈ c.ways s → L.data.length = c.cfg.blockSize
  one_way : ∀ s v w, v < (c.ways s).length → w < (c.ways s).length →
    (c.line s v).valid = true → (c.line s w).valid = true → (c.line s v).tag = (c.line s w).tag → v = w
  agrees : ∀ s L, L ∈ c.ways s → L.valid = true → L.Agrees size c.cfg m s

/-- The statistics (R100): `access_count = hit_count + miss_count`, and `hit_rate` exact (the source's
P4). -/
def Cache.StatsOk (c : Cache) : Prop :=
  c.stats.accessCount = c.stats.hitCount + c.stats.missCount ∧ c.stats.hitRate = c.stats.exactRate

/-- The Memory Store in canonical form and backed, and the Cache Model coherent with it. -/
structure MemSystem.Ok (size : Nat) (x : MemSystem) : Prop where
  store_wf : x.store.wf = true
  store_within : x.store.within size = true
  coherent : ∀ c, x.cache = some c → c.Coherent size x.store
  stats : ∀ c, x.cache = some c → c.StatsOk

/-- The run state a step leaves with its status (R308). -/
def Status.runState : Status → RunState
  | .normal => .running
  | .ended => .halted
  | .halted => .halted
  | .fault => .faulted

/-- The invariant of the whole state. -/
structure State.Inv (s : State) : Prop where
  /-- The parameters meet R6. -/
  params : s.params.Valid
  mem : s.memSys.Ok s.params.memorySize
  /-- The hardwired register holds 0 (R20). -/
  zero : s.regs[0] = 0
  /-- `pc` is always even (R27). -/
  pc_even : s.pc.toNat % 2 = 0
  /-- A fault cause is held exactly while FAULTED (R32). -/
  cause : s.faultCause.isSome = true ↔ s.runState = .faulted
  /-- The run state is the one the last status gave; RUNNING before the first (R31, R308). -/
  status : s.runState = (s.lastStatus.map Status.runState).getD .running
  /-- The breakpoint set is in canonical form (R33). -/
  breakpoints : s.breakpoints.Pairwise (· < ·)
  /-- The label table is deduplicated (R331). -/
  labels : s.labels.Pairwise (fun k l => k.start ≠ l.start)
  /-- The stored image fits its regions (R41, R320). -/
  image : s.image.fits s.params = true

/-- A safe state: no fault has stopped the core. -/
def State.Safe (s : State) : Prop := s.runState ≠ .faulted

/-- The three ways a run ends (R315): normal at a sentinel, a pause that a further run continues, or
a fault. -/
inductive RunEnd where
  | normal
  | pause
  | abnormal
  deriving DecidableEq, Repr

/-- How a returned status ends a run (R315). -/
def Status.runEnd : Status → RunEnd
  | .normal => .pause
  | .ended => .normal
  | .halted => .pause
  | .fault => .abnormal

/-- The numeric status code (R310). -/
def Status.code : Status → Nat
  | .normal => 0
  | .ended => 1
  | .halted => 2
  | .fault => 3

/-- The numeric fault code (R340, decision D39). -/
def Fault.code : Fault → Nat
  | .pcData => 1
  | .oob => 2
  | .textWrite => 3

end Sys2Proof.Machine
end

