-- ==== Sys2Proof/Certificates/Slice0/Obligations.lean ====
section
/-! DEFINITION. The statements for the provers. The first part fixes their vocabulary, in arithmetic on
naturals and integers where the model computes with bit vectors; the second part is the obligations. Every
numeric encoding in them is the one its rule gives, which the spec marks as its decision D41. -/

namespace Sys2Proof.Claims

open Sys2Proof.Machine

/-! ## Words and their fields, by division (R10, R132) -/

def opcodeNat (w : InstrWord) : Nat := w.toNat % 2 ^ 7
def funct3Nat (w : InstrWord) : Nat := w.toNat / 2 ^ 12 % 2 ^ 3
def funct6Nat (w : InstrWord) : Nat := w.toNat / 2 ^ 26
def funct7Nat (w : InstrWord) : Nat := w.toNat / 2 ^ 25

/-- The register index in the five bits of `w` from bit `k` on. -/
def regAt (w : InstrWord) (k : Nat) : Reg := Fin.ofNat 32 (w.toNat / 2 ^ k)

/-- Every word that agrees with `pattern` under `mask` decodes to the instruction `mk` builds from it. -/
def Selected (pattern mask : InstrWord) (mk : InstrWord → Instr) : Prop :=
  ∀ w : InstrWord, w &&& mask = pattern → decodeWord w = .ok (mk w)

/-- R format (R133). -/
def EncodedR (pattern : InstrWord) (mk : Reg → Reg → Reg → Instr) : Prop :=
  Selected pattern 0xFE00707F#32 fun w => mk (regAt w 7) (regAt w 15) (regAt w 20)

/-- I format (R134), under the mask of its row. -/
def EncodedI (pattern : InstrWord) (mk : Reg → Reg → BitVec 12 → Instr) : Prop :=
  Selected pattern 0x0000707F#32 fun w =>
    mk (regAt w 7) (regAt w 15) (BitVec.ofNat 12 (w.toNat / 2 ^ 20))

/-- I-shift format (R135). -/
def EncodedShift (pattern : InstrWord) (mk : Reg → Reg → BitVec 6 → Instr) : Prop :=
  Selected pattern 0xFC00707F#32 fun w =>
    mk (regAt w 7) (regAt w 15) (BitVec.ofNat 6 (w.toNat / 2 ^ 20))

/-- S format (R136, R142). -/
def EncodedS (pattern : InstrWord) (mk : Reg → BitVec 12 → Reg → Instr) : Prop :=
  Selected pattern 0x0000707F#32 fun w =>
    mk (regAt w 15) (BitVec.ofNat 12 (w.toNat / 2 ^ 25 * 2 ^ 5 + w.toNat / 2 ^ 7 % 2 ^ 5)) (regAt w 20)

/-- B format (R137, R143). -/
def EncodedB (pattern : InstrWord) (mk : Reg → Reg → BitVec 13 → Instr) : Prop :=
  Selected pattern 0x0000707F#32 fun w =>
    mk (regAt w 15) (regAt w 20) (BitVec.ofNat 13 (w.toNat / 2 ^ 31 * 2 ^ 12 + w.toNat / 2 ^ 7 % 2 * 2 ^ 11 +
      w.toNat / 2 ^ 25 % 2 ^ 6 * 2 ^ 5 + w.toNat / 2 ^ 8 % 2 ^ 4 * 2))

/-- U format (R138, R144). -/
def EncodedU (pattern : InstrWord) (mk : Reg → BitVec 20 → Instr) : Prop :=
  Selected pattern 0x0000007F#32 fun w => mk (regAt w 7) (BitVec.ofNat 20 (w.toNat / 2 ^ 12))

/-- J format (R139, R145). -/
def EncodedJ (pattern : InstrWord) (mk : Reg → BitVec 21 → Instr) : Prop :=
  Selected pattern 0x0000007F#32 fun w =>
    mk (regAt w 7) (BitVec.ofNat 21 (w.toNat / 2 ^ 31 * 2 ^ 20 + w.toNat / 2 ^ 12 % 2 ^ 8 * 2 ^ 12 +
      w.toNat / 2 ^ 20 % 2 * 2 ^ 11 + w.toNat / 2 ^ 21 % 2 ^ 10 * 2))

/-! ## Values -/

/-- `u64` of a natural number and of an integer (R11). -/
def u64 (n : Nat) : Word := BitVec.ofNat 64 n
def u64i (z : Int) : Word := BitVec.ofInt 64 z

/-- The fall-through address. -/
def nextPc (s : State) : Word := u64 (s.pc.toNat + 4)

/-- The little-endian value of `n` bytes of the coherent view from `a` on (R52, R56). -/
def valueAt (s : State) (a : Word) : Nat → Nat
  | 0 => 0
  | n + 1 => (s.peekByte a).toNat + 256 * valueAt s (a + 1) n

/-- The word at an address, as a fetch reads it. -/
def wordAt (s : State) (a : Word) : InstrWord := BitVec.ofNat 32 (valueAt s a 4)

/-- A value of `n` bytes read as two's complement (R12). -/
def signedBytes (n v : Nat) : Int := Int.bmod v (2 ^ (8 * n))

/-- The address of a load or a store (R210, R225): the model's own operation. -/
def addressOf (s : State) (rs1 : Reg) (imm : BitVec 12) : Word := effectiveAddr (s.readReg rs1) imm

/-! ## Frames -/

/-- Whether there is a cache, and its configuration and trace switch (R35, R39). -/
def cacheSetup (x : MemSystem) : Option (CacheConfig × Bool) := x.cache.map fun c => (c.cfg, c.traceEnable)

/-- What no instruction and no step writes. -/
structure SameSetup (s t : State) : Prop where
  params : t.params = s.params
  breakpoints : t.breakpoints = s.breakpoints
  lineTable : t.lineTable = s.lineTable
  labels : t.labels = s.labels
  image : t.image = s.image
  cache : cacheSetup t.memSys = cacheSetup s.memSys

/-- The control state that an instruction leaves to the step around it. -/
structure SameControl (s t : State) : Prop where
  runState : t.runState = s.runState
  faultCause : t.faultCause = s.faultCause
  lastStatus : t.lastStatus = s.lastStatus
  reports : t.reports = s.reports

/-- Every backed byte of the coherent view is unchanged. -/
def SameBytes (s t : State) : Prop :=
  ∀ a : Word, a.toNat < s.params.memorySize → t.peekByte a = s.peekByte a

/-- One register result, and nothing else but the pc and the write-back record. -/
structure RegisterResult (s t : State) (rd : Reg) (v : Word) : Prop where
  dest : t.readReg rd = if rd = 0 then 0 else v
  others : ∀ r : Reg, r ≠ rd → t.readReg r = s.readReg r
  wb : t.wb = some rd
  pc : t.pc = nextPc s
  memSys : t.memSys = s.memSys
  bytes : ∀ a : Word, t.peekByte a = s.peekByte a
  callStack : t.callStack = s.callStack
  control : SameControl s t
  setup : SameSetup s t

/-- The instruction answers a next state with the register result `v`. -/
def Produces (i : Instr) (s : State) (rd : Reg) (v : Word) : Prop :=
  ∃ t, exec i s = .next t ∧ RegisterResult s t rd v

/-- The same, for a result given bit by bit. -/
def ProducesBits (i : Instr) (s : State) (rd : Reg) (bit : Nat → Bool) : Prop :=
  ∃ v : Word, (∀ k, k < 64 → v.getLsbD k = bit k) ∧ Produces i s rd v

/-- A load's result: as `RegisterResult`, but the read may move blocks of the cache. -/
structure LoadResult (s t : State) (rd : Reg) (v : Word) : Prop where
  dest : t.readReg rd = if rd = 0 then 0 else v
  others : ∀ r : Reg, r ≠ rd → t.readReg r = s.readReg r
  wb : t.wb = some rd
  pc : t.pc = nextPc s
  uncached : s.memSys.cache = none → t.memSys = s.memSys
  bytes : SameBytes s t
  callStack : t.callStack = s.callStack
  control : SameControl s t
  setup : SameSetup s t

/-- A store's result: the `n` low bytes of `v` at `a` on, and nothing else but the pc (and, if there is a
cache, its lines, its statistics and the trace). -/
structure StoreResult (s t : State) (a : Word) (n : Nat) (v : Word) : Prop where
  stored : ∀ x : Word, x.toNat < s.params.memorySize → a.toNat ≤ x.toNat → x.toNat < a.toNat + n →
    t.peekByte x = BitVec.ofNat 8 (v.toNat / 2 ^ (8 * (x.toNat - a.toNat)))
  others : ∀ x : Word, x.toNat < s.params.memorySize → ¬ (a.toNat ≤ x.toNat ∧ x.toNat < a.toNat + n) →
    t.peekByte x = s.peekByte x
  regs : ∀ r : Reg, t.readReg r = s.readReg r
  wb : t.wb = s.wb
  pc : t.pc = nextPc s
  uncached : s.memSys.cache = none → t.memSys = { s.memSys with store := t.memSys.store }
  callStack : t.callStack = s.callStack
  control : SameControl s t
  setup : SameSetup s t

/-- Only the pc moves. -/
structure PcResult (s t : State) (target : Word) : Prop where
  pc : t.pc = target
  regs : ∀ r : Reg, t.readReg r = s.readReg r
  wb : t.wb = s.wb
  memSys : t.memSys = s.memSys
  bytes : ∀ a : Word, t.peekByte a = s.peekByte a
  callStack : t.callStack = s.callStack
  control : SameControl s t
  setup : SameSetup s t

/-- The instruction answers a next state in which only the pc has moved. -/
def Moves (i : Instr) (s : State) (target : Word) : Prop := ∃ t, exec i s = .next t ∧ PcResult s t target

/-- A jump's result: the link in `rd`, the target in the pc, the call stack as given. -/
structure JumpResult (s t : State) (rd : Reg) (target : Word) (stack : List Frame) : Prop where
  link : t.readReg rd = if rd = 0 then 0 else nextPc s
  others : ∀ r : Reg, r ≠ rd → t.readReg r = s.readReg r
  wb : t.wb = some rd
  pc : t.pc = target
  callStack : t.callStack = stack
  memSys : t.memSys = s.memSys
  bytes : ∀ a : Word, t.peekByte a = s.peekByte a
  control : SameControl s t
  setup : SameSetup s t

/-- A fault taken: FAULTED, the cause, the report and the status; nothing else (R343). -/
structure FaultTaken (s t : State) (c : Fault) : Prop where
  runState : t.runState = .faulted
  faultCause : t.faultCause = some c
  lastStatus : t.lastStatus = some .fault
  reports : t.reports = s.reports ++ [c]
  pc : t.pc = s.pc
  regs : ∀ r : Reg, t.readReg r = s.readReg r
  wb : t.wb = s.wb
  memSys : t.memSys = s.memSys
  bytes : ∀ a : Word, t.peekByte a = s.peekByte a
  callStack : t.callStack = s.callStack
  setup : SameSetup s t

def TakesFault (i : Instr) (s : State) (c : Fault) : Prop := ∃ t, exec i s = .next t ∧ FaultTaken s t c

/-- A load of `n` bytes at `a` with result `v`: it completes where the access is in bounds and takes
`F_OOB` everywhere else. -/
def Loads (i : Instr) (s : State) (rd : Reg) (a : Word) (n : Nat) (v : Word) : Prop :=
  (a.toNat + n ≤ s.params.memorySize → ∃ t, exec i s = .next t ∧ LoadResult s t rd v) ∧
  (s.params.memorySize < a.toNat + n → TakesFault i s .oob)

/-- A store of the low `n` bytes of `v` at `a`: in bounds and outside the guarded code region it completes;
otherwise it takes the fault that applies. -/
def Stores (i : Instr) (s : State) (a : Word) (n : Nat) (v : Word) : Prop :=
  (a.toNat + n ≤ s.params.memorySize → (s.params.smcEnable = true ∨ s.params.dataBase ≤ a.toNat) →
    ∃ t, exec i s = .next t ∧ StoreResult s t a n v) ∧
  (s.params.memorySize < a.toNat + n → TakesFault i s .oob) ∧
  (a.toNat + n ≤ s.params.memorySize → s.params.smcEnable = false → a.toNat < s.params.dataBase →
    TakesFault i s .textWrite)

/-- What an unhandled word does after its fetch (R272, R305): nothing but the pc, the write-back record,
the refresh of the tracker's top line and the look-ahead. -/
structure NopResult (s t : State) : Prop where
  regs : ∀ r : Reg, t.readReg r = s.readReg r
  wb : t.wb = none
  pc : t.pc = nextPc s
  memSys : t.memSys = s.memSys
  bytes : ∀ a : Word, t.peekByte a = s.peekByte a
  callStack : t.callStack = refreshTop (s.lineAt s.pc) s.callStack
  faultCause : t.faultCause = s.faultCause
  reports : t.reports = s.reports
  status : (t.lastStatus = some .normal ∧ t.runState = .running) ∨
    (t.lastStatus = some .halted ∧ t.runState = .halted)
  setup : SameSetup s t

/-- A fetched word runs as a no-op while `STRICT_DECODE` is false. -/
def RunsAsNop (w : InstrWord) : Prop :=
  ∀ s : State, s.params.strictDecode = false → s.runState ≠ .faulted →
    ∃ t, runWord w s = .next t ∧ NopResult s t

/-- The end of a program: HALTED, status 1, the call stack empty, nothing else (R270). -/
structure SentinelResult (s t : State) : Prop where
  runState : t.runState = .halted
  lastStatus : t.lastStatus = some .ended
  callStack : t.callStack = []
  pc : t.pc = s.pc
  regs : ∀ r : Reg, t.readReg r = s.readReg r
  wb : t.wb = s.wb
  faultCause : t.faultCause = s.faultCause
  reports : t.reports = s.reports
  bytes : SameBytes s t
  setup : SameSetup s t

/-! ## Faults -/

/-- The data access of an instruction: address, width, and whether it is a write (R53). -/
def accessOf (s : State) : Instr → Option (Word × Nat × Bool)
  | .lb _ rs1 imm => some (addressOf s rs1 imm, 1, false)
  | .lh _ rs1 imm => some (addressOf s rs1 imm, 2, false)
  | .lw _ rs1 imm => some (addressOf s rs1 imm, 4, false)
  | .ld _ rs1 imm => some (addressOf s rs1 imm, 8, false)
  | .lbu _ rs1 imm => some (addressOf s rs1 imm, 1, false)
  | .lhu _ rs1 imm => some (addressOf s rs1 imm, 2, false)
  | .lwu _ rs1 imm => some (addressOf s rs1 imm, 4, false)
  | .sb rs1 imm _ => some (addressOf s rs1 imm, 1, true)
  | .sh rs1 imm _ => some (addressOf s rs1 imm, 2, true)
  | .sw rs1 imm _ => some (addressOf s rs1 imm, 4, true)
  | .sd rs1 imm _ => some (addressOf s rs1 imm, 8, true)
  | _ => none

def isStore : Instr → Bool
  | .sb _ _ _ => true
  | .sh _ _ _ => true
  | .sw _ _ _ => true
  | .sd _ _ _ => true
  | _ => false

/-- The fault of an instruction's data access, in the order of R347. -/
def accessFault (s : State) (i : Instr) : Option Fault :=
  match accessOf s i with
  | none => none
  | some (a, n, write) =>
    if s.params.memorySize < a.toNat + n then some .oob
    else if write = true ∧ s.params.smcEnable = false ∧ a.toNat < s.params.dataBase then some .textWrite
    else none

/-- The fault of a step that starts unFAULTED, in the order of R347. -/
def stepFault (s : State) : Option Fault :=
  if s.params.dataBase ≤ s.pc.toNat then some .pcData
  else if s.params.memorySize < s.pc.toNat + 4 then some .oob
  else
    match decodeWord (wordAt s s.pc) with
    | .ok i => accessFault s i
    | .error _ => none

/-! ## Images and runs -/

/-- The byte an image puts at address `a` (R321). -/
def imageByte (p : Params) (image : Image) (a : Nat) : Byte :=
  if a < 4 * image.words.length then
    BitVec.ofNat 8 ((image.words.getD (a / 4) 0).toNat / 2 ^ (8 * (a % 4)))
  else if p.dataBase ≤ a then image.data.getD (a - p.dataBase) 0
  else 0

/-- What load and both resets leave of the core (R45, R370). -/
structure Restarted (s t : State) (loaded : Image) (ks : List Nat) : Prop where
  params : t.params = s.params
  regs : ∀ r : Reg, t.readReg r = 0
  pc : t.pc = 0
  runState : t.runState = .running
  faultCause : t.faultCause = none
  wb : t.wb = none
  callStack : t.callStack = []
  breakpoints : t.breakpoints = ks
  image : t.image = loaded
  bytes : ∀ a : Word, a.toNat < s.params.memorySize →
    t.memSys.store.read a.toNat = imageByte s.params loaded a.toNat ∧
      t.peekByte a = imageByte s.params loaded a.toNat

/-- `k` steps, all of which returned status 0 (R311). -/
def NormalSteps : Nat → State → State → Prop
  | 0, s, t => t = s
  | k + 1, s, t => ∃ u, step s = .next u ∧ u.lastStatus = some .normal ∧ NormalSteps k u t

/-- Two states that differ in the memory system alone, and whose coherent views are the same. -/
structure SameButCache (s t : State) : Prop where
  control : SameControl s t
  params : t.params = s.params
  breakpoints : t.breakpoints = s.breakpoints
  lineTable : t.lineTable = s.lineTable
  labels : t.labels = s.labels
  image : t.image = s.image
  regs : t.regs = s.regs
  pc : t.pc = s.pc
  wb : t.wb = s.wb
  callStack : t.callStack = s.callStack
  bytes : SameBytes s t

/-- No line is valid. -/
def NoLineValid (c : Cache) : Prop := ∀ s L, L ∈ c.ways s → L.valid = false

/-- The address is resident in the cache. -/
def Resident (c : Cache) (a : Word) : Prop :=
  ∃ w, w < (c.ways (c.cfg.index a)).length ∧ (c.line (c.cfg.index a) w).valid = true ∧
    (c.line (c.cfg.index a) w).tag = c.cfg.tag a

/-- The line that holds the address, if one does, is dirty. -/
def LineDirty (c : Cache) (a : Word) : Prop :=
  ∃ w, w < (c.ways (c.cfg.index a)).length ∧ (c.line (c.cfg.index a) w).valid = true ∧
    (c.line (c.cfg.index a) w).tag = c.cfg.tag a ∧ (c.line (c.cfg.index a) w).dirty = true

/-- A line whose bytes are newer than `M` (R94, R101): valid and dirty, under write-back. -/
def NeedsFlush (g : CacheConfig) (L : Line) : Prop :=
  L.valid = true ∧ L.dirty = true ∧ g.writePolicy = .writeBack

/-- How many lines of the cache need a flush. -/
def flushCount (c : Cache) : Nat :=
  c.sets.flatten.countP fun L => L.valid && L.dirty && decide (c.cfg.writePolicy = .writeBack)

end Sys2Proof.Claims

section
open Sys2Proof Sys2Proof.Machine Sys2Proof.Claims

/-! ## Register-register instructions -/

/-- R171, R172, R174, R175: encoding, result and frame of `add`, `sub`, `slt`, `sltu`. -/
def Obligations.RegisterArithmetic : Prop :=
  EncodedR 0x00000033#32 .add ∧ EncodedR 0x40000033#32 .sub ∧ EncodedR 0x00002033#32 .slt ∧
  EncodedR 0x00003033#32 .sltu ∧
  ∀ (s : State) (rd rs1 rs2 : Reg),
    Produces (.add rd rs1 rs2) s rd (u64 ((s.readReg rs1).toNat + (s.readReg rs2).toNat)) ∧
    Produces (.sub rd rs1 rs2) s rd (u64i ((s.readReg rs1).toNat - (s.readReg rs2).toNat)) ∧
    Produces (.slt rd rs1 rs2) s rd (if (s.readReg rs1).toInt < (s.readReg rs2).toInt then 1 else 0) ∧
    Produces (.sltu rd rs1 rs2) s rd (if (s.readReg rs1).toNat < (s.readReg rs2).toNat then 1 else 0)

/-- R176, R179, R180: encoding, result bit by bit and frame of `xor`, `or`, `and`. -/
def Obligations.RegisterLogic : Prop :=
  EncodedR 0x00004033#32 .xor ∧ EncodedR 0x00006033#32 .or ∧ EncodedR 0x00007033#32 .and ∧
  ∀ (s : State) (rd rs1 rs2 : Reg),
    ProducesBits (.xor rd rs1 rs2) s rd
      (fun k => (s.readReg rs1).getLsbD k != (s.readReg rs2).getLsbD k) ∧
    ProducesBits (.or rd rs1 rs2) s rd
      (fun k => (s.readReg rs1).getLsbD k || (s.readReg rs2).getLsbD k) ∧
    ProducesBits (.and rd rs1 rs2) s rd
      (fun k => (s.readReg rs1).getLsbD k && (s.readReg rs2).getLsbD k)

/-- The register shifts of 40_alu_register.md. That the amount is the low six bits of `x[rs2]` is the
spec's own decision D20, so no rule is cited. -/
def Obligations.RegisterShifts : Prop :=
  EncodedR 0x00001033#32 .sll ∧ EncodedR 0x00005033#32 .srl ∧ EncodedR 0x40005033#32 .sra ∧
  ∀ (s : State) (rd rs1 rs2 : Reg),
    Produces (.sll rd rs1 rs2) s rd (u64 ((s.readReg rs1).toNat * 2 ^ ((s.readReg rs2).toNat % 64))) ∧
    Produces (.srl rd rs1 rs2) s rd (u64 ((s.readReg rs1).toNat / 2 ^ ((s.readReg rs2).toNat % 64))) ∧
    Produces (.sra rd rs1 rs2) s rd
      (u64i (Int.fdiv (s.readReg rs1).toInt (2 ^ ((s.readReg rs2).toNat % 64))))

/-! ## Register-immediate instructions -/

/-- R191, R192, R194, R195, R196: encoding, result and frame of `addi`, `slti`, `xori`, `ori`, `andi`. -/
def Obligations.ImmediateOperations : Prop :=
  EncodedI 0x00000013#32 .addi ∧ EncodedI 0x00002013#32 .slti ∧ EncodedI 0x00004013#32 .xori ∧
  EncodedI 0x00006013#32 .ori ∧ EncodedI 0x00007013#32 .andi ∧
  ∀ (s : State) (rd rs1 : Reg) (imm : BitVec 12),
    Produces (.addi rd rs1 imm) s rd (u64i ((s.readReg rs1).toNat + imm.toInt)) ∧
    Produces (.slti rd rs1 imm) s rd (if (s.readReg rs1).toInt < imm.toInt then 1 else 0) ∧
    ProducesBits (.xori rd rs1 imm) s rd
      (fun k => (s.readReg rs1).getLsbD k != imm.getLsbD (min k 11)) ∧
    ProducesBits (.ori rd rs1 imm) s rd
      (fun k => (s.readReg rs1).getLsbD k || imm.getLsbD (min k 11)) ∧
    ProducesBits (.andi rd rs1 imm) s rd
      (fun k => (s.readReg rs1).getLsbD k && imm.getLsbD (min k 11))

/-- `sltiu` compares with the sign-extended immediate as an unsigned value: the spec's own decision D42, so
no rule is cited. -/
def Obligations.UnsignedImmediateCompare : Prop :=
  EncodedI 0x00003013#32 .sltiu ∧
  ∀ (s : State) (rd rs1 : Reg) (imm : BitVec 12),
    Produces (.sltiu rd rs1 imm) s rd
      (if (s.readReg rs1).toNat < (imm.toInt % 2 ^ 64).toNat then 1 else 0)

/-- R197, R198, R199: encoding, result and frame of `slli`, `srli`, `srai`. -/
def Obligations.ImmediateShifts : Prop :=
  EncodedShift 0x00001013#32 .slli ∧ EncodedShift 0x00005013#32 .srli ∧
  EncodedShift 0x40005013#32 .srai ∧
  ∀ (s : State) (rd rs1 : Reg) (shamt : BitVec 6),
    Produces (.slli rd rs1 shamt) s rd (u64 ((s.readReg rs1).toNat * 2 ^ shamt.toNat)) ∧
    Produces (.srli rd rs1 shamt) s rd (u64 ((s.readReg rs1).toNat / 2 ^ shamt.toNat)) ∧
    Produces (.srai rd rs1 shamt) s rd (u64i (Int.fdiv (s.readReg rs1).toInt (2 ^ shamt.toNat)))

/-- R142, R143, R146: the 64-bit immediates of the I, S and B formats bit by bit, their ranges, and the
shift amount. -/
def Obligations.ImmediateAssembly : Prop :=
  ∀ w : InstrWord,
    (∀ k, k < 64 → (imm12 (immIOf w)).getLsbD k = w.getLsbD (if k < 11 then 20 + k else 31)) ∧
    (∀ k, k < 64 → (imm12 (immSOf w)).getLsbD k =
      w.getLsbD (if k < 5 then 7 + k else if k < 11 then 20 + k else 31)) ∧
    (∀ k, k < 64 → (immB (immBOf w)).getLsbD k =
      (decide (k ≠ 0) && w.getLsbD (if k < 5 then 7 + k else if k < 11 then 20 + k
        else if k = 11 then 7 else 31))) ∧
    (-2048 ≤ (imm12 (immIOf w)).toInt ∧ (imm12 (immIOf w)).toInt ≤ 2047) ∧
    (-2048 ≤ (imm12 (immSOf w)).toInt ∧ (imm12 (immSOf w)).toInt ≤ 2047) ∧
    (-4096 ≤ (immB (immBOf w)).toInt ∧ (immB (immBOf w)).toInt ≤ 4094 ∧ (immB (immBOf w)).toInt % 2 = 0) ∧
    (shamtOf w).toNat = w.toNat / 2 ^ 20 % 2 ^ 6

/-! ## Loads and stores -/

/-- R211, R212, R213: encoding, width, sign extension, frame and fault of `lb`, `lh`, `lw`. The address and the
byte order they rest on are the spec's decisions D22 and D1. -/
def Obligations.SignedLoads : Prop :=
  EncodedI 0x00000003#32 .lb ∧ EncodedI 0x00001003#32 .lh ∧ EncodedI 0x00002003#32 .lw ∧
  ∀ (s : State) (rd rs1 : Reg) (imm : BitVec 12), s.Inv →
    Loads (.lb rd rs1 imm) s rd (addressOf s rs1 imm) 1
      (u64i (signedBytes 1 (valueAt s (addressOf s rs1 imm) 1))) ∧
    Loads (.lh rd rs1 imm) s rd (addressOf s rs1 imm) 2
      (u64i (signedBytes 2 (valueAt s (addressOf s rs1 imm) 2))) ∧
    Loads (.lw rd rs1 imm) s rd (addressOf s rs1 imm) 4
      (u64i (signedBytes 4 (valueAt s (addressOf s rs1 imm) 4)))

/-- R214, R215, R216, R217: encoding, width, zero extension, frame and fault of `ld`, `lbu`, `lhu`, `lwu`. The
address and the byte order they rest on are the spec's decisions D22 and D1. -/
def Obligations.UnsignedLoads : Prop :=
  EncodedI 0x00003003#32 .ld ∧ EncodedI 0x00004003#32 .lbu ∧ EncodedI 0x00005003#32 .lhu ∧
  EncodedI 0x00006003#32 .lwu ∧
  ∀ (s : State) (rd rs1 : Reg) (imm : BitVec 12), s.Inv →
    Loads (.ld rd rs1 imm) s rd (addressOf s rs1 imm) 8 (u64 (valueAt s (addressOf s rs1 imm) 8)) ∧
    Loads (.lbu rd rs1 imm) s rd (addressOf s rs1 imm) 1 (u64 (valueAt s (addressOf s rs1 imm) 1)) ∧
    Loads (.lhu rd rs1 imm) s rd (addressOf s rs1 imm) 2 (u64 (valueAt s (addressOf s rs1 imm) 2)) ∧
    Loads (.lwu rd rs1 imm) s rd (addressOf s rs1 imm) 4 (u64 (valueAt s (addressOf s rs1 imm) 4))

/-- Encoding, stored bytes, frame and both faults of `sb`, `sh`, `sw`, `sd` (43_stores.md). The address, the byte
order and the order of the two faults are the spec's decisions D22, D1 and D6, so no rule is cited. -/
def Obligations.StoreInstructions : Prop :=
  EncodedS 0x00000023#32 .sb ∧ EncodedS 0x00001023#32 .sh ∧ EncodedS 0x00002023#32 .sw ∧
  EncodedS 0x00003023#32 .sd ∧
  ∀ (s : State) (rs1 : Reg) (imm : BitVec 12) (rs2 : Reg), s.Inv →
    Stores (.sb rs1 imm rs2) s (addressOf s rs1 imm) 1 (s.readReg rs2) ∧
    Stores (.sh rs1 imm rs2) s (addressOf s rs1 imm) 2 (s.readReg rs2) ∧
    Stores (.sw rs1 imm rs2) s (addressOf s rs1 imm) 4 (s.readReg rs2) ∧
    Stores (.sd rs1 imm rs2) s (addressOf s rs1 imm) 8 (s.readReg rs2)

/-- The address of a load or a store is `u64(x[rs1] + sext_12(imm))`; a checked read answers the
little-endian value of the coherent bytes and keeps every byte; and the look-ahead's `Peek32` answers what a
fetch at the same address would. The address, the byte order and the free look-ahead are the spec's decisions
D22, D1 and D19, so no rule is cited. -/
def Obligations.AddressAndByteOrder : Prop :=
  (∀ (s : State) (rs1 : Reg) (imm : BitVec 12),
    ((addressOf s rs1 imm).toNat : Int) = ((s.readReg rs1).toNat + imm.toInt) % 2 ^ 64) ∧
  ∀ (s : State) (a : Word) (n : Nat), s.Inv → n ≤ 8 → a.toNat + n ≤ s.params.memorySize →
    (∃ v t, s.memRead a n = .ok (v, t) ∧ v.toNat = valueAt s a n ∧ v.toNat < 2 ^ (8 * n) ∧
      SameBytes s t ∧ (s.memSys.cache = none → t = s)) ∧
    (n = 4 → s.peek32 a = some (wordAt s a))

/-- A store and then a load of the same bytes returns what was stored, at the same width and byte by byte
(20_memory.md section 1, the source's P1 and P2). The byte order is the spec's decision D1. -/
def Obligations.StoreThenLoad : Prop :=
  ∀ (s t : State) (a : Word) (n : Nat) (v : Word), s.Inv → n ≤ 8 → s.memWrite a n v = .ok t →
    (∃ u, t.memRead a n = .ok (u64 (v.toNat % 2 ^ (8 * n)), u)) ∧
    (∀ k, k < n → ∃ u, t.memRead (u64 (a.toNat + k)) 1 = .ok (u64 (v.toNat / 2 ^ (8 * k) % 256), u))

/-! ## Control transfer -/

/-- R236 to R241: encoding, condition, target and frame of the six branches. -/
def Obligations.BranchInstructions : Prop :=
  EncodedB 0x00000063#32 .beq ∧ EncodedB 0x00001063#32 .bne ∧ EncodedB 0x00004063#32 .blt ∧
  EncodedB 0x00005063#32 .bge ∧ EncodedB 0x00006063#32 .bltu ∧ EncodedB 0x00007063#32 .bgeu ∧
  ∀ (s : State) (rs1 rs2 : Reg) (offset : BitVec 13),
    let taken := u64i (s.pc.toNat + offset.toInt)
    Moves (.beq rs1 rs2 offset) s (if s.readReg rs1 = s.readReg rs2 then taken else nextPc s) ∧
    Moves (.bne rs1 rs2 offset) s (if s.readReg rs1 = s.readReg rs2 then nextPc s else taken) ∧
    Moves (.blt rs1 rs2 offset) s
      (if (s.readReg rs1).toInt < (s.readReg rs2).toInt then taken else nextPc s) ∧
    Moves (.bge rs1 rs2 offset) s
      (if (s.readReg rs1).toInt < (s.readReg rs2).toInt then nextPc s else taken) ∧
    Moves (.bltu rs1 rs2 offset) s
      (if (s.readReg rs1).toNat < (s.readReg rs2).toNat then taken else nextPc s) ∧
    Moves (.bgeu rs1 rs2 offset) s
      (if (s.readReg rs1).toNat < (s.readReg rs2).toNat then nextPc s else taken)

/-- R251: encoding, target, link, pushed frame and frame condition of `jal`, whatever `rd` is. -/
def Obligations.JalEffect : Prop :=
  EncodedJ 0x0000006F#32 .jal ∧
  ∀ (s : State) (rd : Reg) (offset : BitVec 21),
    ∃ t, exec (.jal rd offset) s = .next t ∧
      JumpResult s t rd (u64i (s.pc.toNat + offset.toInt))
        ({ line := s.lineAt (nextPc s), owner := ownerOf s.labels (s.lineAt (nextPc s)) } :: s.callStack)

/-- Encoding, target from the old `x[rs1]`, link, popped frame and frame condition of `jalr`
(45_jumps.md). Clearing bit 0 of the target and computing it first are the spec's decision D23. -/
def Obligations.JalrEffect : Prop :=
  EncodedI 0x00000067#32 .jalr ∧
  ∀ (s : State) (rd rs1 : Reg) (imm : BitVec 12),
    ∃ t, exec (.jalr rd rs1 imm) s = .next t ∧
      JumpResult s t rd (u64i (((s.readReg rs1).toNat + imm.toInt) / 2 * 2)) s.callStack.tail

/-- The source's P8, with the callee any code that leaves `x1` and the call-stack depth as it found them.
The evenness of `pc` is the model's invariant (R27 rests on decision D24). -/
def Obligations.CallAndReturn : Prop :=
  ∀ (s : State) (offset : BitVec 21), s.Inv →
    ∃ t, exec (.jal 1 offset) s = .next t ∧ t.callStack.length = s.callStack.length + 1 ∧
      ∀ u : State, u.readReg 1 = t.readReg 1 → u.callStack.length = t.callStack.length →
        ∃ v, exec (.jalr 0 1 0) u = .next v ∧ v.pc = nextPc s ∧
          v.callStack.length = s.callStack.length ∧ ∀ r, v.readReg r = u.readReg r

/-- `lui` and `auipc` (46_upper_immediate.md). The sign extension of the 20-bit field is the spec's decision
D43, so no rule is cited. -/
def Obligations.UpperImmediates : Prop :=
  EncodedU 0x00000037#32 .lui ∧ EncodedU 0x00000017#32 .auipc ∧
  ∀ (s : State) (rd : Reg) (imm : BitVec 20),
    Produces (.lui rd imm) s rd (u64i (imm.toInt * 2 ^ 12)) ∧
    Produces (.auipc rd imm) s rd (u64i (s.pc.toNat + imm.toInt * 2 ^ 12))

/-! ## System words, the sentinel and unhandled words -/

/-- `ecall` and an executed `ebreak` only advance the pc, and every other word of their opcode runs as a no-op
while `STRICT_DECODE` is false (47_system.md): the spec's decisions D29 and D30, so no rule is cited. -/
def Obligations.SystemWords : Prop :=
  decodeWord 0x00000073#32 = .ok .ecall ∧ decodeWord 0x00100073#32 = .ok .ebreak ∧
  (∀ s : State, Moves .ecall s (nextPc s) ∧ Moves .ebreak s (nextPc s)) ∧
  ∀ w : InstrWord, opcodeNat w = 0x73 → w ≠ 0x00000073#32 → w ≠ 0x00100073#32 → RunsAsNop w

/-- R270: a zero word at `pc` ends the program with status 1 and no other change, the fetch apart; a further
step does the same again. The meaning of the sentinel row completes in the same way. -/
def Obligations.SentinelStop : Prop :=
  (∀ s : State, ∃ t, exec .sentinel s = .next t ∧ SentinelResult s t ∧ t.memSys = s.memSys) ∧
  ∀ s : State, s.Inv → s.runState ≠ .faulted → s.pc.toNat < s.params.dataBase →
    s.pc.toNat + 4 ≤ s.params.memorySize → wordAt s s.pc = 0 →
    ∃ t, step s = .next t ∧ SentinelResult s t ∧
      (∃ u, s.fetch = .ok (0, u) ∧ t.memSys = u.memSys) ∧
      ∃ t', step t = .next t' ∧ SentinelResult t t'

/-- An unhandled word found at `pc` is a silent no-op while `STRICT_DECODE` is false, and the step refuses
it by name while it is true (47_system.md; the spec's decision D28 and parameter U1). -/
def Obligations.UnhandledWordIsNop : Prop :=
  ∀ (s u : State) (w : InstrWord) (r : DecodeReject), s.runState ≠ .faulted →
    s.pc.toNat < s.params.dataBase → s.fetch = .ok (w, u) → decodeWord w = .error r →
    (s.params.strictDecode = false → ∃ t, step s = .next t ∧ NopResult u t) ∧
    (s.params.strictDecode = true → step s = .refused (.unhandledWord w))

/-- R181, R200, R219, R232, R243, R254: the words of opcodes 0x33, 0x13, 0x03, 0x23, 0x63 and 0x67 whose key
matches no row, and that every other word of opcode 0x13 is one of its nine instructions. Those of opcode 0x73
are in `SystemWords`. -/
def Obligations.UnhandledKeys : Prop :=
  ∀ w : InstrWord,
    (opcodeNat w = 0x33 → ¬ (funct7Nat w = 0x00 ∨ funct7Nat w = 0x01 ∨
      (funct7Nat w = 0x20 ∧ (funct3Nat w = 0 ∨ funct3Nat w = 5))) → RunsAsNop w) ∧
    (opcodeNat w = 0x13 → (funct3Nat w = 1 ∧ funct6Nat w ≠ 0x00) ∨
      (funct3Nat w = 5 ∧ funct6Nat w ≠ 0x00 ∧ funct6Nat w ≠ 0x10) → RunsAsNop w) ∧
    (opcodeNat w = 0x13 → ¬ ((funct3Nat w = 1 ∧ funct6Nat w ≠ 0x00) ∨
      (funct3Nat w = 5 ∧ funct6Nat w ≠ 0x00 ∧ funct6Nat w ≠ 0x10)) →
      ∃ i, decodeWord w = .ok i ∧ i.row ∈ opcodeRowsImm) ∧
    (opcodeNat w = 0x03 → funct3Nat w = 7 → RunsAsNop w) ∧
    (opcodeNat w = 0x23 → 4 ≤ funct3Nat w → RunsAsNop w) ∧
    (opcodeNat w = 0x63 → funct3Nat w = 2 ∨ funct3Nat w = 3 → RunsAsNop w) ∧
    (opcodeNat w = 0x67 → funct3Nat w ≠ 0 → RunsAsNop w)

/-! ## Multiply and divide -/

/-- R281, R282, R284: encoding, result over the integers and frame of `mul`, `mulh`, `mulhu`. -/
def Obligations.Multiplication : Prop :=
  EncodedR 0x02000033#32 .mul ∧ EncodedR 0x02001033#32 .mulh ∧ EncodedR 0x02003033#32 .mulhu ∧
  ∀ (s : State) (rd rs1 rs2 : Reg),
    Produces (.mul rd rs1 rs2) s rd (u64 ((s.readReg rs1).toNat * (s.readReg rs2).toNat)) ∧
    Produces (.mulh rd rs1 rs2) s rd
      (u64i (Int.fdiv ((s.readReg rs1).toInt * (s.readReg rs2).toInt) (2 ^ 64))) ∧
    Produces (.mulhu rd rs1 rs2) s rd (u64 ((s.readReg rs1).toNat * (s.readReg rs2).toNat / 2 ^ 64))

/-- `mulhsu` (48_muldiv.md). That `rs1` is the signed operand is marked there as general knowledge, so no rule
is cited. -/
def Obligations.MixedMultiplyHigh : Prop :=
  EncodedR 0x02002033#32 .mulhsu ∧
  ∀ (s : State) (rd rs1 rs2 : Reg), Produces (.mulhsu rd rs1 rs2) s rd
    (u64i (Int.fdiv ((s.readReg rs1).toInt * (s.readReg rs2).toNat) (2 ^ 64)))

/-- `div`, `divu`, `rem`, `remu` on every operand (48_muldiv.md). The overflow case, the zero divisor of the
last three and the rounding are the spec's decisions D25, D26 and D27 (log entry 6), so no rule is cited. -/
def Obligations.DivisionAndRemainder : Prop :=
  EncodedR 0x02004033#32 .div ∧ EncodedR 0x02005033#32 .divu ∧ EncodedR 0x02006033#32 .rem ∧
  EncodedR 0x02007033#32 .remu ∧
  ∀ (s : State) (rd rs1 rs2 : Reg),
    Produces (.div rd rs1 rs2) s rd
      (if (s.readReg rs2).toInt = 0 then 0
       else if (s.readReg rs1).toInt = -2 ^ 63 ∧ (s.readReg rs2).toInt = -1 then u64 (2 ^ 63)
       else u64i (Int.tdiv (s.readReg rs1).toInt (s.readReg rs2).toInt)) ∧
    Produces (.divu rd rs1 rs2) s rd
      (if (s.readReg rs2).toNat = 0 then 0 else u64 ((s.readReg rs1).toNat / (s.readReg rs2).toNat)) ∧
    Produces (.rem rd rs1 rs2) s rd
      (if (s.readReg rs2).toInt = 0 then 0
       else if (s.readReg rs1).toInt = -2 ^ 63 ∧ (s.readReg rs2).toInt = -1 then 0
       else u64i ((s.readReg rs1).toInt -
         (s.readReg rs2).toInt * Int.tdiv (s.readReg rs1).toInt (s.readReg rs2).toInt)) ∧
    Produces (.remu rd rs1 rs2) s rd
      (if (s.readReg rs2).toNat = 0 then 0 else u64 ((s.readReg rs1).toNat % (s.readReg rs2).toNat))

/-! ## State rules -/

/-- R21, R22: a register reads what was last written to it, `x0` reads 0 under every write, every write is
recorded, nothing else changes, and an instruction writes at most one register. -/
def Obligations.RegisterFile : Prop :=
  (∀ (i : Instr) (s t : State), i.wf = true → exec i s = .next t →
    ∃ rd, ∀ r, r ≠ rd → t.readReg r = s.readReg r) ∧
  ∀ (s : State) (r : Reg) (v : Word),
    s.readReg 0 = 0 ∧ (s.writeReg r v).readReg 0 = 0 ∧
    (r ≠ 0 → (s.writeReg r v).readReg r = v) ∧
    (∀ r' : Reg, r' ≠ r → (s.writeReg r v).readReg r' = s.readReg r') ∧
    (s.writeReg r v).wb = some r ∧
    (s.writeReg r v).pc = s.pc ∧ (s.writeReg r v).memSys = s.memSys ∧
    (s.writeReg r v).callStack = s.callStack ∧
    SameControl s (s.writeReg r v) ∧ SameSetup s (s.writeReg r v)

/-! ## Faults -/

/-- R302: with `pc` in the data region or beyond, a step takes `F_PC_DATA` and changes nothing else. -/
def Obligations.PcDataFault : Prop :=
  ∀ s : State, s.runState ≠ .faulted → s.params.dataBase ≤ s.pc.toNat →
    ∃ t, step s = .next t ∧ FaultTaken s t .pcData

/-- The closed list of faults and their order (60_exceptions.md sections 1 and 3): a step that starts
unFAULTED faults exactly as `stepFault` says. The order of the two store checks is the spec's decision D6. -/
def Obligations.FaultPriority : Prop :=
  ∀ s t : State, s.Inv → s.runState ≠ .faulted → step s = .next t →
    t.faultCause = stepFault s ∧ (t.lastStatus = some .fault ↔ (stepFault s).isSome = true)

/-- Fault entry as a step sees it (60_exceptions.md section 2): precise, with the effects of the fetch and,
for a data access, the cleared write-back record and the refreshed top line left. The spec's decision D7. -/
def Obligations.FaultEntry : Prop :=
  ∀ s t : State, s.Inv → s.runState ≠ .faulted → step s = .next t → t.lastStatus = some .fault →
    ∃ c, stepFault s = some c ∧ t.runState = .faulted ∧ t.faultCause = some c ∧
      t.reports = s.reports ++ [c] ∧ t.pc = s.pc ∧ (∀ r, t.readReg r = s.readReg r) ∧ SameBytes s t ∧
      SameSetup s t ∧
      (if s.params.dataBase ≤ s.pc.toNat ∨ s.params.memorySize < s.pc.toNat + 4 then
        t.wb = s.wb ∧ t.callStack = s.callStack ∧ t.memSys = s.memSys
       else t.wb = none ∧ t.callStack = refreshTop (s.lineAt s.pc) s.callStack ∧
        ∃ w u, s.fetch = .ok (w, u) ∧ t.memSys = u.memSys)

/-- A FAULTED core does not step (50_step_and_run.md section 2, the spec's decision D31): the step returns 3
and changes nothing. -/
def Obligations.FaultedStepDoesNothing : Prop :=
  ∀ s : State, s.Inv → s.runState = .faulted → s.lastStatus = some .fault ∧ step s = .next s

/-! ## The step -/

/-- A step runs the decoded instruction (50_step_and_run.md section 2): where the four bytes at `pc` decode
to `i`, the step is the meaning of `i` on the state after the fetch, with the write-back record cleared and the
tracker refreshed before it and the look-ahead behind it. -/
def Obligations.StepRunsDecoded : Prop :=
  ∀ (s : State) (i : Instr), s.Inv → s.runState ≠ .faulted → s.pc.toNat < s.params.dataBase →
    s.pc.toNat + 4 ≤ s.params.memorySize →
    decode [s.peekByte s.pc, s.peekByte (s.pc + 1), s.peekByte (s.pc + 2), s.peekByte (s.pc + 3)] =
      .ok (i, []) →
    ∃ u, s.fetch = .ok (encode i, u) ∧ u = { s with memSys := u.memSys } ∧ SameBytes s u ∧ SameSetup s u ∧
      (s.memSys.cache = none → u = s) ∧
      step s =
        if i = .sentinel then exec i u
        else
          match exec i { u with wb := none, callStack := refreshTop (s.lineAt s.pc) s.callStack } with
          | .next t => .next (if t.runState = .faulted then t else t.lookAhead)
          | .fault c => .fault c
          | .refused q => .refused q

/-- R308: every step sets the run state from the status it returns, and returns one. -/
def Obligations.StatusSetsRunState : Prop :=
  ∀ s t : State, step s = .next t → ∃ st, t.lastStatus = some st ∧
    t.runState = (match st with
      | .normal => .running
      | .ended => .halted
      | .halted => .halted
      | .fault => .faulted) ∧
    ((st = .ended ∨ st = .fault) → t.pc = s.pc)

/-- The look-ahead (50_step_and_run.md section 2): a step that executed halts exactly if the word index of
the new `pc` is a breakpoint or the backed word there is `ebreak`. The index and the unbacked case are the
spec's decisions D32 and D45. -/
def Obligations.LookAheadHalts : Prop :=
  ∀ s t : State, s.Inv → step s = .next t → t.lastStatus = some .normal ∨ t.lastStatus = some .halted →
    (t.lastStatus = some .halted ↔ t.pc.toNat / 4 ∈ t.breakpoints ∨
      (t.pc.toNat + 4 ≤ t.params.memorySize ∧ wordAt t t.pc = 0x00100073#32))

/-- The breakpoint commands (50_step_and_run.md sections 1 and 4): set, clear and get work on a set, change
nothing else and answer the set, and a step that executes and moves `pc` onto `4k` of a set index halts there
(D32). -/
def Obligations.BreakpointCommands : Prop :=
  (∀ (s : State) (k : Nat), s.breakpoints.Pairwise (· < ·) →
    (∃ t, issue (.bpSet k) s = .next (t, .breakpoints t.breakpoints) ∧
      t = { s with breakpoints := t.breakpoints } ∧
      t.breakpoints.Pairwise (· < ·) ∧ ∀ j, j ∈ t.breakpoints ↔ j = k ∨ j ∈ s.breakpoints) ∧
    (∃ t, issue (.bpClear k) s = .next (t, .breakpoints t.breakpoints) ∧
      t = { s with breakpoints := t.breakpoints } ∧
      t.breakpoints.Pairwise (· < ·) ∧ ∀ j, j ∈ t.breakpoints ↔ j ≠ k ∧ j ∈ s.breakpoints) ∧
    issue .bpGet s = .next (s, .breakpoints s.breakpoints)) ∧
  ∀ (s t : State) (k : Nat), step s = .next t →
    t.lastStatus = some .normal ∨ t.lastStatus = some .halted → k ∈ s.breakpoints → t.pc.toNat = 4 * k →
    t.lastStatus = some .halted

/-- A step is total (50_step_and_run.md section 2, 70_reset_and_hazards.md section 4): it never answers a
fault of the host's interface, and it refuses only an unhandled word under `STRICT_DECODE`. -/
def Obligations.StepIsTotal : Prop :=
  ∀ s : State, (∃ t, step s = .next t) ∨
    (s.params.strictDecode = true ∧ s.runState ≠ .faulted ∧ s.pc.toNat < s.params.dataBase ∧
      ∃ w u r, s.fetch = .ok (w, u) ∧ decodeWord w = .error r ∧ step s = .refused (.unhandledWord w))

/-- At most one register is written by a step, and the write-back record names it; and no step writes the
parameters, the breakpoints, the tables, the image, or whether there is a cache and how it is configured
(10_state.md sections 1, 4, 5 and 6). The record for `rd = 0` is the spec's decision D38. -/
def Obligations.OneRegisterWrite : Prop :=
  ∀ s t : State, step s = .next t → SameSetup s t ∧
    ((t.lastStatus = some .normal ∨ t.lastStatus = some .halted) →
      (t.wb = none ∧ ∀ r, t.readReg r = s.readReg r) ∨
      (∃ rd, t.wb = some rd ∧ ∀ r, r ≠ rd → t.readReg r = s.readReg r)) ∧
    ((t.lastStatus = some .ended ∨ t.lastStatus = some .fault) → ∀ r, t.readReg r = s.readReg r)

/-- Only a store that does not fault changes a byte of the coherent view (43_stores.md, 20_memory.md section
6). -/
def Obligations.OnlyStoresChangeMemory : Prop :=
  ∀ s t : State, s.Inv → step s = .next t →
    (∀ i, decodeWord (wordAt s s.pc) = .ok i → isStore i = false) ∨ t.lastStatus = some .fault →
    SameBytes s t

/-- While `SMC_ENABLE` is false no step changes a byte of the code region, as any later fetch sees it
(20_memory.md section 6). -/
def Obligations.CodeRegionFixed : Prop :=
  ∀ s t : State, s.Inv → s.params.smcEnable = false → step s = .next t →
    (∀ a : Word, a.toNat < s.params.dataBase → t.peekByte a = s.peekByte a) ∧
    ∀ a : Word, a.toNat + 4 ≤ s.params.dataBase → wordAt t a = wordAt s a

/-- The cache is transparent (50_step_and_run.md section 2, 21_cache.md section 8): two cores that differ in
the Cache Model, the lag of `M`, the draws and the trace alone take the same step. -/
def Obligations.CacheIsTransparent : Prop :=
  ∀ s₁ s₂ : State, s₁.Inv → s₂.Inv → SameButCache s₁ s₂ →
    (∀ t₁, step s₁ = .next t₁ → ∃ t₂, step s₂ = .next t₂ ∧ SameButCache t₁ t₂) ∧
    (∀ q, step s₁ = .refused q → step s₂ = .refused q)

/-! ## Encoding -/

/-- Words written out from the spec's tables and vectors decode to the instructions they stand for. The
numeric encodings are the spec's decision D41. -/
def Obligations.KnownWords : Prop :=
  decodeWord 0x002081B3#32 = .ok (.add 3 1 2) ∧ decodeWord 0xFFF08193#32 = .ok (.addi 3 1 0xFFF#12) ∧
  decodeWord 0x4210D193#32 = .ok (.srai 3 1 33#6) ∧ decodeWord 0xFFF10183#32 = .ok (.lb 3 2 0xFFF#12) ∧
  decodeWord 0xFE313C23#32 = .ok (.sd 2 0xFF8#12 3) ∧ decodeWord 0xFE209EE3#32 = .ok (.bne 1 2 0x1FFC#13) ∧
  decodeWord 0x001000EF#32 = .ok (.jal 1 2048#21) ∧ decodeWord 0xFFC280E7#32 = .ok (.jalr 1 5 0xFFC#12) ∧
  decodeWord 0x123452B7#32 = .ok (.lui 5 0x12345#20) ∧ decodeWord 0x00100073#32 = .ok .ebreak ∧
  decodeWord 0x0220F1B3#32 = .ok (.remu 3 1 2) ∧ decodeWord 0x00000000#32 = .ok .sentinel ∧
  decodeWord 0x0000100F#32 = .error (.unhandledOpcode 0x0000100F#32) ∧
  decodeWord 0x00007183#32 = .error (.unhandledFunct 0x00007183#32)

/-- Decoding the bytes of an encoded well-formed instruction gives it back, with whatever bytes follow. -/
def Obligations.DecodeOfEncode : Prop :=
  ∀ (i : Instr) (rest : List Byte), i.wf = true → decode (bytesOfWord (encode i) ++ rest) = .ok (i, rest)

/-- Every word that decodes is the encoding of its instruction, which is well formed: no two words decode to
one instruction, and no bit of a word is dropped. -/
def Obligations.EncodeOfDecode : Prop :=
  ∀ (w : InstrWord) (i : Instr), decodeWord w = .ok i → i.wf = true ∧ encode i = w

/-- The decoder selects by the opcode table (30_encoding.md section 3): a word decodes to an instruction of a
row exactly if it meets the row's mask and match value, and no word meets two rows. The numeric values are the
spec's decision D41. -/
def Obligations.TableDispatch : Prop :=
  opcodeTable.length = 51 ∧
  (∀ (w : InstrWord) (i : Instr), decodeWord w = .ok i → i.row ∈ opcodeTable ∧ w &&& i.row.mask = i.row.pattern) ∧
  (∀ (w : InstrWord) (row : OpcodeRow), row ∈ opcodeTable → w &&& row.mask = row.pattern →
    ∃ i, decodeWord w = .ok i ∧ i.row = row) ∧
  (∀ (w : InstrWord) (row row' : OpcodeRow), row ∈ opcodeTable → row' ∈ opcodeTable →
    w &&& row.mask = row.pattern → w &&& row'.mask = row'.pattern → row = row')

/-! ## Invariants -/

/-- Every step keeps the invariant: canonical and backed memory, a coherent cache with exact statistics, `x0`
zero, `pc` even, and the control state consistent. -/
def Obligations.StepKeepsInv : Prop := ∀ s t : State, s.Inv → step s = .next t → t.Inv

/-- The state after power-on meets the invariant, for every valid choice of the parameters; so does
`State.reset`, whose sizes are the model's own choice (log entry 1). -/
def Obligations.ResetMeetsInv : Prop :=
  (∀ p : Params, p.Valid → (State.powerOn p).Inv) ∧ State.reset.Inv

/-- Every host command keeps the invariant (50_step_and_run.md section 1), the run loops included. -/
def Obligations.CommandsKeepInv : Prop :=
  ∀ (c : Command) (s t : State) (r : Reply), s.Inv → issue c s = .next (t, r) → t.Inv

/-! ## Power-on, load and reset -/

/-- The state at power-on (70_reset_and_hazards.md section 1, 10_state.md section 8) and its first step, which
finds the sentinel. The whole column is the spec's decision D46. -/
def Obligations.PowerOnValues : Prop :=
  ∀ p : Params, p.Valid →
    (let s := State.powerOn p
     (∀ r, s.readReg r = 0) ∧ s.pc = 0 ∧ (∀ a, s.peekByte a = 0) ∧ s.runState = .running ∧
      s.faultCause = none ∧ s.wb = none ∧ s.callStack = [] ∧ s.breakpoints = [] ∧
      s.memSys.cache = none ∧ s.image.words = [] ∧ s.image.data = [] ∧ s.lineTable = none ∧ s.labels = [] ∧
      s.params = p ∧ ∃ t, step s = .next t ∧ SentinelResult s t)

/-- Hard and soft reset (70_reset_and_hazards.md section 1): both restart the core on the stored image; hard
reset empties the breakpoints and discards the cache, soft reset keeps the breakpoints and the configuration
and clears lines, clock and statistics. The spec's decision D36. -/
def Obligations.ResetEffects : Prop :=
  ∀ s : State, s.Inv →
    (∃ t, issue (.reset .hard) s = .next (t, .done) ∧ Restarted s t s.image [] ∧
      t.memSys.cache = none ∧ t.lineTable = s.lineTable ∧ t.labels = s.labels) ∧
    (∃ t, issue (.reset .soft) s = .next (t, .done) ∧ Restarted s t s.image s.breakpoints ∧
      t.lineTable = s.lineTable ∧ t.labels = s.labels ∧
      (s.memSys.cache = none → t.memSys.cache = none) ∧
      ∀ c, s.memSys.cache = some c → ∃ c', t.memSys.cache = some c' ∧ c'.cfg = c.cfg ∧
        c'.traceEnable = c.traceEnable ∧ NoLineValid c' ∧ (∀ k L, L ∈ c'.ways k → L.dirty = false) ∧
        c'.clk = 0 ∧ c'.stats.accessCount = 0 ∧ c'.stats.hitCount = 0 ∧ c'.stats.missCount = 0 ∧
        c'.stats.writebacks = 0 ∧ c'.stats.hitRate = 0)

/-- A hard reset with an empty image (and so no tables) is power-on, but for the outputs already sent, which the
model keeps (log entry 3); and a refused load does not replace the stored image (70_reset_and_hazards.md
section 1). -/
def Obligations.HardResetOfEmptyImage : Prop :=
  (∀ s : State, s.image.words = [] → s.image.data = [] → s.lineTable = none → s.labels = [] →
    ∃ t, issue (.reset .hard) s = .next (t, .done) ∧
      t = { State.powerOn s.params with
        memSys := { s.memSys with store := [], cache := none }
        reports := s.reports }) ∧
  ∀ (s t : State) (image : Image) (lines : Option (List Nat)) (labels : Option (List Label)),
    issue (.load image lines labels) s = .next (t, .loadRefused) → t.image = s.image

/-- `load` (50_step_and_run.md section 4): refused, with nothing changed, exactly if the image does not fit;
otherwise the core restarts on the new image with its tables, no breakpoints and no cache. The spec's decisions
D35 and D47. -/
def Obligations.LoadEffect : Prop :=
  ∀ (s : State) (image : Image) (lines : Option (List Nat)) (labels : Option (List Label)), s.Inv →
    if 4 * image.words.length ≤ s.params.dataBase ∧
        s.params.dataBase + image.data.length ≤ s.params.memorySize then
      ∃ t, issue (.load image lines labels) s = .next (t, .done) ∧ Restarted s t image [] ∧
        t.memSys.cache = none ∧ t.lineTable = lines ∧ t.labels = dedupLabels (labels.getD [])
    else issue (.load image lines labels) s = .next (s, .loadRefused)

/-! ## The Cache Model -/

/-- A configuration is accepted exactly if it is valid, and what follows from validity; a ConfigError leaves
the cache disabled (21_cache.md section 1). `associativity = 0` is the spec's decision D44. -/
def Obligations.CacheConfigValidity : Prop :=
  (∀ r : CacheRequest, (r.config.isSome = true ↔
    (∃ k, r.size = 2 ^ k) ∧ (∃ j, r.blockSize = 2 ^ j) ∧ r.associativity ≠ 0 ∧
      r.blockSize * r.associativity ∣ r.size)) ∧
  (∀ (r : CacheRequest) (g : CacheConfig), r.config = some g →
    g.blockSize = r.blockSize ∧ g.associativity = r.associativity ∧ g.replacement = r.replacement ∧
    g.writePolicy = r.writePolicy ∧ g.writeAllocate = r.writeAllocate ∧
    g.nLines * g.associativity * g.blockSize = r.size ∧ 0 < g.nLines ∧
    (∃ k, g.associativity = 2 ^ k) ∧ ∃ k, g.nLines = 2 ^ k) ∧
  ∀ (s : State) (r : CacheRequest), r.config = none →
    ∃ t, issue (.cacheEnable r) s = .next (t, .configError) ∧ t.memSys.cache = none ∧
      t.runState = s.runState

/-- The three parts of an address (21_cache.md section 2), as masks and as the arithmetic they stand for. The
index mask is the spec's decision D13, so no rule is cited. -/
def Obligations.AddressDecomposition : Prop :=
  ∀ (r : CacheRequest) (g : CacheConfig) (a : Word), r.config = some g →
    g.offset a = (a &&& BitVec.ofNat 64 (g.blockSize - 1)).toNat ∧
    g.index a = (a &&& BitVec.ofNat 64 ((g.nLines - 1) * g.blockSize)).toNat / g.blockSize ∧
    g.tag a = a &&& ~~~BitVec.ofNat 64 ((g.nLines - 1) * g.blockSize) &&&
      ~~~BitVec.ofNat 64 (g.blockSize - 1) ∧
    g.offset a = a.toNat % g.blockSize ∧
    g.index a = a.toNat / g.blockSize % g.nLines ∧
    (g.tag a).toNat = a.toNat - a.toNat % (g.blockSize * g.nLines) ∧
    (g.tag a).toNat + g.index a * g.blockSize + g.offset a = a.toNat

/-- A lookup in full (21_cache.md sections 2 and 3): what it counts and changes on a hit, on a miss without
allocation, and on an allocating miss, which fills the victim's way and first flushes what it evicts. The unit of
the access count and the clock are the spec's decisions D9 and D10, the victim is `VictimSelection` (D11, D12),
and a block past the end of `M` is D48, so no rule is cited. -/
def Obligations.LookupRule : Prop :=
  ∀ (size : Nat) (m : Memory) (c : Cache) (draws : Nat) (a : Word) (allocate : Bool), c.Coherent size m →
    let r := c.lookup size m draws a allocate
    (r.hit = true ↔ Resident c a) ∧ r.cache.cfg = c.cfg ∧ r.cache.traceEnable = c.traceEnable ∧
    r.cache.clk = c.clk + 1 ∧ r.cache.stats.accessCount = c.stats.accessCount + 1 ∧
    (Resident c a → r.cache.stats.hitCount = c.stats.hitCount + 1 ∧
      r.cache.stats.missCount = c.stats.missCount ∧ r.cache.stats.writebacks = c.stats.writebacks ∧
      r.store = m ∧ r.draws = draws ∧
      (c.cfg.replacement ≠ .lru → ∀ s w, r.cache.line s w = c.line s w) ∧
      ∃ w, r.way = some w ∧ (c.line (c.cfg.index a) w).tag = c.cfg.tag a ∧
        (c.cfg.replacement = .lru → r.cache.line (c.cfg.index a) w =
          { c.line (c.cfg.index a) w with ts := c.clk + 1 } ∧
          ∀ s v, ¬ (s = c.cfg.index a ∧ v = w) → r.cache.line s v = c.line s v)) ∧
    (¬ Resident c a → r.cache.stats.missCount = c.stats.missCount + 1 ∧
      r.cache.stats.hitCount = c.stats.hitCount ∧
      (allocate = false → r.way = none ∧ r.store = m ∧ r.draws = draws ∧ r.cache.sets = c.sets ∧
        r.cache.stats.writebacks = c.stats.writebacks) ∧
      (allocate = true → ∃ w, r.way = some w ∧
        w = victimWay c.cfg (c.ways (c.cfg.index a)) (Config.randomDraw draws) ∧
        r.draws = (if takesDraw c.cfg (c.ways (c.cfg.index a)) = true then draws + 1 else draws) ∧
        r.cache.line (c.cfg.index a) w =
          { valid := true, dirty := false, tag := c.cfg.tag a, ts := c.clk + 1
            data := r.store.readBlock size (c.cfg.base a).toNat c.cfg.blockSize } ∧
        (∀ s v, ¬ (s = c.cfg.index a ∧ v = w) → r.cache.line s v = c.line s v) ∧
        let L := c.line (c.cfg.index a) w
        let start := L.tag.toNat + c.cfg.index a * c.cfg.blockSize
        (NeedsFlush c.cfg L → r.cache.stats.writebacks = c.stats.writebacks + 1 ∧
          (m.wf = true → ∀ k, r.store.read k =
            if start ≤ k ∧ k < start + c.cfg.blockSize ∧ k < size then L.data.getD (k - start) 0
            else m.read k)) ∧
        (¬ NeedsFlush c.cfg L → r.cache.stats.writebacks = c.stats.writebacks ∧ r.store = m)))

/-- Victim selection (21_cache.md section 3). The lowest-numbered choices are the spec's decision D11; under
RANDOM every way can be drawn (D12, log entry 4). -/
def Obligations.VictimSelection : Prop :=
  ∀ (g : CacheConfig) (ways : List Line) (draw : Nat), ways.length = g.associativity → 0 < g.associativity →
    ∃ v, victimWay g ways draw = v ∧ ∃ hv : v < ways.length,
      ((∃ L ∈ ways, L.valid = false) → ways[v].valid = false ∧
        ∀ u (hu : u < v), (ways[u]'(Nat.lt_trans hu hv)).valid = true) ∧
      ((∀ L ∈ ways, L.valid = true) → g.replacement ≠ .random →
        ∀ u (hu : u < ways.length), ways[v].ts.toNat ≤ ways[u].ts.toNat ∧
          (u < v → ways[v].ts.toNat < ways[u].ts.toNat)) ∧
      ((∀ L ∈ ways, L.valid = true) → g.replacement = .random →
        ∀ u, u < g.associativity → ∃ d, victimWay g ways d = u) ∧
      (takesDraw g ways = true ↔ g.replacement = .random ∧ ∀ L ∈ ways, L.valid = true)

/-- R97: a byte written under WriteThrough is in `M` at once and counts one write-back, hit or miss; a
resident or allocated line is updated, a bypassed block stays out, and no line is dirty. -/
def Obligations.WriteThroughRule : Prop :=
  ∀ (size : Nat) (x : MemSystem) (c : Cache) (a : Word) (b : Byte), x.Ok size → size < 2 ^ 64 →
    a.toNat < size → x.cache = some c → c.cfg.writePolicy = .writeThrough →
    let y := x.byteWrite size a b
    y.store.read a.toNat = b ∧ (∀ k, k ≠ a.toNat → y.store.read k = x.store.read k) ∧
    ∃ c', y.cache = some c' ∧ c'.stats.writebacks = c.stats.writebacks + 1 ∧
      (∀ s L, L ∈ c'.ways s → L.valid = true → L.dirty = false) ∧
      (Resident c a ∨ c.cfg.writeAllocate = true → Resident c' a ∧ y.peekByte a = b) ∧
      (¬ Resident c a → c.cfg.writeAllocate = false → c'.sets = c.sets ∧ ¬ Resident c' a)

/-- A byte written under WriteBack (21_cache.md section 4): a resident or allocated line takes it and is
dirty, and `M` keeps its byte; a bypassing write goes to `M` and changes no line and no write-back count. Not
counting the bypass is the spec's decision D14. -/
def Obligations.WriteBackRule : Prop :=
  ∀ (size : Nat) (x : MemSystem) (c : Cache) (a : Word) (b : Byte), x.Ok size → size < 2 ^ 64 →
    a.toNat < size → x.cache = some c → c.cfg.writePolicy = .writeBack →
    let y := x.byteWrite size a b
    ∃ c', y.cache = some c' ∧
      (Resident c a ∨ c.cfg.writeAllocate = true → y.store.read a.toNat = x.store.read a.toNat ∧
        ∃ w, hitWay (c'.ways (c.cfg.index a)) (c.cfg.tag a) = some w ∧
          (c'.line (c.cfg.index a) w).dirty = true ∧
          (c'.line (c.cfg.index a) w).data.getD (c.cfg.offset a) 0 = b) ∧
      (Resident c a → c'.stats.writebacks = c.stats.writebacks ∧ y.store = x.store) ∧
      (¬ Resident c a → c.cfg.writeAllocate = false → y.store.read a.toNat = b ∧
        (∀ k, k ≠ a.toNat → y.store.read k = x.store.read k) ∧ c'.sets = c.sets ∧
        c'.stats.writebacks = c.stats.writebacks)

/-- R111: the source's P4 and P5. After every byte access `hit_rate` is `hit_count / access_count` exactly;
in a direct-mapped cache an access evicts any other block of its set. -/
def Obligations.ExactRateAndDirectMapping : Prop :=
  ∀ (size : Nat) (x : MemSystem) (c : Cache) (a b : Word) (v : Byte), x.Ok size → size < 2 ^ 64 →
    a.toNat < size → b.toNat < size → x.cache = some c →
    (∃ c', (x.byteRead size a).2.cache = some c' ∧
      c'.stats.hitRate = (c'.stats.hitCount.toNat : Rat) / (c'.stats.accessCount.toNat : Rat)) ∧
    (∃ c', (x.byteWrite size a v).cache = some c' ∧
      c'.stats.hitRate = (c'.stats.hitCount.toNat : Rat) / (c'.stats.accessCount.toNat : Rat)) ∧
    (c.cfg.associativity = 1 → c.cfg.index a = c.cfg.index b → c.cfg.tag a ≠ c.cfg.tag b →
      ∃ c₁ c₂, (x.byteRead size a).2.cache = some c₁ ∧ Resident c₁ a ∧ ¬ Resident c₁ b ∧
        ((x.byteRead size a).2.byteRead size b).2.cache = some c₂ ∧ Resident c₂ b ∧ ¬ Resident c₂ a)

/-- Invalidate, disable and enable never change the current value of an address, and what each leaves of the
cache (21_cache.md sections 6 and 8; the source's P3); and the dump of `M` and the memory handle show `M` itself
and change nothing (70_reset_and_hazards.md section 3), which after an invalidate is the current value. Flushing
on disable is the spec's decision D18, and counting each line an invalidate flushes is D15. -/
def Obligations.MaintenanceKeepsView : Prop :=
  (∀ (size : Nat) (x : MemSystem) (r : CacheRequest), x.Ok size → size < 2 ^ 64 →
    ((x.invalidate size).Ok size ∧
      (∀ a : Word, a.toNat < size → (x.invalidate size).peekByte a = x.peekByte a ∧
        (x.invalidate size).store.read a.toNat = x.peekByte a) ∧
      (x.invalidate size).trace = x.trace ∧
      ∀ c, x.cache = some c → ∃ c', (x.invalidate size).cache = some c' ∧ c'.cfg = c.cfg ∧
        c'.traceEnable = c.traceEnable ∧ NoLineValid c' ∧ c'.clk = c.clk ∧
        c'.stats.writebacks = c.stats.writebacks + BitVec.ofNat 64 (flushCount c) ∧
        c'.stats.accessCount = c.stats.accessCount ∧ c'.stats.hitCount = c.stats.hitCount ∧
        c'.stats.missCount = c.stats.missCount) ∧
    ((x.disable size).Ok size ∧ (x.disable size).cache = none ∧
      ∀ a : Word, a.toNat < size → (x.disable size).peekByte a = x.peekByte a) ∧
    ((x.enable size r).2.Ok size ∧
      (∀ a : Word, a.toNat < size → (x.enable size r).2.peekByte a = x.peekByte a) ∧
      ∀ g, r.config = some g → ∃ c, (x.enable size r).2.cache = some c ∧ c.cfg = g ∧ NoLineValid c ∧
        c.clk = 0 ∧ c.stats.accessCount = 0 ∧ c.stats.hitCount = 0 ∧ c.stats.missCount = 0 ∧
        c.stats.writebacks = 0 ∧ c.stats.hitRate = 0)) ∧
  ∀ s : State, ∃ bytes, issue .getMemoryDump s = .next (s, .memory bytes) ∧
    bytes.length = s.params.memorySize ∧
    ∀ a, a < s.params.memorySize → bytes.getD a 0 = s.memSys.store.read a ∧
      issue (.getMemory a) s = .next (s, .byte (some (s.memSys.store.read a)))

/-- The trace (21_cache.md section 7): with tracing on, a byte access appends exactly one record, of its
direction, address, set, tag, hit or miss, and the line's dirty flag after it, which a read that hits finds as it
was and a read that misses clears; with tracing off or no cache, none. Clean for a bypassed write is the
spec's decision D17. -/
def Obligations.TraceRecords : Prop :=
  ∀ (size : Nat) (x : MemSystem) (a : Word) (b : Byte), x.Ok size → size < 2 ^ 64 → a.toNat < size →
    (x.cache = none → (x.byteRead size a).2.trace = x.trace ∧ (x.byteWrite size a b).trace = x.trace) ∧
    ∀ c, x.cache = some c →
      (c.traceEnable = false →
        (x.byteRead size a).2.trace = x.trace ∧ (x.byteWrite size a b).trace = x.trace) ∧
      (c.traceEnable = true →
        (∃ q : TraceRecord, (x.byteRead size a).2.trace = x.trace ++ [q] ∧ q.dir = .read ∧ q.address = a ∧
          q.set = c.cfg.index a ∧ q.tag = c.cfg.tag a ∧ (q.hit = true ↔ Resident c a) ∧
          (q.dirty = true ↔ LineDirty c a) ∧
          ∃ c', (x.byteRead size a).2.cache = some c' ∧ (q.dirty = true ↔ LineDirty c' a)) ∧
        (∃ q : TraceRecord, (x.byteWrite size a b).trace = x.trace ++ [q] ∧ q.dir = .write ∧
          q.address = a ∧ q.set = c.cfg.index a ∧ q.tag = c.cfg.tag a ∧ (q.hit = true ↔ Resident c a) ∧
          (q.dirty = true ↔ c.cfg.writePolicy = .writeBack ∧
            (Resident c a ∨ c.cfg.writeAllocate = true)) ∧
          ∃ c', (x.byteWrite size a b).cache = some c' ∧ (q.dirty = true ↔ LineDirty c' a)))

/-! ## The run loops and the tracker -/

/-- The run loops (50_step_and_run.md section 3): whatever a run returns, it has made some number of steps of
status 0, and then either the poll stopped it (status 0, the spec's decision D34), or the poll answers ran out,
or one more step returned the status of the run. -/
def Obligations.RunLoopSteps : Prop :=
  ∀ (polls : List Poll) (s t : State) (st : Option Status), runLoop polls s = .next (t, st) →
    (st = none ∧ NormalSteps polls.length s t ∧ ∀ p ∈ polls, p = .proceed) ∨
    (∃ k u, k < polls.length ∧ NormalSteps k s u ∧ (∀ j, j < k → polls[j]? = some .proceed) ∧
      ((polls[k]? = some .stop ∧ t = u ∧ st = some .normal) ∨
       (polls[k]? = some .proceed ∧ step u = .next t ∧ st = t.lastStatus ∧ st ≠ some .normal ∧ st ≠ none)))

/-- Lines and owning labels (50_step_and_run.md section 5): the line of an address is its word index, or the
entry of the table given for it (beyond the table it is free, log entry 5); a refresh replaces the line of the top
frame alone; in the deduplicated table no two labels share a start, each start keeps its first label, and the
owner of a line is the label of the greatest start not beyond it. The line without a table, the empty stack and no
owner without such a label are the spec's decision D37. -/
def Obligations.OwnerOfLine : Prop :=
  (∀ (s : State) (a : Word),
    (s.lineTable = none → s.lineAt a = a.toNat / 4) ∧
    ∀ (lines : List Nat) (l : Nat), s.lineTable = some lines → lines[a.toNat / 4]? = some l →
      s.lineAt a = l) ∧
  (∀ line : Nat, refreshTop line [] = [] ∧
    ∀ (f : Frame) (fs : List Frame), refreshTop line (f :: fs) = { line := line, owner := f.owner } :: fs) ∧
  ∀ labels : List Label,
    (dedupLabels labels).Pairwise (fun k l => k.start ≠ l.start) ∧
    (∀ l ∈ labels, ∃ k ∈ dedupLabels labels, k.start = l.start ∧
      labels.find? (fun j => j.start = l.start) = some k) ∧
    (∀ k ∈ dedupLabels labels, k ∈ labels) ∧
    ∀ line : Nat,
      (∀ i, ownerOf (dedupLabels labels) line = some i → ∃ l, (dedupLabels labels)[i]? = some l ∧
        l.start ≤ line ∧ ∀ k ∈ dedupLabels labels, k.start ≤ line → k.start ≤ l.start) ∧
      (ownerOf (dedupLabels labels) line = none ↔ ∀ k ∈ dedupLabels labels, line < k.start)

end
end

