-- ==== Sys2Proof/Laws/Geometry.lean ====
section
/-! SUPPORT. The address decomposition of the Cache Model (R84, R103) in integer arithmetic, for
geometries whose block size and number of sets are powers of two (R82). -/

namespace Sys2Proof.Machine

/-- What `isPow2` decides. -/
theorem isPow2_iff {n : Nat} : isPow2 n = true ↔ ∃ k, n = 2 ^ k := by
  by_cases h0 : n = 0
  · subst h0
    have h : ∀ k, 0 ≠ 2 ^ k := fun k => (Nat.two_pow_pos k).ne
    simp [isPow2, h]
  · have := Nat.and_sub_one_eq_zero_iff_isPowerOfTwo h0
    simp [isPow2, h0, this, Nat.isPowerOfTwo]

theorem isPow2_pos {n : Nat} (h : isPow2 n = true) : 0 < n := by
  obtain ⟨k, rfl⟩ := isPow2_iff.mp h
  exact Nat.two_pow_pos k

theorem testBit_index_mask (b k i : Nat) :
    ((2 ^ k - 1) * 2 ^ b).testBit i = (decide (b ≤ i) && decide (i < b + k)) := by
  rw [Nat.testBit_mul_two_pow, Nat.testBit_two_pow_sub_one]
  by_cases h : b ≤ i
  · simp only [h, decide_true, Bool.true_and, decide_eq_decide]; omega
  · simp [h]

theorem getLsbD_two_pow_sub_one (b i : Nat) (hi : i < 64) :
    (BitVec.ofNat 64 (2 ^ b - 1)).getLsbD i = decide (i < b) := by
  rw [BitVec.getLsbD_ofNat, Nat.testBit_two_pow_sub_one]
  simp [hi]

theorem getLsbD_index_mask (b k i : Nat) (hi : i < 64) :
    (BitVec.ofNat 64 ((2 ^ k - 1) * 2 ^ b)).getLsbD i = (decide (b ≤ i) && decide (i < b + k)) := by
  rw [BitVec.getLsbD_ofNat, testBit_index_mask]
  simp [hi]

theorem testBit_toNat_of_le (v : Word) {i : Nat} (hi : ¬ i < 64) : v.toNat.testBit i = false :=
  Nat.testBit_lt_two_pow (Nat.lt_of_lt_of_le v.isLt (Nat.pow_le_pow_right (by decide) (by omega)))

section
variable {g : CacheConfig}

/-- The offset is the address modulo the block size. -/
theorem CacheConfig.offset_eq (hb : isPow2 g.blockSize = true) (a : Word) :
    g.offset a = a.toNat % g.blockSize := by
  obtain ⟨b, hb⟩ := isPow2_iff.mp hb
  rw [CacheConfig.offset, CacheConfig.offsetMask, hb, ← Nat.and_two_pow_sub_one_eq_mod]
  apply Nat.eq_of_testBit_eq
  intro i
  rw [Nat.testBit_and, Nat.testBit_two_pow_sub_one]
  by_cases hi : i < 64
  · rw [BitVec.testBit_toNat, BitVec.getLsbD_and, getLsbD_two_pow_sub_one _ _ hi, BitVec.testBit_toNat]
  · simp only [testBit_toNat_of_le _ hi, Bool.false_and]

/-- The index is the block number modulo the number of sets. -/
theorem CacheConfig.index_eq (hb : isPow2 g.blockSize = true) (hn : isPow2 g.nLines = true)
    (a : Word) : g.index a = a.toNat / g.blockSize % g.nLines := by
  obtain ⟨b, hb⟩ := isPow2_iff.mp hb
  obtain ⟨k, hk⟩ := isPow2_iff.mp hn
  rw [CacheConfig.index, CacheConfig.indexMask, hb, hk]
  apply Nat.eq_of_testBit_eq
  intro i
  rw [Nat.testBit_div_two_pow, Nat.testBit_mod_two_pow, Nat.testBit_div_two_pow, BitVec.toNat_and,
    Nat.testBit_and, BitVec.toNat_ofNat, Nat.testBit_mod_two_pow, testBit_index_mask]
  by_cases hi : i + b < 64
  · simp only [hi, decide_true, Bool.true_and, Nat.le_add_left]
    rw [Bool.and_comm]
    congr 1
    simp only [decide_eq_decide]; omega
  · simp [testBit_toNat_of_le _ hi]

/-- The tag is the address rounded down to the reach of the sets. -/
theorem CacheConfig.tag_eq (hb : isPow2 g.blockSize = true) (hn : isPow2 g.nLines = true)
    (a : Word) : (g.tag a).toNat = a.toNat / (g.blockSize * g.nLines) * (g.blockSize * g.nLines) := by
  obtain ⟨b, hb⟩ := isPow2_iff.mp hb
  obtain ⟨k, hk⟩ := isPow2_iff.mp hn
  rw [CacheConfig.tag, CacheConfig.offsetMask, CacheConfig.indexMask, hb, hk, ← Nat.pow_add]
  apply Nat.eq_of_testBit_eq
  intro i
  rw [Nat.testBit_mul_two_pow, Nat.testBit_div_two_pow]
  by_cases hi : i < 64
  · rw [BitVec.testBit_toNat, BitVec.getLsbD_and, BitVec.getLsbD_and, BitVec.getLsbD_not,
      BitVec.getLsbD_not, getLsbD_index_mask _ _ _ hi, getLsbD_two_pow_sub_one _ _ hi]
    by_cases h1 : b + k ≤ i
    · rw [show i - (b + k) + (b + k) = i by omega, BitVec.testBit_toNat]
      simp [hi, h1, show ¬ i < b + k by omega, show ¬ i < b by omega]
    · by_cases h2 : i < b
      · simp [h1, h2]
      · simp [h1, show b ≤ i by omega, show i < b + k by omega]
  · have hz : ∀ v : Word, v.toNat.testBit i = false := fun v => testBit_toNat_of_le v hi
    rw [hz]
    by_cases h1 : b + k ≤ i
    · simp [h1, hz]
    · simp [h1]

/-- The base of the block of an address (R103). -/
theorem CacheConfig.base_eq (hb : isPow2 g.blockSize = true) (a : Word) :
    (g.base a).toNat = a.toNat / g.blockSize * g.blockSize := by
  obtain ⟨b, hb⟩ := isPow2_iff.mp hb
  rw [CacheConfig.base, CacheConfig.offsetMask, hb]
  apply Nat.eq_of_testBit_eq
  intro i
  rw [Nat.testBit_mul_two_pow, Nat.testBit_div_two_pow]
  by_cases hi : i < 64
  · rw [BitVec.testBit_toNat, BitVec.getLsbD_and, BitVec.getLsbD_not, getLsbD_two_pow_sub_one _ _ hi]
    by_cases h1 : b ≤ i
    · rw [show i - b + b = i by omega, BitVec.testBit_toNat]
      simp [hi, h1, show ¬ i < b by omega]
    · simp [h1, show i < b by omega]
  · have hz : ∀ v : Word, v.toNat.testBit i = false := fun v => testBit_toNat_of_le v hi
    rw [hz]
    by_cases h1 : b ≤ i
    · simp [h1, hz]
    · simp [h1]

theorem CacheConfig.offset_lt (hb : isPow2 g.blockSize = true) (a : Word) :
    g.offset a < g.blockSize := by
  rw [CacheConfig.offset_eq hb]
  exact Nat.mod_lt _ (isPow2_pos hb)

theorem CacheConfig.index_lt (hb : isPow2 g.blockSize = true) (hn : isPow2 g.nLines = true)
    (a : Word) : g.index a < g.nLines := by
  rw [CacheConfig.index_eq hb hn]
  exact Nat.mod_lt _ (isPow2_pos hn)

/-- The block of an address is the one its index and tag name (R103). -/
theorem CacheConfig.blockAddr_eq_base (hb : isPow2 g.blockSize = true) (hn : isPow2 g.nLines = true)
    (a : Word) : g.blockAddr (g.index a) (g.tag a) = (g.base a).toNat := by
  rw [CacheConfig.blockAddr, CacheConfig.tag_eq hb hn, CacheConfig.index_eq hb hn,
    CacheConfig.base_eq hb, ← Nat.div_div_eq_div_mul]
  have := Nat.div_add_mod (a.toNat / g.blockSize) g.nLines
  generalize a.toNat / g.blockSize / g.nLines = q at *
  generalize a.toNat / g.blockSize % g.nLines = r at *
  rw [← this]
  ring

/-- An address is its block's base plus its offset. -/
theorem CacheConfig.base_add_offset (hb : isPow2 g.blockSize = true) (a : Word) :
    (g.base a).toNat + g.offset a = a.toNat := by
  rw [CacheConfig.base_eq hb, CacheConfig.offset_eq hb]
  exact Nat.div_add_mod' _ _

theorem CacheConfig.tag_tag (hb : isPow2 g.blockSize = true) (hn : isPow2 g.nLines = true)
    (a : Word) : g.tag (g.tag a) = g.tag a := by
  apply BitVec.eq_of_toNat_eq
  have hpos : 0 < g.blockSize * g.nLines := Nat.mul_pos (isPow2_pos hb) (isPow2_pos hn)
  rw [CacheConfig.tag_eq hb hn, CacheConfig.tag_eq hb hn, Nat.mul_div_cancel _ hpos]

/-- An address lies in the block of set `s` with tag `t` exactly when they are its index and tag. -/
theorem CacheConfig.mem_block_iff (hb : isPow2 g.blockSize = true) (hn : isPow2 g.nLines = true)
    {s : Nat} {t : Word} (hs : s < g.nLines) (ht : g.tag t = t) (a : Word) :
    (g.blockAddr s t ≤ a.toNat ∧ a.toNat < g.blockAddr s t + g.blockSize) ↔
      (g.index a = s ∧ g.tag a = t) := by
  constructor
  · rintro ⟨hlo, hhi⟩
    have htn := CacheConfig.tag_eq hb hn t
    rw [ht] at htn
    have hbp := isPow2_pos hb
    have hnp := isPow2_pos hn
    rw [CacheConfig.blockAddr] at hlo hhi
    have hq : a.toNat / g.blockSize = t.toNat / (g.blockSize * g.nLines) * g.nLines + s := by
      apply Nat.div_eq_of_lt_le
      · rw [htn] at hlo
        calc _ = t.toNat / (g.blockSize * g.nLines) * (g.blockSize * g.nLines) + s * g.blockSize := by ring
          _ ≤ _ := hlo
      · rw [htn] at hhi
        calc _ < _ := hhi
          _ = _ := by ring
    constructor
    · rw [CacheConfig.index_eq hb hn, hq, Nat.mul_add_mod', Nat.mod_eq_of_lt hs]
    · apply BitVec.eq_of_toNat_eq
      rw [CacheConfig.tag_eq hb hn, ← Nat.div_div_eq_div_mul, hq]
      rw [Nat.mul_comm _ g.nLines, Nat.mul_add_div hnp, Nat.div_eq_of_lt hs, Nat.add_zero, ← htn]
  · rintro ⟨rfl, rfl⟩
    have h1 := CacheConfig.base_add_offset hb a
    have h2 := CacheConfig.offset_lt hb a
    rw [CacheConfig.blockAddr_eq_base hb hn]
    omega

/-- An address in the block of a line lies at its own offset there. -/
theorem CacheConfig.sub_blockAddr (hb : isPow2 g.blockSize = true) (hn : isPow2 g.nLines = true)
    (a : Word) : a.toNat - g.blockAddr (g.index a) (g.tag a) = g.offset a := by
  have h1 := CacheConfig.base_add_offset hb a
  rw [CacheConfig.blockAddr_eq_base hb hn]
  omega

end

end Sys2Proof.Machine
end

