-- ==== Sys2Proof/Laws/Memory.lean ====
section
/-! SUPPORT. The laws of the Memory Store: read after write, and that every memory operation keeps the
canonical form. -/

namespace Sys2Proof.Machine

theorem Memory.wf_cons {a : Nat} {b : Byte} {m : Memory} :
    Memory.wf ((a, b) :: m) = true ↔ b ≠ 0 ∧ (∀ c ∈ m, a < c.1) ∧ Memory.wf m = true := by
  simp [Memory.wf, and_assoc]

/-- Below every listed address a memory reads as 0. -/
theorem Memory.read_eq_zero_of_lt {m : Memory} {a : Nat} (h : ∀ c ∈ m, a < c.1) :
    m.read a = 0 := by
  induction m with
  | nil => rfl
  | cons c m ih =>
    have hc := h c (by simp)
    simp only [Memory.read]
    rw [if_neg (by omega)]
    exact ih fun d hd => h d (by simp [hd])

theorem Memory.mem_write {m : Memory} {a : Nat} {b : Byte} {c : Host.Cell}
    (h : c ∈ m.write a b) : c ∈ m ∨ (c = (a, b) ∧ b ≠ 0) := by
  induction m with
  | nil =>
    unfold Memory.write at h
    split at h <;> simp_all
  | cons d m ih =>
    obtain ⟨k, e⟩ := d
    unfold Memory.write at h
    repeat' split at h
    all_goals simp only [List.mem_cons] at h ⊢
    all_goals grind

/-- A write keeps the canonical form. -/
theorem Memory.write_wf {m : Memory} (h : m.wf = true) (a : Nat) (b : Byte) :
    (m.write a b).wf = true := by
  induction m with
  | nil => unfold Memory.write; split <;> simp_all [Memory.wf]
  | cons d m ih =>
    obtain ⟨k, e⟩ := d
    obtain ⟨he, hk, hm⟩ := Memory.wf_cons.mp h
    unfold Memory.write
    split
    · split
      · exact h
      · rename_i hlt hb
        refine Memory.wf_cons.mpr ⟨hb, ?_, h⟩
        intro c hc
        rcases List.mem_cons.mp hc with rfl | hc
        · exact hlt
        · exact Nat.lt_trans hlt (hk c hc)
    · split
      · split
        · exact hm
        · rename_i heq hb
          exact Memory.wf_cons.mpr ⟨hb, fun c hc => heq ▸ hk c hc, hm⟩
      · refine Memory.wf_cons.mpr ⟨he, ?_, ih hm⟩
        intro c hc
        rcases Memory.mem_write hc with hc | ⟨rfl, -⟩
        · exact hk c hc
        · show k < a
          omega

/-- A write at a backed address keeps every address backed. -/
theorem Memory.write_within {size : Nat} {m : Memory} (h : m.within size = true) {a : Nat}
    (ha : a < size) (b : Byte) : (m.write a b).within size = true := by
  simp only [Memory.within, List.all_eq_true, decide_eq_true_eq] at h ⊢
  intro c hc
  rcases Memory.mem_write hc with hc | ⟨rfl, -⟩
  · exact h c hc
  · exact ha

/-- Reading back what was written. -/
theorem Memory.read_write_same {m : Memory} (h : m.wf = true) (a : Nat) (b : Byte) :
    (m.write a b).read a = b := by
  induction m with
  | nil => unfold Memory.write; split <;> simp_all [Memory.read]
  | cons d m ih =>
    obtain ⟨k, e⟩ := d
    obtain ⟨-, hk, hm⟩ := Memory.wf_cons.mp h
    unfold Memory.write
    split
    · rename_i hlt
      split
      · rename_i hb
        rw [hb, Memory.read, if_neg (by omega)]
        exact Memory.read_eq_zero_of_lt fun c hc => Nat.lt_trans hlt (hk c hc)
      · simp [Memory.read]
    · split
      · rename_i heq
        split
        · rename_i hb
          rw [hb]
          exact Memory.read_eq_zero_of_lt fun c hc => heq ▸ hk c hc
        · simp [Memory.read]
      · rename_i hne
        simp [Memory.read, hne, ih hm]

/-- A write leaves every other address alone. -/
theorem Memory.read_write_other {m : Memory} {a a' : Nat} (hne : a' ≠ a) (b : Byte) :
    (m.write a b).read a' = m.read a' := by
  induction m with
  | nil => unfold Memory.write; split <;> simp_all [Memory.read]
  | cons d m ih =>
    obtain ⟨k, e⟩ := d
    unfold Memory.write
    repeat' split
    all_goals simp_all [Memory.read]

/-- The two read-after-write laws in one. -/
theorem Memory.read_write {m : Memory} (h : m.wf = true) (a a' : Nat) (b : Byte) :
    (m.write a b).read a' = if a' = a then b else m.read a' := by
  split
  · rename_i he
    rw [he, Memory.read_write_same h]
  · rename_i he
    rw [Memory.read_write_other he]

/-- A backed memory reads 0 at and past its size. -/
theorem Memory.read_eq_zero_of_size_le {size : Nat} {m : Memory} (h : m.within size = true) {a : Nat}
    (ha : size ≤ a) : m.read a = 0 := by
  induction m with
  | nil => rfl
  | cons c m ih =>
    simp only [Memory.within, List.all_cons, Bool.and_eq_true, decide_eq_true_eq] at h
    simp only [Memory.read]
    rw [if_neg (by omega)]
    exact ih h.2

/-! ## Blocks -/

@[simp] theorem Memory.readBlock_length (size : Nat) (m : Memory) (a n : Nat) :
    (m.readBlock size a n).length = n := by
  induction n generalizing a with
  | zero => rfl
  | succ n ih => simp [Memory.readBlock, ih]

theorem Memory.readBlock_getD (size : Nat) (m : Memory) (a n k : Nat) (hk : k < n) :
    (m.readBlock size a n).getD k 0 = if a + k < size then m.read (a + k) else 0 := by
  induction n generalizing a k with
  | zero => omega
  | succ n ih =>
    cases k with
    | zero => simp [Memory.readBlock]
    | succ k =>
      have := ih (a + 1) k (by omega)
      simp only [Memory.readBlock, List.getD_cons_succ, this]
      rw [show a + 1 + k = a + (k + 1) by omega]

@[simp] theorem Memory.dump_length (size : Nat) (m : Memory) : (m.dump size).length = size :=
  Memory.readBlock_length size m 0 size

/-- The dump shows the store's own byte at every backed address. -/
theorem Memory.dump_getD {size k : Nat} (m : Memory) (hk : k < size) : (m.dump size).getD k 0 = m.read k := by
  rw [Memory.dump, Memory.readBlock_getD _ _ _ _ _ hk, Nat.zero_add, if_pos hk]

/-- A block read depends only on the bytes of the block. -/
theorem Memory.readBlock_congr {size : Nat} {m m' : Memory} {a n : Nat}
    (h : ∀ k, k < n → a + k < size → m.read (a + k) = m'.read (a + k)) :
    m.readBlock size a n = m'.readBlock size a n := by
  induction n generalizing a with
  | zero => rfl
  | succ n ih =>
    simp only [Memory.readBlock]
    congr 1
    · have := h 0 (by omega)
      simp only [Nat.add_zero] at this
      split
      · rename_i hs; exact this hs
      · rfl
    · refine ih fun k hk hs => ?_
      have := h (k + 1) (by omega)
      rw [show a + (k + 1) = a + 1 + k by omega] at this
      exact this hs

theorem Memory.writeBlock_wf {size : Nat} {m : Memory} (h : m.wf = true) (a : Nat) (bs : List Byte) :
    (m.writeBlock size a bs).wf = true := by
  induction bs generalizing m a with
  | nil => exact h
  | cons b bs ih =>
    unfold Memory.writeBlock
    split
    · exact ih (Memory.write_wf h a b) _
    · exact ih h _

theorem Memory.writeBlock_within {size : Nat} {m : Memory} (h : m.within size = true) (a : Nat)
    (bs : List Byte) : (m.writeBlock size a bs).within size = true := by
  induction bs generalizing m a with
  | nil => exact h
  | cons b bs ih =>
    unfold Memory.writeBlock
    split
    · rename_i ha
      exact ih (Memory.write_within h ha b) _
    · exact ih h _

/-- What a block write leaves at every address: the block's bytes inside it, below `size`, and the old
byte elsewhere. -/
theorem Memory.read_writeBlock {size : Nat} {m : Memory} (h : m.wf = true) (a : Nat) (bs : List Byte)
    (x : Nat) : (m.writeBlock size a bs).read x =
      if a ≤ x ∧ x < a + bs.length ∧ x < size then bs.getD (x - a) 0 else m.read x := by
  induction bs generalizing m a with
  | nil =>
    rw [if_neg (by simp only [List.length_nil]; omega)]
    rfl
  | cons b bs ih =>
    have hw : (if a < size then m.write a b else m).wf = true := by
      split
      · exact Memory.write_wf h a b
      · exact h
    unfold Memory.writeBlock
    rw [ih hw]
    simp only [List.length_cons]
    by_cases hx : x = a
    · subst hx
      rw [if_neg (by omega)]
      by_cases hs : x < size
      · rw [if_pos hs, Memory.read_write_same h, if_pos (by omega)]
        simp
      · rw [if_neg hs, if_neg (by omega)]
    · have ho : (if a < size then m.write a b else m).read x = m.read x := by
        split
        · exact Memory.read_write_other hx b
        · rfl
      rw [ho]
      by_cases hin : a + 1 ≤ x ∧ x < a + 1 + bs.length ∧ x < size
      · rw [if_pos hin, if_pos (by omega), show x - a = (x - (a + 1)) + 1 by omega]
        simp
      · rw [if_neg hin, if_neg (by omega)]

end Sys2Proof.Machine
end

