-- ==== Sys2Proof/Laws/Cache.lean ====
section
/-! SUPPORT. The laws of the Cache Model: one lemma for each of its operations, which says what the
operation does to the coherence of cache and store and to the coherent view. -/

namespace Sys2Proof.Machine

variable {size : Nat} {m m' : Memory} {c c' : Cache} {a : Word}

/-! ## Lines and ways -/

theorem Cache.line_eq_getElem {s w : Nat} (h : w < (c.ways s).length) :
    c.line s w = (c.ways s)[w] := by
  simp [Cache.line, h]

theorem Cache.line_mem {s w : Nat} (h : w < (c.ways s).length) : c.line s w ∈ c.ways s := by
  rw [Cache.line_eq_getElem h]
  exact List.getElem_mem h

theorem Cache.exists_line_of_mem {s : Nat} {L : Line} (h : L ∈ c.ways s) :
    ∃ w, w < (c.ways s).length ∧ c.line s w = L := by
  obtain ⟨w, hw, rfl⟩ := List.getElem_of_mem h
  exact ⟨w, hw, Cache.line_eq_getElem hw⟩

theorem Cache.ways_setLine (s w : Nat) (L : Line) (s' : Nat) :
    (c.setLine s w L).ways s' = if s' = s then (c.ways s).set w L else c.ways s' := by
  simp only [Cache.setLine, Cache.ways, List.getD_eq_getElem?_getD, List.getElem?_set]
  split
  · rename_i h
    subst h
    simp only [if_true]
    split
    · rfl
    · rename_i hl
      simp [List.getElem?_eq_none (Nat.le_of_not_lt hl)]
  · rename_i h
    rw [if_neg (fun h' => h h'.symm)]

@[simp] theorem Cache.cfg_setLine (s w : Nat) (L : Line) : (c.setLine s w L).cfg = c.cfg := rfl
@[simp] theorem Cache.stats_setLine (s w : Nat) (L : Line) : (c.setLine s w L).stats = c.stats := rfl
@[simp] theorem Cache.clk_setLine (s w : Nat) (L : Line) : (c.setLine s w L).clk = c.clk := rfl
@[simp] theorem Cache.traceEnable_setLine (s w : Nat) (L : Line) :
    (c.setLine s w L).traceEnable = c.traceEnable := rfl
@[simp] theorem Cache.length_sets_setLine (s w : Nat) (L : Line) :
    (c.setLine s w L).sets.length = c.sets.length := by simp [Cache.setLine]
@[simp] theorem Cache.length_ways_setLine (s w : Nat) (L : Line) (s' : Nat) :
    ((c.setLine s w L).ways s').length = (c.ways s').length := by
  rw [Cache.ways_setLine]
  split <;> simp_all

theorem Cache.line_setLine_same {s w : Nat} (h : w < (c.ways s).length) (L : Line) :
    (c.setLine s w L).line s w = L := by
  simp [Cache.line, Cache.ways_setLine, h]

theorem Cache.line_setLine_other {s w s' w' : Nat} (h : ¬ (s' = s ∧ w' = w)) (L : Line) :
    (c.setLine s w L).line s' w' = c.line s' w' := by
  simp only [Cache.line, Cache.ways_setLine, Cache.cfg_setLine]
  split
  · rename_i hs
    subst hs
    have hw : w ≠ w' := fun e => h ⟨rfl, e.symm⟩
    simp [List.getD_eq_getElem?_getD, hw]
  · rfl

/-! ## The hit test (R86) -/

theorem hitWay_some {ws : List Line} {t : Word} {w : Nat} (h : hitWay ws t = some w) :
    ∃ hw : w < ws.length, ws[w].valid = true ∧ ws[w].tag = t := by
  obtain ⟨hw, hp, -⟩ := List.findIdx?_eq_some_iff_getElem.mp h
  exact ⟨hw, by simpa using hp⟩

theorem hitWay_none {ws : List Line} {t : Word} (h : hitWay ws t = none) :
    ∀ L ∈ ws, L.valid = true → L.tag ≠ t := by
  intro L hL hv ht
  have := List.findIdx?_eq_none_iff.mp h L hL
  simp [hv, ht] at this

theorem Cache.hitWay_some {s w : Nat} {t : Word} (h : hitWay (c.ways s) t = some w) :
    w < (c.ways s).length ∧ (c.line s w).valid = true ∧ (c.line s w).tag = t := by
  obtain ⟨hw, h1, h2⟩ := Machine.hitWay_some h
  rw [Cache.line_eq_getElem hw]
  exact ⟨hw, h1, h2⟩

theorem Cache.hitWay_none {s w : Nat} {t : Word} (h : hitWay (c.ways s) t = none)
    (hw : w < (c.ways s).length) (hv : (c.line s w).valid = true) : (c.line s w).tag ≠ t :=
  Machine.hitWay_none h _ (Cache.line_mem hw) hv

/-- In a set where no two valid ways have one tag, a valid way with the tag is the way that hits. -/
theorem Cache.hitWay_eq {s w : Nat} {t : Word}
    (one : ∀ v w, v < (c.ways s).length → w < (c.ways s).length → (c.line s v).valid = true →
      (c.line s w).valid = true → (c.line s v).tag = (c.line s w).tag → v = w)
    (hw : w < (c.ways s).length) (hv : (c.line s w).valid = true) (ht : (c.line s w).tag = t) :
    hitWay (c.ways s) t = some w := by
  cases h : hitWay (c.ways s) t with
  | none => exact absurd ht (Cache.hitWay_none h hw hv)
  | some v =>
    obtain ⟨hv1, hv2, hv3⟩ := Cache.hitWay_some h
    rw [one v w hv1 hw hv2 hv (hv3.trans ht.symm)]

theorem Cache.Coherent.hitWay_eq (h : c.Coherent size m) {s w : Nat} {t : Word}
    (hw : w < (c.ways s).length) (hv : (c.line s w).valid = true) (ht : (c.line s w).tag = t) :
    hitWay (c.ways s) t = some w :=
  Cache.hitWay_eq (h.one_way s) hw hv ht

/-! ## Coherence -/

/-- Coherence and the coherent view depend on the configuration and the lines alone. -/
theorem Cache.Coherent.congr (h : c.Coherent size m) (hc : c'.cfg = c.cfg)
    (hs : c'.sets = c.sets) : c'.Coherent size m := by
  obtain ⟨g, t, ss, k, st⟩ := c
  obtain ⟨g', t', ss', k', st'⟩ := c'
  obtain rfl : g' = g := hc
  obtain rfl : ss' = ss := hs
  exact ⟨h.block_pow2, h.lines_pow2, h.ways_pow2, h.set_count, h.way_count, h.data_length, h.one_way,
    h.agrees⟩

theorem Cache.peek_congr (hc : c'.cfg = c.cfg) (hs : c'.sets = c.sets) (m : Memory) (a : Word) :
    c'.peek m a = c.peek m a := by
  obtain ⟨g, t, ss, k, st⟩ := c
  obtain ⟨g', t', ss', k', st'⟩ := c'
  obtain rfl : g' = g := hc
  obtain rfl : ss' = ss := hs
  rfl

theorem Cache.Coherent.index_lt (h : c.Coherent size m) (a : Word) :
    c.cfg.index a < c.cfg.nLines :=
  CacheConfig.index_lt h.block_pow2 h.lines_pow2 a

theorem Cache.Coherent.ways_length (h : c.Coherent size m) (a : Word) :
    (c.ways (c.cfg.index a)).length = c.cfg.associativity :=
  h.way_count _ (h.index_lt a)

/-- There is no set past the last. -/
theorem Cache.Coherent.set_lt (h : c.Coherent size m) {s : Nat} {L : Line} (hL : L ∈ c.ways s) :
    s < c.cfg.nLines := by
  by_contra hs
  have : c.ways s = [] := by
    rw [Cache.ways, List.getD_eq_getElem?_getD, List.getElem?_eq_none (by rw [h.set_count]; omega)]
    rfl
  rw [this] at hL
  exact absurd hL (by simp)

/-- The coherent view of an address that a valid way holds. -/
theorem Cache.peek_of_hit {w : Nat} (h : hitWay (c.ways (c.cfg.index a)) (c.cfg.tag a) = some w)
    (m : Memory) : c.peek m a = (c.line (c.cfg.index a) w).data.getD (c.cfg.offset a) 0 := by
  simp [Cache.peek, h]

theorem Cache.peek_of_miss (h : hitWay (c.ways (c.cfg.index a)) (c.cfg.tag a) = none) (m : Memory) :
    c.peek m a = m.read a.toNat := by
  simp [Cache.peek, h]

/-- A byte of a block as it stands in the store. -/
theorem Cache.Coherent.readBlock_offset (h : c.Coherent size m) (m' : Memory) (ha : a.toNat < size) :
    (m'.readBlock size (c.cfg.blockAddr (c.cfg.index a) (c.cfg.tag a)) c.cfg.blockSize).getD
      (c.cfg.offset a) 0 = m'.read a.toNat := by
  rw [Memory.readBlock_getD _ _ _ _ _ (CacheConfig.offset_lt h.block_pow2 a),
    CacheConfig.blockAddr_eq_base h.block_pow2 h.lines_pow2,
    CacheConfig.base_add_offset h.block_pow2, if_pos ha]

/-- A valid clean way shows what the store holds. -/
theorem Cache.Coherent.clean_byte (h : c.Coherent size m) (ha : a.toNat < size) {w : Nat}
    (hw : hitWay (c.ways (c.cfg.index a)) (c.cfg.tag a) = some w)
    (hd : (c.line (c.cfg.index a) w).dirty = false) :
    (c.line (c.cfg.index a) w).data.getD (c.cfg.offset a) 0 = m.read a.toNat := by
  obtain ⟨h1, h2, h3⟩ := Cache.hitWay_some hw
  rw [(h.agrees _ _ (Cache.line_mem h1) h2).clean hd, h3, h.readBlock_offset m ha]

/-- Replacing one line keeps coherence if the new line agrees with the store and shares its tag with
no other valid way of the set. -/
theorem Cache.Coherent.setLine (h : c.Coherent size m) {s w : Nat} {L : Line}
    (hlen : L.data.length = c.cfg.blockSize) (hag : L.valid = true → L.Agrees size c.cfg m s)
    (huniq : ∀ v, v < (c.ways s).length → v ≠ w → (c.line s v).valid = true → L.valid = true →
      (c.line s v).tag ≠ L.tag) : (c.setLine s w L).Coherent size m := by
  have mem : ∀ s' K, K ∈ (c.setLine s w L).ways s' → K ∈ c.ways s' ∨ (s' = s ∧ K = L) := by
    intro s' K hK
    rw [Cache.ways_setLine] at hK
    split at hK
    · rename_i hs
      subst hs
      rcases List.mem_or_eq_of_mem_set hK with h' | h'
      · exact .inl h'
      · exact .inr ⟨rfl, h'⟩
    · exact .inl hK
  refine ⟨h.block_pow2, h.lines_pow2, h.ways_pow2, ?_, ?_, ?_, ?_, ?_⟩
  · simpa using h.set_count
  · intro s' hs'
    simpa using h.way_count s' hs'
  · intro s' K hK
    rcases mem s' K hK with hK | ⟨-, rfl⟩
    · exact h.data_length s' K hK
    · exact hlen
  · intro s' u v hu hv
    rw [Cache.length_ways_setLine] at hu hv
    by_cases hs : s' = s
    · subst hs
      by_cases hu' : u = w <;> by_cases hv' : v = w
      · omega
      · subst hu'
        rw [Cache.line_setLine_same hu, Cache.line_setLine_other (by omega)]
        intro h1 h2 h3
        exact absurd h3.symm (huniq v hv hv' h2 h1)
      · subst hv'
        rw [Cache.line_setLine_same hv, Cache.line_setLine_other (by omega)]
        intro h1 h2 h3
        exact absurd h3 (huniq u hu hu' h1 h2)
      · rw [Cache.line_setLine_other (by omega), Cache.line_setLine_other (by omega)]
        exact h.one_way s' u v hu hv
    · rw [Cache.line_setLine_other (by omega), Cache.line_setLine_other (by omega)]
      exact h.one_way s' u v hu hv
  · intro s' K hK hv
    rcases mem s' K hK with hK | ⟨rfl, rfl⟩
    · exact h.agrees s' K hK hv
    · exact hag hv

/-- A change of the store that no clean valid line sees keeps coherence. -/
theorem Cache.Coherent.store (h : c.Coherent size m)
    (hm : ∀ s L, L ∈ c.ways s → L.valid = true → L.dirty = false →
      m'.readBlock size (c.cfg.blockAddr s L.tag) c.cfg.blockSize =
        m.readBlock size (c.cfg.blockAddr s L.tag) c.cfg.blockSize) : c.Coherent size m' := by
  refine ⟨h.block_pow2, h.lines_pow2, h.ways_pow2, h.set_count, h.way_count, h.data_length, h.one_way, ?_⟩
  intro s L hL hv
  have hag := h.agrees s L hL hv
  exact ⟨hag.tag_clear, fun hd => (hag.clean hd).trans (hm s L hL hv hd).symm, hag.dirty⟩

/-- The address of a backed byte of a block, as a word, decomposes into the block's set and tag. -/
theorem Cache.Coherent.decompose (h : c.Coherent size m) (hsize : size < 2 ^ 64) {s k : Nat} {t : Word}
    (hs : s < c.cfg.nLines) (ht : c.cfg.tag t = t) (hk : k < c.cfg.blockSize)
    (hb : c.cfg.blockAddr s t + k < size) :
    c.cfg.index (BitVec.ofNat 64 (c.cfg.blockAddr s t + k)) = s ∧
      c.cfg.tag (BitVec.ofNat 64 (c.cfg.blockAddr s t + k)) = t := by
  apply (CacheConfig.mem_block_iff h.block_pow2 h.lines_pow2 hs ht _).mp
  rw [BitVec.toNat_ofNat, Nat.mod_eq_of_lt (by omega)]
  omega

/-! ## Flush (R94) -/

/-- A flush of a valid line leaves the bytes of its block as the line has them, and every other byte
alone. -/
theorem Cache.Coherent.read_flush (h : c.Coherent size m) (hwf : m.wf = true) {s w : Nat}
    (hs : s < c.cfg.nLines) (hw : w < (c.ways s).length) (hv : (c.line s w).valid = true)
    (ha : a.toNat < size) :
    (flushLine size c.cfg m s (c.line s w)).read a.toNat =
      if c.cfg.index a = s ∧ c.cfg.tag a = (c.line s w).tag then
        (c.line s w).data.getD (c.cfg.offset a) 0
      else m.read a.toNat := by
  have hmem := Cache.line_mem hw
  have ht := (h.agrees s _ hmem hv).tag_clear
  rw [flushLine, Memory.read_writeBlock hwf, h.data_length s _ hmem]
  have hiff := CacheConfig.mem_block_iff h.block_pow2 h.lines_pow2 hs ht a
  by_cases hin : c.cfg.index a = s ∧ c.cfg.tag a = (c.line s w).tag
  · obtain ⟨h1, h2⟩ := hiff.mpr hin
    rw [if_pos ⟨h1, h2, ha⟩, if_pos hin]
    obtain ⟨rfl, h4⟩ := hin
    rw [← h4, CacheConfig.sub_blockAddr h.block_pow2 h.lines_pow2]
  · rw [if_neg (fun hc => hin (hiff.mp ⟨hc.1, hc.2.1⟩)), if_neg hin]

/-- A flush of a dirty line keeps coherence. -/
theorem Cache.Coherent.flush (h : c.Coherent size m) (hwf : m.wf = true) (hsize : size < 2 ^ 64)
    {s w : Nat} (hw : w < (c.ways s).length) (hv : (c.line s w).valid = true)
    (hd : (c.line s w).dirty = true) :
    c.Coherent size (flushLine size c.cfg m s (c.line s w)) := by
  have hs := h.set_lt (Cache.line_mem hw)
  refine h.store fun s' L hL hv' hd' => Memory.readBlock_congr fun k hk hb => ?_
  have hs' := h.set_lt hL
  obtain ⟨h1, h2⟩ := h.decompose hsize hs' (h.agrees s' L hL hv').tag_clear hk hb
  have hn : (BitVec.ofNat 64 (c.cfg.blockAddr s' L.tag + k) : Word).toNat =
      c.cfg.blockAddr s' L.tag + k := by
    rw [BitVec.toNat_ofNat, Nat.mod_eq_of_lt (by omega)]
  have := h.read_flush hwf (a := BitVec.ofNat 64 (c.cfg.blockAddr s' L.tag + k)) hs hw hv (by omega)
  rw [hn, h1, h2] at this
  rw [this, if_neg]
  rintro ⟨rfl, htag⟩
  obtain ⟨v, hvl, rfl⟩ := Cache.exists_line_of_mem hL
  have := h.one_way s' v w hvl hw hv' hv htag
  subst this
  rw [hd] at hd'
  exact absurd hd' (by decide)

/-- A flush leaves the coherent view alone. -/
theorem Cache.Coherent.peek_flush (h : c.Coherent size m) (hwf : m.wf = true)
    {s w : Nat} (hw : w < (c.ways s).length) (hv : (c.line s w).valid = true)
    (ha : a.toNat < size) :
    c.peek (flushLine size c.cfg m s (c.line s w)) a = c.peek m a := by
  have hs := h.set_lt (Cache.line_mem hw)
  cases hh : hitWay (c.ways (c.cfg.index a)) (c.cfg.tag a) with
  | some u => rw [Cache.peek_of_hit hh, Cache.peek_of_hit hh]
  | none =>
    rw [Cache.peek_of_miss hh, Cache.peek_of_miss hh, h.read_flush hwf hs hw hv ha, if_neg]
    rintro ⟨rfl, ht⟩
    exact Cache.hitWay_none hh hw hv ht.symm

/-! ## Victim selection (R90 to R93) -/

theorem oldest_lt {ws : List Line} {w : Nat} {t : Word} (h : oldest ws = some (w, t)) :
    w < ws.length := by
  induction ws generalizing w t with
  | nil => simp [oldest] at h
  | cons L ws ih =>
    simp only [oldest] at h
    split at h
    · simp only [Option.some.injEq, Prod.mk.injEq] at h
      simp [← h.1]
    · rename_i w' t' he
      have := ih he
      split at h <;> simp only [Option.some.injEq, Prod.mk.injEq] at h <;> simp [← h.1, this]

/-- The victim is a way of the set, whatever the draw. -/
theorem victimWay_lt {g : CacheConfig} {ws : List Line} (hl : ws.length = g.associativity)
    (hpos : 0 < g.associativity) (draw : Nat) : victimWay g ws draw < g.associativity := by
  have ho : ((oldest ws).map Prod.fst).getD 0 < g.associativity := by
    cases h : oldest ws with
    | none => simpa using hpos
    | some p =>
      obtain ⟨w, t⟩ := p
      simpa [hl] using oldest_lt h
  unfold victimWay
  split
  · rename_i w h
    obtain ⟨hw, -⟩ := List.findIdx?_eq_some_iff_getElem.mp h
    omega
  · split
    · exact ho
    · exact ho
    · exact Nat.mod_lt _ hpos

/-! ## Fill (R94) -/

/-- Everything a fill of a missing block does: the way then holds the block of the address, clean, and
coherence and the coherent view are kept. -/
theorem Cache.Coherent.fill (h : c.Coherent size m) (hwf : m.wf = true)
    (hin : m.within size = true) (hsize : size < 2 ^ 64) {w : Nat}
    (hw : w < c.cfg.associativity)
    (hmiss : hitWay (c.ways (c.cfg.index a)) (c.cfg.tag a) = none) :
    (c.fill size m (c.cfg.index a) w a).1.Coherent size (c.fill size m (c.cfg.index a) w a).2 ∧
    (c.fill size m (c.cfg.index a) w a).2.wf = true ∧
    (c.fill size m (c.cfg.index a) w a).2.within size = true ∧
    hitWay ((c.fill size m (c.cfg.index a) w a).1.ways (c.cfg.index a)) (c.cfg.tag a) = some w ∧
    ∀ x : Word, x.toNat < size →
      (c.fill size m (c.cfg.index a) w a).1.peek (c.fill size m (c.cfg.index a) w a).2 x =
        c.peek m x := by
  have hlen := h.ways_length a
  have hws : w < (c.ways (c.cfg.index a)).length := by omega
  have hil := h.index_lt a
  -- the store after the possible flush, and what it keeps
  obtain ⟨m1, hm1⟩ : ∃ m1, m1 = (if mustFlush c.cfg (c.line (c.cfg.index a) w) then
      flushLine size c.cfg m (c.cfg.index a) (c.line (c.cfg.index a) w) else m) := ⟨_, rfl⟩
  have hmf : mustFlush c.cfg (c.line (c.cfg.index a) w) = true →
      (c.line (c.cfg.index a) w).valid = true ∧ (c.line (c.cfg.index a) w).dirty = true := by
    simp only [mustFlush, Bool.and_eq_true]
    exact fun hf => hf.1
  have hco : c.Coherent size m1 := by
    rw [hm1]
    split
    · rename_i hf
      exact h.flush hwf hsize hws (hmf hf).1 (hmf hf).2
    · exact h
  have hpk : ∀ x : Word, x.toNat < size → c.peek m1 x = c.peek m x := by
    intro x hx
    rw [hm1]
    split
    · rename_i hf
      exact h.peek_flush hwf hws (hmf hf).1 hx
    · rfl
  have hwf1 : m1.wf = true := by
    rw [hm1]; split
    · exact Memory.writeBlock_wf hwf _ _
    · exact hwf
  have hin1 : m1.within size = true := by
    rw [hm1]; split
    · exact Memory.writeBlock_within hin _ _
    · exact hin
  -- the victim's bytes are all in the store now
  have hvic : ∀ x : Word, x.toNat < size → c.cfg.index x = c.cfg.index a →
      (c.line (c.cfg.index a) w).valid = true → (c.line (c.cfg.index a) w).tag = c.cfg.tag x →
      (c.line (c.cfg.index a) w).data.getD (c.cfg.offset x) 0 = m1.read x.toNat := by
    intro x hx hix hv ht
    by_cases hd : (c.line (c.cfg.index a) w).dirty = true
    · have hwb := (h.agrees _ _ (Cache.line_mem hws) hv).dirty hd
      have hf : mustFlush c.cfg (c.line (c.cfg.index a) w) = true := by
        simp [mustFlush, hv, hd, hwb]
      rw [hm1, if_pos hf, h.read_flush hwf hil hws hv hx, if_pos ⟨hix, ht.symm⟩]
    · have hd' : (c.line (c.cfg.index a) w).dirty = false := by simpa using hd
      have hhit : hitWay (c.ways (c.cfg.index x)) (c.cfg.tag x) = some w := by
        rw [hix]
        exact h.hitWay_eq hws hv ht
      have := hco.clean_byte hx hhit (by rw [hix]; exact hd')
      rwa [hix] at this
  -- the filled line
  obtain ⟨L, hL⟩ : ∃ L : Line, L =
      { valid := true, dirty := false, tag := c.cfg.tag a, ts := c.clk
        data := m1.readBlock size (c.cfg.base a).toNat c.cfg.blockSize } := ⟨_, rfl⟩
  have hfill : c.fill size m (c.cfg.index a) w a =
      ((if mustFlush c.cfg (c.line (c.cfg.index a) w) then c.countWriteback else c).setLine
        (c.cfg.index a) w L, m1) := by
    rw [hL, hm1]; rfl
  have hcfg : (if mustFlush c.cfg (c.line (c.cfg.index a) w) then c.countWriteback else c).cfg = c.cfg := by
    split <;> rfl
  have hsets : (if mustFlush c.cfg (c.line (c.cfg.index a) w) then c.countWriteback else c).sets =
      c.sets := by
    split <;> rfl
  generalize (if mustFlush c.cfg (c.line (c.cfg.index a) w) then c.countWriteback else c) = c2 at *
  have h2 : c2.Coherent size m1 := hco.congr hcfg hsets
  have hways : c2.ways = c.ways := by funext s; simp [Cache.ways, hsets]
  have hline : c2.line = c.line := by funext s v; simp [Cache.line, hways, hcfg]
  rw [hfill]
  have hco2 : (c2.setLine (c.cfg.index a) w L).Coherent size m1 := by
    refine h2.setLine ?_ ?_ ?_
    · rw [hL, hcfg]; simp
    · intro _
      rw [hcfg]
      refine ⟨?_, ?_, ?_⟩
      · rw [hL]; exact CacheConfig.tag_tag h.block_pow2 h.lines_pow2 a
      · intro _
        rw [hL, CacheConfig.blockAddr_eq_base h.block_pow2 h.lines_pow2]
      · rw [hL]; intro hc; simp at hc
    · intro v hv _ hvv _
      rw [hways] at hv
      rw [hline] at hvv ⊢
      rw [hL]
      exact Cache.hitWay_none hmiss hv hvv
  have hsame : (c2.setLine (c.cfg.index a) w L).line (c.cfg.index a) w = L :=
    Cache.line_setLine_same (by rw [hways]; exact hws) L
  have hhit : hitWay ((c2.setLine (c.cfg.index a) w L).ways (c.cfg.index a)) (c.cfg.tag a) = some w := by
    refine hco2.hitWay_eq ?_ ?_ ?_
    · simpa [hways] using hws
    · rw [hsame, hL]
    · rw [hsame, hL]
  refine ⟨hco2, hwf1, hin1, hhit, ?_⟩
  intro x hx
  rw [← hpk x hx]
  show (c2.setLine (c.cfg.index a) w L).peek m1 x = c.peek m1 x
  by_cases hblk : c.cfg.index x = c.cfg.index a ∧ c.cfg.tag x = c.cfg.tag a
  · -- the new block
    have e1 : hitWay ((c2.setLine (c.cfg.index a) w L).ways
        ((c2.setLine (c.cfg.index a) w L).cfg.index x)) ((c2.setLine (c.cfg.index a) w L).cfg.tag x) =
        some w := by
      rw [Cache.cfg_setLine, hcfg, hblk.1, hblk.2]
      exact hhit
    have e2 : hitWay (c.ways (c.cfg.index x)) (c.cfg.tag x) = none := by
      rw [hblk.1, hblk.2]
      exact hmiss
    rw [Cache.peek_of_hit e1, Cache.peek_of_miss e2, Cache.cfg_setLine, hcfg, hblk.1, hsame, hL]
    show (m1.readBlock size (c.cfg.base a).toNat c.cfg.blockSize).getD (c.cfg.offset x) 0 = m1.read x.toNat
    rw [← CacheConfig.blockAddr_eq_base h.block_pow2 h.lines_pow2, ← hblk.1, ← hblk.2]
    exact h.readBlock_offset m1 hx
  · -- another block
    cases hh : hitWay (c.ways (c.cfg.index x)) (c.cfg.tag x) with
    | none =>
      have e1 : hitWay ((c2.setLine (c.cfg.index a) w L).ways
          ((c2.setLine (c.cfg.index a) w L).cfg.index x)) ((c2.setLine (c.cfg.index a) w L).cfg.tag x) =
          none := by
        rw [Cache.cfg_setLine, hcfg]
        refine List.findIdx?_eq_none_iff.mpr fun K hK => ?_
        rw [Cache.ways_setLine] at hK
        have hnone := List.findIdx?_eq_none_iff.mp hh
        split at hK
        · rename_i hs
          rcases List.mem_or_eq_of_mem_set hK with hK | rfl
          · rw [hways] at hK
            rw [← hs] at hK
            exact hnone K hK
          · rw [hL]
            simp only [Bool.true_and, beq_eq_false_iff_ne, ne_eq]
            exact fun ht => hblk ⟨hs, ht.symm⟩
        · rw [hways] at hK
          exact hnone K hK
      rw [Cache.peek_of_miss e1, Cache.peek_of_miss hh]
    | some u =>
      obtain ⟨hu1, hu2, hu3⟩ := Cache.hitWay_some hh
      by_cases hvic' : c.cfg.index x = c.cfg.index a ∧ u = w
      · -- the victim's old block, no longer resident
        obtain ⟨hix, rfl⟩ := hvic'
        have e1 : hitWay ((c2.setLine (c.cfg.index a) u L).ways
            ((c2.setLine (c.cfg.index a) u L).cfg.index x)) ((c2.setLine (c.cfg.index a) u L).cfg.tag x) =
            none := by
          rw [Cache.cfg_setLine, hcfg, hix]
          cases hc : hitWay ((c2.setLine (c.cfg.index a) u L).ways (c.cfg.index a)) (c.cfg.tag x) with
          | none => rfl
          | some v =>
            obtain ⟨hv1, hv2, hv3⟩ := Cache.hitWay_some hc
            rw [Cache.length_ways_setLine, hways] at hv1
            by_cases huv : v = u
            · subst huv
              rw [hsame, hL] at hv3
              exact absurd ⟨hix, hv3.symm⟩ hblk
            · rw [Cache.line_setLine_other (by omega), hline] at hv2 hv3
              rw [hix] at hu1 hu2 hu3
              exact absurd (h.one_way _ v u hv1 hu1 hv2 hu2 (hv3.trans hu3.symm)) huv
        rw [Cache.peek_of_miss e1, Cache.peek_of_hit hh, hix]
        rw [hix] at hu2 hu3
        exact (hvic x hx hix hu2 hu3).symm
      · -- a block that stays resident
        have e0 : (c2.setLine (c.cfg.index a) w L).line (c.cfg.index x) u = c.line (c.cfg.index x) u := by
          rw [Cache.line_setLine_other hvic', hline]
        have e1 : hitWay ((c2.setLine (c.cfg.index a) w L).ways
            ((c2.setLine (c.cfg.index a) w L).cfg.index x)) ((c2.setLine (c.cfg.index a) w L).cfg.tag x) =
            some u := by
          rw [Cache.cfg_setLine, hcfg]
          refine hco2.hitWay_eq ?_ ?_ ?_
          · simpa [hways] using hu1
          · rw [e0]; exact hu2
          · rw [e0]; exact hu3
        rw [Cache.peek_of_hit e1, Cache.peek_of_hit hh, Cache.cfg_setLine, hcfg, e0]

end Sys2Proof.Machine
end

