-- ==== Sys2Proof/Laws/Lookup.lean ====
section
/-! SUPPORT. The laws of `Lookup` and of the two byte accesses (R89, R95, R96): what each does to coherence,
to the coherent view and to the statistics. -/

namespace Sys2Proof.Machine

variable {size : Nat} {m m' : Memory} {c c' : Cache} {a : Word}

/-! ## Lines replaced by lines of the same tag -/

/-- The hit test reads the valid flags and the tags alone. -/
theorem hitWay_congr {ws ws' : List Line}
    (h : ws.map (fun L => (L.valid, L.tag)) = ws'.map (fun L => (L.valid, L.tag))) (t : Word) :
    hitWay ws t = hitWay ws' t := by
  have key : ∀ vs : List Line, hitWay vs t =
      (vs.map (fun L => (L.valid, L.tag))).findIdx? (fun p => p.1 && p.2 == t) := by
    intro vs
    rw [List.findIdx?_map]
    rfl
  rw [key, key, h]

theorem Cache.hitWay_setLine {s w : Nat} {L : Line} (hv : L.valid = (c.line s w).valid)
    (ht : L.tag = (c.line s w).tag) (s' : Nat) (t : Word) :
    hitWay ((c.setLine s w L).ways s') t = hitWay (c.ways s') t := by
  rw [Cache.ways_setLine]
  split
  · rename_i hs
    subst hs
    apply hitWay_congr
    rw [List.map_set, hv, ht]
    by_cases hw : w < (c.ways s').length
    · rw [Cache.line_eq_getElem hw]
      apply List.ext_getElem (by simp)
      intro i h1 h2
      rw [List.getElem_set]
      split
      · rename_i hi
        subst hi
        simp
      · rfl
    · rw [List.set_eq_of_length_le (by simpa using hw)]
  · rfl

/-- Replacing a line by one with the same tag and bytes changes no byte of the coherent view. -/
theorem Cache.peek_setLine_same {s w : Nat} {L : Line} (hv : L.valid = (c.line s w).valid)
    (ht : L.tag = (c.line s w).tag) (hd : L.data = (c.line s w).data) (m : Memory) (x : Word) :
    (c.setLine s w L).peek m x = c.peek m x := by
  have hh := Cache.hitWay_setLine hv ht (c.cfg.index x) (c.cfg.tag x)
  cases h : hitWay (c.ways (c.cfg.index x)) (c.cfg.tag x) with
  | none => rw [Cache.peek_of_miss h, Cache.peek_of_miss (by rw [Cache.cfg_setLine, hh, h])]
  | some v =>
    rw [Cache.peek_of_hit h, Cache.peek_of_hit (by rw [Cache.cfg_setLine, hh, h]), Cache.cfg_setLine]
    by_cases hsw : c.cfg.index x = s ∧ v = w
    · obtain ⟨rfl, rfl⟩ := hsw
      rw [Cache.line_setLine_same (Cache.hitWay_some h).1, hd]
    · rw [Cache.line_setLine_other hsw]

/-- A line replaced and the store changed at once: the new line must agree with the new store, and no other
clean valid line may see the change. -/
theorem Cache.Coherent.setLineStore (h : c.Coherent size m) {s w : Nat} {L : Line}
    (hlen : L.data.length = c.cfg.blockSize) (hv : L.valid = (c.line s w).valid)
    (ht : L.tag = (c.line s w).tag) (hag : L.valid = true → L.Agrees size c.cfg m' s)
    (hrest : ∀ s' v, v < (c.ways s').length → ¬ (s' = s ∧ v = w) → (c.line s' v).valid = true →
      (c.line s' v).dirty = false →
      m'.readBlock size (c.cfg.blockAddr s' (c.line s' v).tag) c.cfg.blockSize =
        m.readBlock size (c.cfg.blockAddr s' (c.line s' v).tag) c.cfg.blockSize) :
    (c.setLine s w L).Coherent size m' := by
  have line : ∀ s' v, v < (c.ways s').length → (c.setLine s w L).line s' v =
      if s' = s ∧ v = w then L else c.line s' v := by
    intro s' v hvl
    split
    · rename_i hsw
      obtain ⟨rfl, rfl⟩ := hsw
      exact Cache.line_setLine_same hvl L
    · rename_i hsw
      exact Cache.line_setLine_other hsw L
  refine ⟨h.block_pow2, h.lines_pow2, h.ways_pow2, ?_, ?_, ?_, ?_, ?_⟩
  · simpa using h.set_count
  · intro s' hs'
    simpa using h.way_count s' hs'
  · intro s' K hK
    obtain ⟨v, hvl, rfl⟩ := Cache.exists_line_of_mem hK
    rw [Cache.length_ways_setLine] at hvl
    rw [line s' v hvl]
    split
    · exact hlen
    · exact h.data_length s' _ (Cache.line_mem hvl)
  · intro s' u v hu hv'
    rw [Cache.length_ways_setLine] at hu hv'
    have hvalid : ∀ v, v < (c.ways s').length →
        ((c.setLine s w L).line s' v).valid = (c.line s' v).valid ∧
        ((c.setLine s w L).line s' v).tag = (c.line s' v).tag := by
      intro v hvl
      rw [line s' v hvl]
      split
      · rename_i hsw
        obtain ⟨rfl, rfl⟩ := hsw
        exact ⟨hv, ht⟩
      · exact ⟨rfl, rfl⟩
    rw [(hvalid u hu).1, (hvalid u hu).2, (hvalid v hv').1, (hvalid v hv').2]
    exact h.one_way s' u v hu hv'
  · intro s' K hK hKv
    obtain ⟨v, hvl, rfl⟩ := Cache.exists_line_of_mem hK
    rw [Cache.length_ways_setLine] at hvl
    rw [line s' v hvl] at hKv ⊢
    split at hKv
    · rename_i hsw
      rw [if_pos hsw, hsw.1]
      exact hag hKv
    · rename_i hsw
      rw [if_neg hsw]
      have hmem := h.agrees s' _ (Cache.line_mem hvl) hKv
      exact ⟨hmem.tag_clear, fun hd => (hmem.clean hd).trans (hrest s' v hvl hsw hKv hd).symm, hmem.dirty⟩

/-! ## Lookup (R89) -/

@[simp] theorem Cache.line_beginLookup (s w : Nat) : c.beginLookup.line s w = c.line s w := rfl
@[simp] theorem Cache.ways_beginLookup (s : Nat) : c.beginLookup.ways s = c.ways s := rfl
@[simp] theorem Cache.cfg_beginLookup : c.beginLookup.cfg = c.cfg := rfl

theorem touchLine_eq (c : Cache) (L : Line) :
    (touchLine c L).valid = L.valid ∧ (touchLine c L).dirty = L.dirty ∧
      (touchLine c L).tag = L.tag ∧ (touchLine c L).data = L.data := by
  unfold touchLine
  split <;> exact ⟨rfl, rfl, rfl, rfl⟩

/-- What a lookup leaves (R85 to R89, R94): coherence, the coherent view, the configuration, and the way
that now hits, if one does. -/
structure LookupResult.Good (size : Nat) (c : Cache) (m : Memory) (a : Word) (allocate : Bool)
    (r : LookupResult) : Prop where
  coherent : r.cache.Coherent size r.store
  store_wf : r.store.wf = true
  store_within : r.store.within size = true
  cfg : r.cache.cfg = c.cfg
  traceEnable : r.cache.traceEnable = c.traceEnable
  clk : r.cache.clk = c.clk + 1
  peek : ∀ x : Word, x.toNat < size → r.cache.peek r.store x = c.peek m x
  way : hitWay (r.cache.ways (c.cfg.index a)) (c.cfg.tag a) = r.way
  no_line : r.way = none → allocate = false ∧ r.store = m
  hit : r.hit = (hitWay (c.ways (c.cfg.index a)) (c.cfg.tag a)).isSome
  accesses : r.cache.stats.accessCount = c.stats.accessCount + 1
  hits : r.cache.stats.hitCount = if r.hit then c.stats.hitCount + 1 else c.stats.hitCount
  misses : r.cache.stats.missCount = if r.hit then c.stats.missCount else c.stats.missCount + 1

theorem Cache.fill_fields (size : Nat) (c : Cache) (m : Memory) (s w : Nat) (a : Word) :
    (c.fill size m s w a).1.cfg = c.cfg ∧ (c.fill size m s w a).1.traceEnable = c.traceEnable ∧
      (c.fill size m s w a).1.clk = c.clk ∧
      (c.fill size m s w a).1.stats.accessCount = c.stats.accessCount ∧
      (c.fill size m s w a).1.stats.hitCount = c.stats.hitCount ∧
      (c.fill size m s w a).1.stats.missCount = c.stats.missCount := by
  simp only [Cache.fill]
  by_cases hf : mustFlush c.cfg (c.line s w) = true
  · rw [if_pos hf]; exact ⟨rfl, rfl, rfl, rfl, rfl, rfl⟩
  · rw [if_neg hf]; exact ⟨rfl, rfl, rfl, rfl, rfl, rfl⟩

theorem Cache.Coherent.lookup (h : c.Coherent size m) (hwf : m.wf = true)
    (hin : m.within size = true) (hsize : size < 2 ^ 64) (draws : Nat) (a : Word) (allocate : Bool) :
    (c.lookup size m draws a allocate).Good size c m a allocate := by
  have hb : c.beginLookup.Coherent size m := h.congr rfl rfl
  have hpb : ∀ x, c.beginLookup.peek m x = c.peek m x := fun x => Cache.peek_congr rfl rfl m x
  unfold Cache.lookup
  simp only [Cache.cfg_beginLookup, Cache.ways_beginLookup]
  cases hh : hitWay (c.ways (c.cfg.index a)) (c.cfg.tag a) with
  | some w =>
    obtain ⟨hw1, hw2, hw3⟩ := Cache.hitWay_some hh
    obtain ⟨t1, t2, t3, t4⟩ := touchLine_eq c.beginLookup (c.line (c.cfg.index a) w)
    have hc : c.beginLookup.countHit.Coherent size m := h.congr rfl rfl
    have hl : c.beginLookup.countHit.line (c.cfg.index a) w = c.line (c.cfg.index a) w := rfl
    have hag := h.agrees _ _ (Cache.line_mem hw1) hw2
    refine ⟨?_, hwf, hin, rfl, rfl, rfl, ?_, ?_, ?_, ?_, rfl, rfl, rfl⟩
    · refine hc.setLineStore ?_ ?_ ?_ ?_ (fun _ _ _ _ _ _ => rfl)
      · rw [Cache.line_beginLookup, t4]; exact h.data_length _ _ (Cache.line_mem hw1)
      · rw [Cache.line_beginLookup, t1, hl]
      · rw [Cache.line_beginLookup, t3, hl]
      · intro _
        rw [Cache.line_beginLookup]
        exact ⟨by rw [t3]; exact hag.tag_clear, by rw [t2, t3, t4]; exact hag.clean,
          by rw [t2]; exact hag.dirty⟩
    · intro x _
      refine (Cache.peek_setLine_same (c := c.beginLookup.countHit) ?_ ?_ ?_ m x).trans
        (Cache.peek_congr rfl rfl m x)
      · rw [Cache.line_beginLookup, t1, hl]
      · rw [Cache.line_beginLookup, t3, hl]
      · rw [Cache.line_beginLookup, t4, hl]
    · refine (Cache.hitWay_setLine (c := c.beginLookup.countHit) ?_ ?_ _ _).trans hh
      · rw [Cache.line_beginLookup, t1, hl]
      · rw [Cache.line_beginLookup, t3, hl]
    · intro hn; exact absurd hn (by simp)
    · simp [hh]
  | none =>
    have hc : c.beginLookup.countMiss.Coherent size m := h.congr rfl rfl
    cases allocate with
    | false =>
      simp only [Bool.false_eq_true, if_false]
      refine ⟨hc, hwf, hin, rfl, rfl, rfl, fun x _ => Cache.peek_congr rfl rfl m x, hh, ?_, ?_, rfl, rfl, rfl⟩
      · exact fun _ => ⟨rfl, rfl⟩
      · simp [hh]
    | true =>
      simp only [if_true]
      have hv : victimWay c.cfg (c.ways (c.cfg.index a)) (Config.randomDraw draws) <
          c.beginLookup.countMiss.cfg.associativity :=
        victimWay_lt (h.ways_length a) (isPow2_pos h.ways_pow2) _
      obtain ⟨f1, f2, f3, f4, f5⟩ := hc.fill hwf hin hsize hv hh
      obtain ⟨g1, g2, g3, g4, g5, g6⟩ := Cache.fill_fields size c.beginLookup.countMiss m (c.cfg.index a)
        (victimWay c.cfg (c.ways (c.cfg.index a)) (Config.randomDraw draws)) a
      refine ⟨f1, f2, f3, g1, g2, g3, ?_, f4, ?_, ?_, g4, ?_, ?_⟩
      · exact fun x hx => (f5 x hx).trans (Cache.peek_congr rfl rfl m x)
      · intro hn; exact absurd hn (by simp)
      · simp [hh]
      · rw [if_neg Bool.false_ne_true]; exact g5
      · rw [if_neg Bool.false_ne_true]; exact g6

end Sys2Proof.Machine
end

