-- ==== Sys2Proof/Laws/Access.lean ====
section
/-! SUPPORT. The laws of the byte accesses (R95, R96), and of the checked accesses over them (R56, R57): what
they return, and what they do to the coherent view and to the invariant of the memory system. -/

namespace Sys2Proof.Machine

variable {size : Nat} {m m' : Memory} {c c' : Cache} {a : Word} {x : MemSystem}

theorem Cache.Coherent.refreshRate (h : c.Coherent size m) : c.refreshRate.Coherent size m := h.congr rfl rfl

theorem Cache.refreshRate_statsOk (h : c.stats.accessCount = c.stats.hitCount + c.stats.missCount) :
    c.refreshRate.StatsOk := ⟨h, rfl⟩

/-- After a lookup the access count is still the sum of hits and misses. -/
theorem LookupResult.Good.sum {b : Bool} {r : LookupResult} (g : r.Good size c m a b)
    (h : c.stats.accessCount = c.stats.hitCount + c.stats.missCount) :
    r.cache.stats.accessCount = r.cache.stats.hitCount + r.cache.stats.missCount := by
  rw [g.accesses, g.hits, g.misses, h]
  cases r.hit
  · simp only [Bool.false_eq_true, if_false]; rw [BitVec.add_assoc]
  · simp only [if_true]; ac_rfl

/-- One read through the cache (R95, R107): the coherent byte, coherence and the view kept. -/
theorem cacheReadByte_spec (h : c.Coherent size x.store) (hs : c.StatsOk) (hwf : x.store.wf = true)
    (hin : x.store.within size = true) (hsize : size < 2 ^ 64) (ha : a.toNat < size) :
    (cacheReadByte size c x a).1 = c.peek x.store a ∧ (cacheReadByte size c x a).2.Ok size ∧
      (∀ y : Word, y.toNat < size → (cacheReadByte size c x a).2.peekByte y = c.peek x.store y) := by
  have g := h.lookup hwf hin hsize x.draws a true
  generalize hr : c.lookup size x.store x.draws a true = r at g
  have hpeek : ∀ y : Word, y.toNat < size → r.cache.refreshRate.peek r.store y = c.peek x.store y :=
    fun y hy => (Cache.peek_congr rfl rfl _ _).trans (g.peek y hy)
  have hval : (cacheReadByte size c x a).1 = (r.cache.line (c.cfg.index a) (r.way.getD 0)).data.getD
      (c.cfg.offset a) 0 := by simp [cacheReadByte, hr]
  have hst : (cacheReadByte size c x a).2 =
      { store := r.store, cache := some r.cache.refreshRate, draws := r.draws
        trace := appendTrace r.cache.refreshRate x.trace
          (traceRecord .read a r.hit r.cache.refreshRate r.way) } := by simp [cacheReadByte, hr]
  refine ⟨?_, ?_, ?_⟩
  · rw [hval, ← g.peek a ha]
    cases hw : r.way with
    | none => exact absurd (g.no_line hw).1 (by decide)
    | some w =>
      have := g.way
      rw [hw, ← g.cfg] at this
      rw [Cache.peek_of_hit this, g.cfg]
      rfl
  · rw [hst]
    refine ⟨g.store_wf, g.store_within, ?_, ?_⟩
    · rintro c' ⟨⟩
      exact g.coherent.refreshRate
    · rintro c' ⟨⟩
      exact Cache.refreshRate_statsOk (g.sum hs.1)
  · rw [hst]
    exact hpeek

/-- Two addresses of one block with one offset are equal. -/
theorem Cache.Coherent.eq_of_parts (h : c.Coherent size m) {y : Word}
    (hi : c.cfg.index y = c.cfg.index a) (ht : c.cfg.tag y = c.cfg.tag a)
    (ho : c.cfg.offset y = c.cfg.offset a) : y = a := by
  apply BitVec.eq_of_toNat_eq
  rw [← CacheConfig.base_add_offset h.block_pow2 y, ← CacheConfig.base_add_offset h.block_pow2 a,
    ← CacheConfig.blockAddr_eq_base h.block_pow2 h.lines_pow2 y,
    ← CacheConfig.blockAddr_eq_base h.block_pow2 h.lines_pow2 a, hi, ht, ho]

/-- A write of one store byte is not seen by a block that does not hold the address. -/
theorem Cache.Coherent.readBlock_write (h : c.Coherent size m) {s : Nat} {t : Word} (hs : s < c.cfg.nLines)
    (ht : c.cfg.tag t = t) (hne : ¬ (c.cfg.index a = s ∧ c.cfg.tag a = t)) (b : Byte) :
    (m.write a.toNat b).readBlock size (c.cfg.blockAddr s t) c.cfg.blockSize =
      m.readBlock size (c.cfg.blockAddr s t) c.cfg.blockSize := by
  refine Memory.readBlock_congr fun k hk _ => Memory.read_write_other ?_ b
  intro he
  exact hne ((CacheConfig.mem_block_iff h.block_pow2 h.lines_pow2 hs ht a).mp (by omega))

/-- The store's own byte written, while no valid line holds the address. -/
theorem Cache.Coherent.bypass (h : c.Coherent size m) (hwf : m.wf = true)
    (hmiss : hitWay (c.ways (c.cfg.index a)) (c.cfg.tag a) = none) (b : Byte) :
    c.Coherent size (m.write a.toNat b) ∧
      ∀ y : Word, c.peek (m.write a.toNat b) y = if y = a then b else c.peek m y := by
  constructor
  · refine h.store fun s L hL hv _ => ?_
    refine h.readBlock_write (h.set_lt hL) (h.agrees s L hL hv).tag_clear ?_ b
    rintro ⟨rfl, ht⟩
    exact Machine.hitWay_none hmiss L hL hv ht.symm
  · intro y
    by_cases hy : y = a
    · subst hy
      rw [if_pos rfl, Cache.peek_of_miss hmiss, Memory.read_write_same hwf]
    · rw [if_neg hy]
      have hn : y.toNat ≠ a.toNat := fun he => hy (BitVec.eq_of_toNat_eq he)
      unfold Cache.peek
      split
      · rfl
      · exact Memory.read_write_other hn b

/-- The byte written into a resident line (and, where the line stays clean, into the store too). -/
theorem Cache.Coherent.putByte (h : c.Coherent size m) (hwf : m.wf = true) (ha : a.toNat < size)
    {w : Nat} (hw : hitWay (c.ways (c.cfg.index a)) (c.cfg.tag a) = some w) (b : Byte)
    (hm : m' = match c.cfg.writePolicy with
      | .writeThrough => m.write a.toNat b
      | .writeBack => m) :
    (c.updateLine (some w) a b).Coherent size m' ∧
      ∀ y : Word, y.toNat < size →
        (c.updateLine (some w) a b).peek m' y = if y = a then b else c.peek m y := by
  obtain ⟨h1, h2, h3⟩ := Cache.hitWay_some hw
  have hmem := Cache.line_mem h1
  have hag := h.agrees _ _ hmem h2
  have hlen := h.data_length _ _ hmem
  have hoff := CacheConfig.offset_lt h.block_pow2 a
  have hother : ∀ y : Word, y ≠ a → m'.read y.toNat = m.read y.toNat := by
    intro y hy
    rw [hm]
    split
    · exact Memory.read_write_other (fun he => hy (BitVec.eq_of_toNat_eq he)) b
    · rfl
  constructor
  · refine h.setLineStore ?_ rfl rfl ?_ ?_
    · show ((c.line _ w).data.set _ b).length = _
      simpa using hlen
    · intro _
      refine ⟨hag.tag_clear, ?_, ?_⟩
      · intro hd
        cases hp : c.cfg.writePolicy with
        | writeBack => simp [Machine.putByte, hp] at hd
        | writeThrough =>
          simp only [Machine.putByte, hp] at hd ⊢
          simp only [hp] at hm
          rw [hag.clean hd, hm, h3]
          apply List.ext_getElem (by simp)
          intro k hk1 hk2
          have hk : k < c.cfg.blockSize := by simpa using hk2
          have e1 : ∀ mm : Memory, ∀ hh, (mm.readBlock size (c.cfg.blockAddr (c.cfg.index a) (c.cfg.tag a))
              c.cfg.blockSize)[k]'hh = if c.cfg.blockAddr (c.cfg.index a) (c.cfg.tag a) + k < size then
              mm.read (c.cfg.blockAddr (c.cfg.index a) (c.cfg.tag a) + k) else 0 := by
            intro mm hh
            rw [← Memory.readBlock_getD _ _ _ _ _ hk]
            simp [List.getD_eq_getElem?_getD, hk]
          have e2 : c.cfg.blockAddr (c.cfg.index a) (c.cfg.tag a) + c.cfg.offset a = a.toNat := by
            rw [CacheConfig.blockAddr_eq_base h.block_pow2 h.lines_pow2,
              CacheConfig.base_add_offset h.block_pow2]
          rw [List.getElem_set]
          split
          · rename_i hk'
            subst hk'
            rw [e1, e2, if_pos ha, Memory.read_write_same hwf]
          · rw [e1, e1]
            split
            · rw [Memory.read_write_other (by omega)]
            · rfl
      · intro hd
        cases hp : c.cfg.writePolicy with
        | writeBack => rfl
        | writeThrough =>
          simp only [Machine.putByte, hp] at hd
          exact absurd (hag.dirty hd) (by simp [hp])
    · intro s' v hv hne hvv hd
      rw [hm]
      split
      · refine h.readBlock_write (h.set_lt (Cache.line_mem hv))
          (h.agrees _ _ (Cache.line_mem hv) hvv).tag_clear ?_ b
        rintro ⟨rfl, ht⟩
        exact hne ⟨rfl, h.one_way _ v w hv h1 hvv h2 (by rw [h3, ht])⟩
      · rfl
  · intro y hy
    have hh := Cache.hitWay_setLine (c := c) (s := c.cfg.index a) (w := w)
      (L := Machine.putByte c.cfg (c.line (c.cfg.index a) w) (c.cfg.offset a) b) rfl rfl (c.cfg.index y)
      (c.cfg.tag y)
    show (c.setLine _ w _).peek m' y = _
    cases hyw : hitWay (c.ways (c.cfg.index y)) (c.cfg.tag y) with
    | none =>
      have hya : y ≠ a := by rintro rfl; rw [hw] at hyw; exact absurd hyw (by simp)
      rw [Cache.peek_of_miss (by rw [Cache.cfg_setLine, hh, hyw]), Cache.peek_of_miss hyw, if_neg hya]
      exact hother y hya
    | some v =>
      obtain ⟨k1, k2, k3⟩ := Cache.hitWay_some hyw
      rw [Cache.peek_of_hit (by rw [Cache.cfg_setLine, hh, hyw]), Cache.peek_of_hit hyw, Cache.cfg_setLine]
      by_cases hsw : c.cfg.index y = c.cfg.index a ∧ v = w
      · obtain ⟨hi, rfl⟩ := hsw
        rw [hi, Cache.line_setLine_same h1]
        show ((c.line _ v).data.set _ b).getD _ 0 = _
        have ht : c.cfg.tag y = c.cfg.tag a := by rw [← k3, hi, h3]
        by_cases hya : y = a
        · subst hya
          rw [if_pos rfl, List.getD_eq_getElem?_getD, List.getElem?_set_self (by omega)]
          rfl
        · have ho : c.cfg.offset a ≠ c.cfg.offset y := fun he => hya (h.eq_of_parts hi ht he.symm)
          rw [if_neg hya, List.getD_eq_getElem?_getD, List.getElem?_set_ne ho, List.getD_eq_getElem?_getD]
      · have hya : y ≠ a := by
          rintro rfl
          rw [hw] at hyw
          exact hsw ⟨rfl, (Option.some.inj hyw).symm⟩
        rw [Cache.line_setLine_other hsw, if_neg hya]

theorem Cache.updateLine_fields (c : Cache) (w : Option Nat) (a : Word) (b : Byte) :
    (c.updateLine w a b).cfg = c.cfg ∧ (c.updateLine w a b).stats = c.stats ∧
      (c.updateLine w a b).traceEnable = c.traceEnable ∧ (c.updateLine w a b).clk = c.clk := by
  unfold Cache.updateLine
  split <;> exact ⟨rfl, rfl, rfl, rfl⟩

/-- One write through the cache (R96, R107): the coherent byte is the one written, no other changes. -/
theorem cacheWriteByte_spec (h : c.Coherent size x.store) (hs : c.StatsOk) (hwf : x.store.wf = true)
    (hin : x.store.within size = true) (hsize : size < 2 ^ 64) (ha : a.toNat < size) (b : Byte) :
    (cacheWriteByte size c x a b).Ok size ∧
      (∀ y : Word, y.toNat < size → (cacheWriteByte size c x a b).peekByte y =
        if y = a then b else c.peek x.store y) := by
  have g := h.lookup hwf hin hsize x.draws a c.cfg.writeAllocate
  generalize hr : c.lookup size x.store x.draws a c.cfg.writeAllocate = r at g
  obtain ⟨u1, u2, u3, u4⟩ := Cache.updateLine_fields r.cache r.way a b
  -- the store after
  obtain ⟨m', hm'⟩ : ∃ m', m' = (match c.cfg.writePolicy, r.way with
      | .writeThrough, _ => r.store.write a.toNat b
      | .writeBack, none => r.store.write a.toNat b
      | .writeBack, some _ => r.store) := ⟨_, rfl⟩
  -- the cache after, but for the statistics
  have core : (r.cache.updateLine r.way a b).Coherent size m' ∧ ∀ y : Word, y.toNat < size →
      (r.cache.updateLine r.way a b).peek m' y = if y = a then b else c.peek x.store y := by
    cases hw : r.way with
    | none =>
      have hmiss : hitWay (r.cache.ways (r.cache.cfg.index a)) (r.cache.cfg.tag a) = none := by
        rw [g.cfg, g.way, hw]
      have hm : m' = r.store.write a.toNat b := by
        rw [hm', hw]
        cases c.cfg.writePolicy <;> rfl
      rw [hm]
      obtain ⟨p1, p2⟩ := g.coherent.bypass g.store_wf hmiss b
      refine ⟨p1, fun y hy => ?_⟩
      rw [← g.peek y hy]
      exact p2 y
    | some w =>
      have hhit : hitWay (r.cache.ways (r.cache.cfg.index a)) (r.cache.cfg.tag a) = some w := by
        rw [g.cfg, g.way, hw]
      obtain ⟨p1, p2⟩ := g.coherent.putByte g.store_wf ha hhit b (m' := m')
        (by rw [hm', hw, g.cfg]; cases c.cfg.writePolicy <;> rfl)
      refine ⟨p1, fun y hy => ?_⟩
      rw [← g.peek y hy]
      exact p2 y hy
  have hstore : m'.wf = true ∧ m'.within size = true := by
    rw [hm']
    split
    · exact ⟨Memory.write_wf g.store_wf _ _, Memory.write_within g.store_within ha _⟩
    · exact ⟨Memory.write_wf g.store_wf _ _, Memory.write_within g.store_within ha _⟩
    · exact ⟨g.store_wf, g.store_within⟩
  obtain ⟨c2, hc2⟩ : ∃ c2, c2 = (match c.cfg.writePolicy with
      | .writeThrough => (r.cache.updateLine r.way a b).countWriteback
      | .writeBack => r.cache.updateLine r.way a b) := ⟨_, rfl⟩
  have hsame : c2.cfg = (r.cache.updateLine r.way a b).cfg ∧
      c2.sets = (r.cache.updateLine r.way a b).sets ∧
      c2.stats.accessCount = r.cache.stats.accessCount ∧ c2.stats.hitCount = r.cache.stats.hitCount ∧
      c2.stats.missCount = r.cache.stats.missCount := by
    rw [hc2]
    split
    · refine ⟨rfl, rfl, ?_, ?_, ?_⟩
      · show (r.cache.updateLine r.way a b).stats.accessCount = _; rw [u2]
      · show (r.cache.updateLine r.way a b).stats.hitCount = _; rw [u2]
      · show (r.cache.updateLine r.way a b).stats.missCount = _; rw [u2]
    · exact ⟨rfl, rfl, congrArg CacheStats.accessCount u2, congrArg CacheStats.hitCount u2,
        congrArg CacheStats.missCount u2⟩
  have hst : cacheWriteByte size c x a b =
      { store := m', cache := some c2.refreshRate, draws := r.draws
        trace := appendTrace c2.refreshRate x.trace
          (traceRecord .write a r.hit c2.refreshRate r.way) } := by
    simp only [cacheWriteByte, hr, hc2, hm'] <;> cases c.cfg.writePolicy <;> rfl
  rw [hst]
  constructor
  · refine ⟨hstore.1, hstore.2, ?_, ?_⟩
    · rintro c' ⟨⟩
      exact core.1.congr hsame.1 hsame.2.1
    · rintro c' ⟨⟩
      refine Cache.refreshRate_statsOk ?_
      rw [hsame.2.2.1, hsame.2.2.2.1, hsame.2.2.2.2]
      exact g.sum hs.1
  · intro y hy
    show c2.refreshRate.peek m' y = _
    rw [← core.2 y hy]
    exact Cache.peek_congr hsame.1 hsame.2.1 m' y

/-! ## The byte accesses of the memory system (R58) -/

/-- Everything `ByteRead` does (R58, R107). -/
theorem MemSystem.Ok.byteRead (h : x.Ok size) (hsize : size < 2 ^ 64) (ha : a.toNat < size) :
    (x.byteRead size a).1 = x.peekByte a ∧ (x.byteRead size a).2.Ok size ∧
      (∀ y : Word, y.toNat < size → (x.byteRead size a).2.peekByte y = x.peekByte y) := by
  unfold MemSystem.byteRead
  cases hc : x.cache with
  | none =>
    refine ⟨?_, h, fun _ _ => rfl⟩
    simp [MemSystem.peekByte, hc]
  | some c =>
    have := cacheReadByte_spec (h.coherent c hc) (h.stats c hc) h.store_wf h.store_within hsize ha
    simpa only [MemSystem.peekByte, hc] using this

/-- Everything `ByteWrite` does (R58, R107). -/
theorem MemSystem.Ok.byteWrite (h : x.Ok size) (hsize : size < 2 ^ 64) (ha : a.toNat < size) (b : Byte) :
    (x.byteWrite size a b).Ok size ∧
      (∀ y : Word, y.toNat < size → (x.byteWrite size a b).peekByte y =
        if y = a then b else x.peekByte y) := by
  unfold MemSystem.byteWrite
  cases hc : x.cache with
  | none =>
    refine ⟨⟨Memory.write_wf h.store_wf _ _, Memory.write_within h.store_within ha _, ?_, ?_⟩, ?_⟩
    · intro c' hc'
      exact absurd hc' (by simp)
    · intro c' hc'
      exact absurd hc' (by simp)
    · intro y hy
      simp only [MemSystem.peekByte, hc]
      rw [Memory.read_write h.store_wf]
      simp only [← BitVec.toNat_inj]
  | some c =>
    have := cacheWriteByte_spec (h.coherent c hc) (h.stats c hc) h.store_wf h.store_within hsize ha b
    simpa only [MemSystem.peekByte, hc] using this

/-! ## Runs of bytes (R56, R57) -/

theorem toNat_add_one {a : Word} {n : Nat} (h : a.toNat + (n + 1) ≤ size) (hsize : size < 2 ^ 64)
    (hn : 0 < n) : (a + 1).toNat = a.toNat + 1 := by
  rw [BitVec.toNat_add]
  exact Nat.mod_eq_of_lt (show a.toNat + 1 < 2 ^ 64 by omega)

/-- Everything a run of reads does: the bytes are the coherent bytes, and the view is kept. -/
theorem readBytes_spec (n : Nat) (a : Word) (x : MemSystem) (h : x.Ok size) (hsize : size < 2 ^ 64)
    (ha : a.toNat + n ≤ size) :
    (readBytes size n a x).1 = (List.range n).map (fun k => x.peekByte (a + BitVec.ofNat 64 k)) ∧
      (readBytes size n a x).2.Ok size ∧
      (∀ y : Word, y.toNat < size → (readBytes size n a x).2.peekByte y = x.peekByte y) := by
  induction n generalizing a x with
  | zero => exact ⟨rfl, h, fun _ _ => rfl⟩
  | succ n ih =>
    obtain ⟨r1, r2, r3⟩ := h.byteRead hsize (a := a) (by omega)
    have hlen : n = 0 ∨ (a + 1).toNat = a.toNat + 1 := by
      rcases Nat.eq_zero_or_pos n with hn | hn
      · exact .inl hn
      · exact .inr (toNat_add_one ha hsize hn)
    have hb : n = 0 ∨ (a + 1).toNat + n ≤ size := by omega
    have key : (readBytes size n (a + 1) (x.byteRead size a).2).1 =
        (List.range n).map (fun k => x.peekByte (a + 1 + BitVec.ofNat 64 k)) ∧
        (readBytes size n (a + 1) (x.byteRead size a).2).2.Ok size ∧
        (∀ y : Word, y.toNat < size →
          (readBytes size n (a + 1) (x.byteRead size a).2).2.peekByte y = x.peekByte y) := by
      rcases hb with rfl | hb
      · exact ⟨rfl, r2, r3⟩
      · obtain ⟨i1, i2, i3⟩ := ih (a + 1) (x.byteRead size a).2 r2 hb
        refine ⟨?_, i2, fun y hy => (i3 y hy).trans (r3 y hy)⟩
        rw [i1]
        apply List.map_congr_left
        intro k hk
        have hk := List.mem_range.mp hk
        refine r3 _ ?_
        rw [BitVec.toNat_add, BitVec.toNat_ofNat, Nat.mod_eq_of_lt (a := k) (by omega)]
        exact Nat.lt_of_le_of_lt (Nat.mod_le _ _) (by omega)
    refine ⟨?_, key.2.1, key.2.2⟩
    show (x.byteRead size a).1 :: (readBytes size n (a + 1) (x.byteRead size a).2).1 = _
    rw [r1, key.1, List.range_succ_eq_map, List.map_cons, List.map_map]
    congr 1
    · simp
    · apply List.map_congr_left
      intro k _
      show x.peekByte (a + 1 + BitVec.ofNat 64 k) = x.peekByte (a + BitVec.ofNat 64 (k + 1))
      rw [BitVec.ofNat_add, BitVec.add_assoc, BitVec.add_comm 1]
      rfl

/-- Everything a run of writes does: the bytes written are the coherent bytes after, and no other byte
changes. -/
theorem writeBytes_spec (bs : List Byte) (a : Word) (x : MemSystem) (h : x.Ok size) (hsize : size < 2 ^ 64)
    (ha : a.toNat + bs.length ≤ size) :
    (writeBytes size bs a x).Ok size ∧
      (∀ y : Word, y.toNat < size → (writeBytes size bs a x).peekByte y =
        if a.toNat ≤ y.toNat ∧ y.toNat < a.toNat + bs.length then bs.getD (y.toNat - a.toNat) 0
        else x.peekByte y) := by
  induction bs generalizing a x with
  | nil =>
    refine ⟨h, fun y _ => ?_⟩
    rw [if_neg (by simp only [List.length_nil]; omega)]
    rfl
  | cons b bs ih =>
    simp only [List.length_cons] at ha ⊢
    obtain ⟨w1, w2⟩ := h.byteWrite hsize (a := a) (by omega) b
    rcases Nat.eq_zero_or_pos bs.length with hn | hn
    · obtain rfl : bs = [] := List.length_eq_zero_iff.mp hn
      refine ⟨w1, fun y hy => ?_⟩
      show (x.byteWrite size a b).peekByte y = _
      rw [w2 y hy]
      by_cases hya : y = a
      · subst hya
        simp
      · have : y.toNat ≠ a.toNat := fun he => hya (BitVec.eq_of_toNat_eq he)
        rw [if_neg hya, if_neg (by simp only [List.length_nil]; omega)]
    · have he := toNat_add_one ha hsize hn
      obtain ⟨i1, i2⟩ := ih (a + 1) (x.byteWrite size a b) w1 (by omega)
      refine ⟨i1, fun y hy => ?_⟩
      show (writeBytes size bs (a + 1) (x.byteWrite size a b)).peekByte y = _
      rw [i2 y hy, he, w2 y hy]
      by_cases hya : y = a
      · subst hya
        rw [if_neg (by omega), if_pos rfl, if_pos ⟨Nat.le_refl _, by omega⟩]
        simp
      · have hne : y.toNat ≠ a.toNat := fun hh => hya (BitVec.eq_of_toNat_eq hh)
        rw [if_neg hya]
        by_cases hin : a.toNat + 1 ≤ y.toNat ∧ y.toNat < a.toNat + 1 + bs.length
        · rw [if_pos hin, if_pos (by omega)]
          obtain ⟨k, hk⟩ : ∃ k, y.toNat = a.toNat + 1 + k := ⟨y.toNat - (a.toNat + 1), by omega⟩
          rw [hk, show a.toNat + 1 + k - (a.toNat + 1) = k by omega,
            show a.toNat + 1 + k - a.toNat = k + 1 by omega]
          rfl
        · rw [if_neg hin, if_neg (by omega)]

end Sys2Proof.Machine
end

