-- ==== Sys2Proof/Laws/Decode.lean ====
section
/-! SUPPORT. The laws of encoding and decoding: each field of a word of each format, the dispatch key under
a mask, and the four bytes of a word. -/

namespace Sys2Proof

/-- Two words with the same bits are equal, bit by bit: the form the proofs of this file use. -/
theorem word_ext {v w : InstrWord} (h : ∀ i, i < 32 → v.getLsbD i = w.getLsbD i) : v = w :=
  BitVec.eq_of_getLsbD_eq h

theorem toFin_ofFin (r : Reg) : (BitVec.ofFin r : BitVec 5).toFin = r := rfl

/-- A register index is read back from a 5-bit field that holds it. -/
theorem toFin_eq_of_bits {v : BitVec 5} {r : Reg}
    (h : ∀ i, i < 5 → v.getLsbD i = (BitVec.ofFin r : BitVec 5).getLsbD i) : v.toFin = r := by
  have : v = BitVec.ofFin r := BitVec.eq_of_getLsbD_eq h
  rw [this]

/-! ## Fields of each format -/

section R
variable (f7 : BitVec 7) (rs2 rs1 : Reg) (f3 : BitVec 3) (rd : Reg) (op : BitVec 7)

theorem rWord_bit (i : Nat) (hi : i < 32) : (rWord f7 rs2 rs1 f3 rd op).getLsbD i =
    if i < 7 then op.getLsbD i else if i < 12 then (BitVec.ofFin rd : BitVec 5).getLsbD (i - 7)
    else if i < 15 then f3.getLsbD (i - 12) else if i < 20 then (BitVec.ofFin rs1 : BitVec 5).getLsbD (i - 15)
    else if i < 25 then (BitVec.ofFin rs2 : BitVec 5).getLsbD (i - 20) else f7.getLsbD (i - 25) := by
  simp only [rWord, regField, BitVec.getLsbD_or, BitVec.getLsbD_shiftLeft, BitVec.getLsbD_setWidth]
  interval_cases i <;> simp

@[simp] theorem opcodeOf_rWord : opcodeOf (rWord f7 rs2 rs1 f3 rd op) = op := by
  apply BitVec.eq_of_getLsbD_eq
  intro i hi
  rw [opcodeOf, BitVec.getLsbD_extractLsb', rWord_bit _ _ _ _ _ _ _ (by omega)]
  interval_cases i <;> simp

@[simp] theorem funct3Of_rWord : funct3Of (rWord f7 rs2 rs1 f3 rd op) = f3 := by
  apply BitVec.eq_of_getLsbD_eq
  intro i hi
  rw [funct3Of, BitVec.getLsbD_extractLsb', rWord_bit _ _ _ _ _ _ _ (by omega)]
  interval_cases i <;> simp

@[simp] theorem funct7Of_rWord : funct7Of (rWord f7 rs2 rs1 f3 rd op) = f7 := by
  apply BitVec.eq_of_getLsbD_eq
  intro i hi
  rw [funct7Of, BitVec.getLsbD_extractLsb', rWord_bit _ _ _ _ _ _ _ (by omega)]
  interval_cases i <;> simp

@[simp] theorem rdOf_rWord : rdOf (rWord f7 rs2 rs1 f3 rd op) = rd := by
  apply toFin_eq_of_bits
  intro i hi
  rw [BitVec.getLsbD_extractLsb', rWord_bit _ _ _ _ _ _ _ (by omega)]
  interval_cases i <;> simp

@[simp] theorem rs1Of_rWord : rs1Of (rWord f7 rs2 rs1 f3 rd op) = rs1 := by
  apply toFin_eq_of_bits
  intro i hi
  rw [BitVec.getLsbD_extractLsb', rWord_bit _ _ _ _ _ _ _ (by omega)]
  interval_cases i <;> simp

@[simp] theorem rs2Of_rWord : rs2Of (rWord f7 rs2 rs1 f3 rd op) = rs2 := by
  apply toFin_eq_of_bits
  intro i hi
  rw [BitVec.getLsbD_extractLsb', rWord_bit _ _ _ _ _ _ _ (by omega)]
  interval_cases i <;> simp

/-- The key of an R word (R147). -/
theorem rWord_key : rWord f7 rs2 rs1 f3 rd op &&& 0xFE00707F#32 = rWord f7 0 0 f3 0 op := by
  apply word_ext
  intro i hi
  rw [BitVec.getLsbD_and, rWord_bit _ _ _ _ _ _ _ hi, rWord_bit _ _ _ _ _ _ _ hi]
  interval_cases i <;> simp
end R

section I
variable (imm : BitVec 12) (rs1 : Reg) (f3 : BitVec 3) (rd : Reg) (op : BitVec 7)

theorem iWord_bit (i : Nat) (hi : i < 32) : (iWord imm rs1 f3 rd op).getLsbD i =
    if i < 7 then op.getLsbD i else if i < 12 then (BitVec.ofFin rd : BitVec 5).getLsbD (i - 7)
    else if i < 15 then f3.getLsbD (i - 12) else if i < 20 then (BitVec.ofFin rs1 : BitVec 5).getLsbD (i - 15)
    else imm.getLsbD (i - 20) := by
  simp only [iWord, regField, BitVec.getLsbD_or, BitVec.getLsbD_shiftLeft, BitVec.getLsbD_setWidth]
  interval_cases i <;> simp

@[simp] theorem opcodeOf_iWord : opcodeOf (iWord imm rs1 f3 rd op) = op := by
  apply BitVec.eq_of_getLsbD_eq
  intro i hi
  rw [opcodeOf, BitVec.getLsbD_extractLsb', iWord_bit _ _ _ _ _ _ (by omega)]
  interval_cases i <;> simp

@[simp] theorem funct3Of_iWord : funct3Of (iWord imm rs1 f3 rd op) = f3 := by
  apply BitVec.eq_of_getLsbD_eq
  intro i hi
  rw [funct3Of, BitVec.getLsbD_extractLsb', iWord_bit _ _ _ _ _ _ (by omega)]
  interval_cases i <;> simp

@[simp] theorem rdOf_iWord : rdOf (iWord imm rs1 f3 rd op) = rd := by
  apply toFin_eq_of_bits
  intro i hi
  rw [BitVec.getLsbD_extractLsb', iWord_bit _ _ _ _ _ _ (by omega)]
  interval_cases i <;> simp

@[simp] theorem rs1Of_iWord : rs1Of (iWord imm rs1 f3 rd op) = rs1 := by
  apply toFin_eq_of_bits
  intro i hi
  rw [BitVec.getLsbD_extractLsb', iWord_bit _ _ _ _ _ _ (by omega)]
  interval_cases i <;> simp

@[simp] theorem immIOf_iWord : immIOf (iWord imm rs1 f3 rd op) = imm := by
  apply BitVec.eq_of_getLsbD_eq
  intro i hi
  rw [immIOf, BitVec.getLsbD_extractLsb', iWord_bit _ _ _ _ _ _ (by omega)]
  interval_cases i <;> simp

theorem iWord_key : iWord imm rs1 f3 rd op &&& 0x0000707F#32 = iWord 0 0 f3 0 op := by
  apply word_ext
  intro i hi
  rw [BitVec.getLsbD_and, iWord_bit _ _ _ _ _ _ hi, iWord_bit _ _ _ _ _ _ hi]
  interval_cases i <;> simp
end I

section Shift
variable (f6 sh : BitVec 6) (rs1 : Reg) (f3 : BitVec 3) (rd : Reg) (op : BitVec 7)

theorem shiftWord_bit (i : Nat) (hi : i < 32) : (shiftWord f6 sh rs1 f3 rd op).getLsbD i =
    if i < 7 then op.getLsbD i else if i < 12 then (BitVec.ofFin rd : BitVec 5).getLsbD (i - 7)
    else if i < 15 then f3.getLsbD (i - 12) else if i < 20 then (BitVec.ofFin rs1 : BitVec 5).getLsbD (i - 15)
    else if i < 26 then sh.getLsbD (i - 20) else f6.getLsbD (i - 26) := by
  simp only [shiftWord, regField, BitVec.getLsbD_or, BitVec.getLsbD_shiftLeft, BitVec.getLsbD_setWidth]
  interval_cases i <;> simp

@[simp] theorem opcodeOf_shiftWord : opcodeOf (shiftWord f6 sh rs1 f3 rd op) = op := by
  apply BitVec.eq_of_getLsbD_eq
  intro i hi
  rw [opcodeOf, BitVec.getLsbD_extractLsb', shiftWord_bit _ _ _ _ _ _ _ (by omega)]
  interval_cases i <;> simp

@[simp] theorem funct3Of_shiftWord : funct3Of (shiftWord f6 sh rs1 f3 rd op) = f3 := by
  apply BitVec.eq_of_getLsbD_eq
  intro i hi
  rw [funct3Of, BitVec.getLsbD_extractLsb', shiftWord_bit _ _ _ _ _ _ _ (by omega)]
  interval_cases i <;> simp

@[simp] theorem funct6Of_shiftWord : funct6Of (shiftWord f6 sh rs1 f3 rd op) = f6 := by
  apply BitVec.eq_of_getLsbD_eq
  intro i hi
  rw [funct6Of, BitVec.getLsbD_extractLsb', shiftWord_bit _ _ _ _ _ _ _ (by omega)]
  interval_cases i <;> simp

@[simp] theorem shamtOf_shiftWord : shamtOf (shiftWord f6 sh rs1 f3 rd op) = sh := by
  apply BitVec.eq_of_getLsbD_eq
  intro i hi
  rw [shamtOf, BitVec.getLsbD_extractLsb', shiftWord_bit _ _ _ _ _ _ _ (by omega)]
  interval_cases i <;> simp

@[simp] theorem rdOf_shiftWord : rdOf (shiftWord f6 sh rs1 f3 rd op) = rd := by
  apply toFin_eq_of_bits
  intro i hi
  rw [BitVec.getLsbD_extractLsb', shiftWord_bit _ _ _ _ _ _ _ (by omega)]
  interval_cases i <;> simp

@[simp] theorem rs1Of_shiftWord : rs1Of (shiftWord f6 sh rs1 f3 rd op) = rs1 := by
  apply toFin_eq_of_bits
  intro i hi
  rw [BitVec.getLsbD_extractLsb', shiftWord_bit _ _ _ _ _ _ _ (by omega)]
  interval_cases i <;> simp

theorem shiftWord_key : shiftWord f6 sh rs1 f3 rd op &&& 0xFC00707F#32 = shiftWord f6 0 0 f3 0 op := by
  apply word_ext
  intro i hi
  rw [BitVec.getLsbD_and, shiftWord_bit _ _ _ _ _ _ _ hi, shiftWord_bit _ _ _ _ _ _ _ hi]
  interval_cases i <;> simp
end Shift

section S
variable (imm : BitVec 12) (rs2 rs1 : Reg) (f3 : BitVec 3) (op : BitVec 7)

theorem sWord_bit (i : Nat) (hi : i < 32) : (sWord imm rs2 rs1 f3 op).getLsbD i =
    if i < 7 then op.getLsbD i else if i < 12 then imm.getLsbD (i - 7)
    else if i < 15 then f3.getLsbD (i - 12) else if i < 20 then (BitVec.ofFin rs1 : BitVec 5).getLsbD (i - 15)
    else if i < 25 then (BitVec.ofFin rs2 : BitVec 5).getLsbD (i - 20) else imm.getLsbD (i - 20) := by
  simp only [sWord, regField, BitVec.getLsbD_or, BitVec.getLsbD_shiftLeft, BitVec.getLsbD_setWidth,
    BitVec.getLsbD_extractLsb']
  interval_cases i <;> simp

@[simp] theorem opcodeOf_sWord : opcodeOf (sWord imm rs2 rs1 f3 op) = op := by
  apply BitVec.eq_of_getLsbD_eq
  intro i hi
  rw [opcodeOf, BitVec.getLsbD_extractLsb', sWord_bit _ _ _ _ _ _ (by omega)]
  interval_cases i <;> simp

@[simp] theorem funct3Of_sWord : funct3Of (sWord imm rs2 rs1 f3 op) = f3 := by
  apply BitVec.eq_of_getLsbD_eq
  intro i hi
  rw [funct3Of, BitVec.getLsbD_extractLsb', sWord_bit _ _ _ _ _ _ (by omega)]
  interval_cases i <;> simp

@[simp] theorem rs1Of_sWord : rs1Of (sWord imm rs2 rs1 f3 op) = rs1 := by
  apply toFin_eq_of_bits
  intro i hi
  rw [BitVec.getLsbD_extractLsb', sWord_bit _ _ _ _ _ _ (by omega)]
  interval_cases i <;> simp

@[simp] theorem rs2Of_sWord : rs2Of (sWord imm rs2 rs1 f3 op) = rs2 := by
  apply toFin_eq_of_bits
  intro i hi
  rw [BitVec.getLsbD_extractLsb', sWord_bit _ _ _ _ _ _ (by omega)]
  interval_cases i <;> simp

@[simp] theorem immSOf_sWord : immSOf (sWord imm rs2 rs1 f3 op) = imm := by
  apply BitVec.eq_of_getLsbD_eq
  intro i hi
  simp only [immSOf, sWord, regField, BitVec.getLsbD_or, BitVec.getLsbD_shiftLeft, BitVec.getLsbD_setWidth,
    BitVec.getLsbD_extractLsb']
  interval_cases i <;> simp

theorem sWord_key : sWord imm rs2 rs1 f3 op &&& 0x0000707F#32 = sWord 0 0 0 f3 op := by
  apply word_ext
  intro i hi
  rw [BitVec.getLsbD_and, sWord_bit _ _ _ _ _ _ hi, sWord_bit _ _ _ _ _ _ hi]
  interval_cases i <;> simp
end S

section B
variable (imm : BitVec 13) (rs2 rs1 : Reg) (f3 : BitVec 3) (op : BitVec 7)

theorem bWord_bit (i : Nat) (hi : i < 32) : (bWord imm rs2 rs1 f3 op).getLsbD i =
    if i < 7 then op.getLsbD i else if i < 8 then imm.getLsbD 11 else if i < 12 then imm.getLsbD (i - 7)
    else if i < 15 then f3.getLsbD (i - 12) else if i < 20 then (BitVec.ofFin rs1 : BitVec 5).getLsbD (i - 15)
    else if i < 25 then (BitVec.ofFin rs2 : BitVec 5).getLsbD (i - 20)
    else if i < 31 then imm.getLsbD (i - 20) else imm.getLsbD 12 := by
  simp only [bWord, regField, BitVec.getLsbD_or, BitVec.getLsbD_shiftLeft, BitVec.getLsbD_setWidth,
    BitVec.getLsbD_extractLsb']
  interval_cases i <;> simp

@[simp] theorem opcodeOf_bWord : opcodeOf (bWord imm rs2 rs1 f3 op) = op := by
  apply BitVec.eq_of_getLsbD_eq
  intro i hi
  rw [opcodeOf, BitVec.getLsbD_extractLsb', bWord_bit _ _ _ _ _ _ (by omega)]
  interval_cases i <;> simp

@[simp] theorem funct3Of_bWord : funct3Of (bWord imm rs2 rs1 f3 op) = f3 := by
  apply BitVec.eq_of_getLsbD_eq
  intro i hi
  rw [funct3Of, BitVec.getLsbD_extractLsb', bWord_bit _ _ _ _ _ _ (by omega)]
  interval_cases i <;> simp

@[simp] theorem rs1Of_bWord : rs1Of (bWord imm rs2 rs1 f3 op) = rs1 := by
  apply toFin_eq_of_bits
  intro i hi
  rw [BitVec.getLsbD_extractLsb', bWord_bit _ _ _ _ _ _ (by omega)]
  interval_cases i <;> simp

@[simp] theorem rs2Of_bWord : rs2Of (bWord imm rs2 rs1 f3 op) = rs2 := by
  apply toFin_eq_of_bits
  intro i hi
  rw [BitVec.getLsbD_extractLsb', bWord_bit _ _ _ _ _ _ (by omega)]
  interval_cases i <;> simp

/-- An even branch offset is read back (R143). -/
theorem immBOf_bWord (h : imm.getLsbD 0 = false) : immBOf (bWord imm rs2 rs1 f3 op) = imm := by
  apply BitVec.eq_of_getLsbD_eq
  intro i hi
  simp only [immBOf, bWord, regField, BitVec.getLsbD_or, BitVec.getLsbD_shiftLeft, BitVec.getLsbD_setWidth,
    BitVec.getLsbD_extractLsb']
  have h0 : imm[0] = false := by simpa using h
  interval_cases i <;> simp [h0]

theorem bWord_key : bWord imm rs2 rs1 f3 op &&& 0x0000707F#32 = bWord 0 0 0 f3 op := by
  apply word_ext
  intro i hi
  rw [BitVec.getLsbD_and, bWord_bit _ _ _ _ _ _ hi, bWord_bit _ _ _ _ _ _ hi]
  interval_cases i <;> simp
end B

section U
variable (imm : BitVec 20) (rd : Reg) (op : BitVec 7)

theorem uWord_bit (i : Nat) (hi : i < 32) : (uWord imm rd op).getLsbD i =
    if i < 7 then op.getLsbD i else if i < 12 then (BitVec.ofFin rd : BitVec 5).getLsbD (i - 7)
    else imm.getLsbD (i - 12) := by
  simp only [uWord, regField, BitVec.getLsbD_or, BitVec.getLsbD_shiftLeft, BitVec.getLsbD_setWidth]
  interval_cases i <;> simp

@[simp] theorem opcodeOf_uWord : opcodeOf (uWord imm rd op) = op := by
  apply BitVec.eq_of_getLsbD_eq
  intro i hi
  rw [opcodeOf, BitVec.getLsbD_extractLsb', uWord_bit _ _ _ _ (by omega)]
  interval_cases i <;> simp

@[simp] theorem rdOf_uWord : rdOf (uWord imm rd op) = rd := by
  apply toFin_eq_of_bits
  intro i hi
  rw [BitVec.getLsbD_extractLsb', uWord_bit _ _ _ _ (by omega)]
  interval_cases i <;> simp

@[simp] theorem immUOf_uWord : immUOf (uWord imm rd op) = imm := by
  apply BitVec.eq_of_getLsbD_eq
  intro i hi
  rw [immUOf, BitVec.getLsbD_extractLsb', uWord_bit _ _ _ _ (by omega)]
  interval_cases i <;> simp

theorem uWord_key : uWord imm rd op &&& 0x0000007F#32 = uWord 0 0 op := by
  apply word_ext
  intro i hi
  rw [BitVec.getLsbD_and, uWord_bit _ _ _ _ hi, uWord_bit _ _ _ _ hi]
  interval_cases i <;> simp
end U

section J
variable (imm : BitVec 21) (rd : Reg) (op : BitVec 7)

theorem jWord_bit (i : Nat) (hi : i < 32) : (jWord imm rd op).getLsbD i =
    if i < 7 then op.getLsbD i else if i < 12 then (BitVec.ofFin rd : BitVec 5).getLsbD (i - 7)
    else if i < 20 then imm.getLsbD i else if i < 21 then imm.getLsbD 11
    else if i < 31 then imm.getLsbD (i - 20) else imm.getLsbD 20 := by
  simp only [jWord, regField, BitVec.getLsbD_or, BitVec.getLsbD_shiftLeft, BitVec.getLsbD_setWidth,
    BitVec.getLsbD_extractLsb']
  interval_cases i <;> simp

@[simp] theorem opcodeOf_jWord : opcodeOf (jWord imm rd op) = op := by
  apply BitVec.eq_of_getLsbD_eq
  intro i hi
  rw [opcodeOf, BitVec.getLsbD_extractLsb', jWord_bit _ _ _ _ (by omega)]
  interval_cases i <;> simp

@[simp] theorem rdOf_jWord : rdOf (jWord imm rd op) = rd := by
  apply toFin_eq_of_bits
  intro i hi
  rw [BitVec.getLsbD_extractLsb', jWord_bit _ _ _ _ (by omega)]
  interval_cases i <;> simp

/-- An even jump offset is read back (R145). -/
theorem immJOf_jWord (h : imm.getLsbD 0 = false) : immJOf (jWord imm rd op) = imm := by
  apply BitVec.eq_of_getLsbD_eq
  intro i hi
  simp only [immJOf, jWord, regField, BitVec.getLsbD_or, BitVec.getLsbD_shiftLeft, BitVec.getLsbD_setWidth,
    BitVec.getLsbD_extractLsb']
  have h0 : imm[0] = false := by simpa using h
  interval_cases i <;> simp [h0]

theorem jWord_key : jWord imm rd op &&& 0x0000007F#32 = jWord 0 0 op := by
  apply word_ext
  intro i hi
  rw [BitVec.getLsbD_and, jWord_bit _ _ _ _ hi, jWord_bit _ _ _ _ hi]
  interval_cases i <;> simp
end J

/-! ## The dispatch key under a mask (R147) -/

theorem extract_and_of_ones {w m : InstrWord} {lo n : Nat}
    (hm : m.extractLsb' lo n = BitVec.allOnes n) : (w &&& m).extractLsb' lo n = w.extractLsb' lo n := by
  rw [BitVec.extractLsb'_and, hm, BitVec.and_allOnes]

theorem opcodeOf_of_key {w m p : InstrWord} (hm : opcodeOf m = BitVec.allOnes 7) (h : w &&& m = p) :
    opcodeOf w = opcodeOf p := by
  rw [← h]
  exact (extract_and_of_ones hm).symm

theorem funct3Of_of_key {w m p : InstrWord} (hm : funct3Of m = BitVec.allOnes 3) (h : w &&& m = p) :
    funct3Of w = funct3Of p := by
  rw [← h]
  exact (extract_and_of_ones hm).symm

theorem funct7Of_of_key {w m p : InstrWord} (hm : funct7Of m = BitVec.allOnes 7) (h : w &&& m = p) :
    funct7Of w = funct7Of p := by
  rw [← h]
  exact (extract_and_of_ones hm).symm

theorem funct6Of_of_key {w m p : InstrWord} (hm : funct6Of m = BitVec.allOnes 6) (h : w &&& m = p) :
    funct6Of w = funct6Of p := by
  rw [← h]
  exact (extract_and_of_ones hm).symm

/-! ## The four bytes of a word (R52, R130) -/

theorem wordOfFourBytes_bytesOfWord (w : InstrWord) :
    wordOfFourBytes (w.extractLsb' 0 8) (w.extractLsb' 8 8) (w.extractLsb' 16 8) (w.extractLsb' 24 8) = w := by
  apply word_ext
  intro i hi
  simp only [wordOfFourBytes, BitVec.getLsbD_or, BitVec.getLsbD_shiftLeft, BitVec.getLsbD_setWidth,
    BitVec.getLsbD_extractLsb']
  interval_cases i <;> simp

/-- The bytes of a word, with any bytes behind them, decode as the word does. -/
theorem decode_bytesOfWord (w : InstrWord) (rest : List Byte) : decode (bytesOfWord w ++ rest) =
    match decodeWord w with
    | .ok i => .ok (i, rest)
    | .error r => .error r := by
  simp only [bytesOfWord, List.cons_append, List.nil_append, decode, wordOfFourBytes_bytesOfWord] <;>
    cases decodeWord w <;> rfl

end Sys2Proof
end

