-- ==== Sys2Proof/Laws/State.lean ====
section
/-! SUPPORT. One lemma for each field of State and each update of it, true by `rfl`, so that no proof unfolds a
record update; and the laws of the register file. -/

namespace Sys2Proof.Machine

variable (s : State)

/-! ## `writeReg` -/

@[simp] theorem State.writeReg_params (r : Reg) (v : Word) : (s.writeReg r v).params = s.params := rfl
@[simp] theorem State.writeReg_regs (r : Reg) (v : Word) :
    (s.writeReg r v).regs = if r = 0 then s.regs else s.regs.set r v := rfl
@[simp] theorem State.writeReg_pc (r : Reg) (v : Word) : (s.writeReg r v).pc = s.pc := rfl
@[simp] theorem State.writeReg_runState (r : Reg) (v : Word) : (s.writeReg r v).runState = s.runState := rfl
@[simp] theorem State.writeReg_faultCause (r : Reg) (v : Word) :
    (s.writeReg r v).faultCause = s.faultCause := rfl
@[simp] theorem State.writeReg_wb (r : Reg) (v : Word) : (s.writeReg r v).wb = some r := rfl
@[simp] theorem State.writeReg_breakpoints (r : Reg) (v : Word) :
    (s.writeReg r v).breakpoints = s.breakpoints := rfl
@[simp] theorem State.writeReg_memSys (r : Reg) (v : Word) : (s.writeReg r v).memSys = s.memSys := rfl
@[simp] theorem State.writeReg_callStack (r : Reg) (v : Word) :
    (s.writeReg r v).callStack = s.callStack := rfl
@[simp] theorem State.writeReg_lineTable (r : Reg) (v : Word) :
    (s.writeReg r v).lineTable = s.lineTable := rfl
@[simp] theorem State.writeReg_labels (r : Reg) (v : Word) : (s.writeReg r v).labels = s.labels := rfl
@[simp] theorem State.writeReg_image (r : Reg) (v : Word) : (s.writeReg r v).image = s.image := rfl
@[simp] theorem State.writeReg_lastStatus (r : Reg) (v : Word) :
    (s.writeReg r v).lastStatus = s.lastStatus := rfl
@[simp] theorem State.writeReg_reports (r : Reg) (v : Word) : (s.writeReg r v).reports = s.reports := rfl

/-! ## `jumpTo` -/

@[simp] theorem State.jumpTo_params (t : Word) : (s.jumpTo t).params = s.params := rfl
@[simp] theorem State.jumpTo_regs (t : Word) : (s.jumpTo t).regs = s.regs := rfl
@[simp] theorem State.jumpTo_pc (t : Word) : (s.jumpTo t).pc = t := rfl
@[simp] theorem State.jumpTo_runState (t : Word) : (s.jumpTo t).runState = s.runState := rfl
@[simp] theorem State.jumpTo_faultCause (t : Word) : (s.jumpTo t).faultCause = s.faultCause := rfl
@[simp] theorem State.jumpTo_wb (t : Word) : (s.jumpTo t).wb = s.wb := rfl
@[simp] theorem State.jumpTo_breakpoints (t : Word) : (s.jumpTo t).breakpoints = s.breakpoints := rfl
@[simp] theorem State.jumpTo_memSys (t : Word) : (s.jumpTo t).memSys = s.memSys := rfl
@[simp] theorem State.jumpTo_callStack (t : Word) : (s.jumpTo t).callStack = s.callStack := rfl
@[simp] theorem State.jumpTo_lineTable (t : Word) : (s.jumpTo t).lineTable = s.lineTable := rfl
@[simp] theorem State.jumpTo_labels (t : Word) : (s.jumpTo t).labels = s.labels := rfl
@[simp] theorem State.jumpTo_image (t : Word) : (s.jumpTo t).image = s.image := rfl
@[simp] theorem State.jumpTo_lastStatus (t : Word) : (s.jumpTo t).lastStatus = s.lastStatus := rfl
@[simp] theorem State.jumpTo_reports (t : Word) : (s.jumpTo t).reports = s.reports := rfl

/-! ## `advance` -/

@[simp] theorem State.advance_params : (s.advance).params = s.params := rfl
@[simp] theorem State.advance_regs : (s.advance).regs = s.regs := rfl
@[simp] theorem State.advance_pc : (s.advance).pc = s.pc + 4 := rfl
@[simp] theorem State.advance_runState : (s.advance).runState = s.runState := rfl
@[simp] theorem State.advance_faultCause : (s.advance).faultCause = s.faultCause := rfl
@[simp] theorem State.advance_wb : (s.advance).wb = s.wb := rfl
@[simp] theorem State.advance_breakpoints : (s.advance).breakpoints = s.breakpoints := rfl
@[simp] theorem State.advance_memSys : (s.advance).memSys = s.memSys := rfl
@[simp] theorem State.advance_callStack : (s.advance).callStack = s.callStack := rfl
@[simp] theorem State.advance_lineTable : (s.advance).lineTable = s.lineTable := rfl
@[simp] theorem State.advance_labels : (s.advance).labels = s.labels := rfl
@[simp] theorem State.advance_image : (s.advance).image = s.image := rfl
@[simp] theorem State.advance_lastStatus : (s.advance).lastStatus = s.lastStatus := rfl
@[simp] theorem State.advance_reports : (s.advance).reports = s.reports := rfl

/-! ## `takeFault` -/

@[simp] theorem State.takeFault_params (c : Fault) : (s.takeFault c).params = s.params := rfl
@[simp] theorem State.takeFault_regs (c : Fault) : (s.takeFault c).regs = s.regs := rfl
@[simp] theorem State.takeFault_pc (c : Fault) : (s.takeFault c).pc = s.pc := rfl
@[simp] theorem State.takeFault_runState (c : Fault) : (s.takeFault c).runState = .faulted := rfl
@[simp] theorem State.takeFault_faultCause (c : Fault) : (s.takeFault c).faultCause = some c := rfl
@[simp] theorem State.takeFault_wb (c : Fault) : (s.takeFault c).wb = s.wb := rfl
@[simp] theorem State.takeFault_breakpoints (c : Fault) : (s.takeFault c).breakpoints = s.breakpoints := rfl
@[simp] theorem State.takeFault_memSys (c : Fault) : (s.takeFault c).memSys = s.memSys := rfl
@[simp] theorem State.takeFault_callStack (c : Fault) : (s.takeFault c).callStack = s.callStack := rfl
@[simp] theorem State.takeFault_lineTable (c : Fault) : (s.takeFault c).lineTable = s.lineTable := rfl
@[simp] theorem State.takeFault_labels (c : Fault) : (s.takeFault c).labels = s.labels := rfl
@[simp] theorem State.takeFault_image (c : Fault) : (s.takeFault c).image = s.image := rfl
@[simp] theorem State.takeFault_lastStatus (c : Fault) : (s.takeFault c).lastStatus = some .fault := rfl
@[simp] theorem State.takeFault_reports (c : Fault) : (s.takeFault c).reports = s.reports ++ [c] := rfl

/-! ## `callStackRefresh` -/

@[simp] theorem State.callStackRefresh_params (a : Word) : (s.callStackRefresh a).params = s.params := rfl
@[simp] theorem State.callStackRefresh_regs (a : Word) : (s.callStackRefresh a).regs = s.regs := rfl
@[simp] theorem State.callStackRefresh_pc (a : Word) : (s.callStackRefresh a).pc = s.pc := rfl
@[simp] theorem State.callStackRefresh_runState (a : Word) :
    (s.callStackRefresh a).runState = s.runState := rfl
@[simp] theorem State.callStackRefresh_faultCause (a : Word) :
    (s.callStackRefresh a).faultCause = s.faultCause := rfl
@[simp] theorem State.callStackRefresh_wb (a : Word) : (s.callStackRefresh a).wb = s.wb := rfl
@[simp] theorem State.callStackRefresh_breakpoints (a : Word) :
    (s.callStackRefresh a).breakpoints = s.breakpoints := rfl
@[simp] theorem State.callStackRefresh_memSys (a : Word) : (s.callStackRefresh a).memSys = s.memSys := rfl
@[simp] theorem State.callStackRefresh_callStack (a : Word) :
    (s.callStackRefresh a).callStack = refreshTop (s.lineAt a) s.callStack := rfl
@[simp] theorem State.callStackRefresh_lineTable (a : Word) :
    (s.callStackRefresh a).lineTable = s.lineTable := rfl
@[simp] theorem State.callStackRefresh_labels (a : Word) : (s.callStackRefresh a).labels = s.labels := rfl
@[simp] theorem State.callStackRefresh_image (a : Word) : (s.callStackRefresh a).image = s.image := rfl
@[simp] theorem State.callStackRefresh_lastStatus (a : Word) :
    (s.callStackRefresh a).lastStatus = s.lastStatus := rfl
@[simp] theorem State.callStackRefresh_reports (a : Word) :
    (s.callStackRefresh a).reports = s.reports := rfl

/-! ## `callStackPush` -/

@[simp] theorem State.callStackPush_params (a : Word) : (s.callStackPush a).params = s.params := rfl
@[simp] theorem State.callStackPush_regs (a : Word) : (s.callStackPush a).regs = s.regs := rfl
@[simp] theorem State.callStackPush_pc (a : Word) : (s.callStackPush a).pc = s.pc := rfl
@[simp] theorem State.callStackPush_runState (a : Word) : (s.callStackPush a).runState = s.runState := rfl
@[simp] theorem State.callStackPush_faultCause (a : Word) :
    (s.callStackPush a).faultCause = s.faultCause := rfl
@[simp] theorem State.callStackPush_wb (a : Word) : (s.callStackPush a).wb = s.wb := rfl
@[simp] theorem State.callStackPush_breakpoints (a : Word) :
    (s.callStackPush a).breakpoints = s.breakpoints := rfl
@[simp] theorem State.callStackPush_memSys (a : Word) : (s.callStackPush a).memSys = s.memSys := rfl
@[simp] theorem State.callStackPush_callStack (a : Word) :
    (s.callStackPush a).callStack = { line := s.lineAt a, owner := ownerOf s.labels (s.lineAt a) } :: s.callStack := rfl
@[simp] theorem State.callStackPush_lineTable (a : Word) :
    (s.callStackPush a).lineTable = s.lineTable := rfl
@[simp] theorem State.callStackPush_labels (a : Word) : (s.callStackPush a).labels = s.labels := rfl
@[simp] theorem State.callStackPush_image (a : Word) : (s.callStackPush a).image = s.image := rfl
@[simp] theorem State.callStackPush_lastStatus (a : Word) :
    (s.callStackPush a).lastStatus = s.lastStatus := rfl
@[simp] theorem State.callStackPush_reports (a : Word) : (s.callStackPush a).reports = s.reports := rfl

/-! ## `callStackPop` -/

@[simp] theorem State.callStackPop_params : (s.callStackPop).params = s.params := rfl
@[simp] theorem State.callStackPop_regs : (s.callStackPop).regs = s.regs := rfl
@[simp] theorem State.callStackPop_pc : (s.callStackPop).pc = s.pc := rfl
@[simp] theorem State.callStackPop_runState : (s.callStackPop).runState = s.runState := rfl
@[simp] theorem State.callStackPop_faultCause : (s.callStackPop).faultCause = s.faultCause := rfl
@[simp] theorem State.callStackPop_wb : (s.callStackPop).wb = s.wb := rfl
@[simp] theorem State.callStackPop_breakpoints : (s.callStackPop).breakpoints = s.breakpoints := rfl
@[simp] theorem State.callStackPop_memSys : (s.callStackPop).memSys = s.memSys := rfl
@[simp] theorem State.callStackPop_callStack : (s.callStackPop).callStack = s.callStack.tail := rfl
@[simp] theorem State.callStackPop_lineTable : (s.callStackPop).lineTable = s.lineTable := rfl
@[simp] theorem State.callStackPop_labels : (s.callStackPop).labels = s.labels := rfl
@[simp] theorem State.callStackPop_image : (s.callStackPop).image = s.image := rfl
@[simp] theorem State.callStackPop_lastStatus : (s.callStackPop).lastStatus = s.lastStatus := rfl
@[simp] theorem State.callStackPop_reports : (s.callStackPop).reports = s.reports := rfl

/-! ## `callStackClear` -/

@[simp] theorem State.callStackClear_params : (s.callStackClear).params = s.params := rfl
@[simp] theorem State.callStackClear_regs : (s.callStackClear).regs = s.regs := rfl
@[simp] theorem State.callStackClear_pc : (s.callStackClear).pc = s.pc := rfl
@[simp] theorem State.callStackClear_runState : (s.callStackClear).runState = s.runState := rfl
@[simp] theorem State.callStackClear_faultCause : (s.callStackClear).faultCause = s.faultCause := rfl
@[simp] theorem State.callStackClear_wb : (s.callStackClear).wb = s.wb := rfl
@[simp] theorem State.callStackClear_breakpoints : (s.callStackClear).breakpoints = s.breakpoints := rfl
@[simp] theorem State.callStackClear_memSys : (s.callStackClear).memSys = s.memSys := rfl
@[simp] theorem State.callStackClear_callStack : (s.callStackClear).callStack = [] := rfl
@[simp] theorem State.callStackClear_lineTable : (s.callStackClear).lineTable = s.lineTable := rfl
@[simp] theorem State.callStackClear_labels : (s.callStackClear).labels = s.labels := rfl
@[simp] theorem State.callStackClear_image : (s.callStackClear).image = s.image := rfl
@[simp] theorem State.callStackClear_lastStatus : (s.callStackClear).lastStatus = s.lastStatus := rfl
@[simp] theorem State.callStackClear_reports : (s.callStackClear).reports = s.reports := rfl

/-! ## `beginInstr` -/

@[simp] theorem State.beginInstr_params : (s.beginInstr).params = s.params := rfl
@[simp] theorem State.beginInstr_regs : (s.beginInstr).regs = s.regs := rfl
@[simp] theorem State.beginInstr_pc : (s.beginInstr).pc = s.pc := rfl
@[simp] theorem State.beginInstr_runState : (s.beginInstr).runState = s.runState := rfl
@[simp] theorem State.beginInstr_faultCause : (s.beginInstr).faultCause = s.faultCause := rfl
@[simp] theorem State.beginInstr_wb : (s.beginInstr).wb = none := rfl
@[simp] theorem State.beginInstr_breakpoints : (s.beginInstr).breakpoints = s.breakpoints := rfl
@[simp] theorem State.beginInstr_memSys : (s.beginInstr).memSys = s.memSys := rfl
@[simp] theorem State.beginInstr_callStack :
    (s.beginInstr).callStack = refreshTop (s.lineAt s.pc) s.callStack := rfl
@[simp] theorem State.beginInstr_lineTable : (s.beginInstr).lineTable = s.lineTable := rfl
@[simp] theorem State.beginInstr_labels : (s.beginInstr).labels = s.labels := rfl
@[simp] theorem State.beginInstr_image : (s.beginInstr).image = s.image := rfl
@[simp] theorem State.beginInstr_lastStatus : (s.beginInstr).lastStatus = s.lastStatus := rfl
@[simp] theorem State.beginInstr_reports : (s.beginInstr).reports = s.reports := rfl

/-! ## `lookAhead` -/

@[simp] theorem State.lookAhead_params : s.lookAhead.params = s.params := by
  unfold State.lookAhead; split <;> rfl
@[simp] theorem State.lookAhead_regs : s.lookAhead.regs = s.regs := by
  unfold State.lookAhead; split <;> rfl
@[simp] theorem State.lookAhead_pc : s.lookAhead.pc = s.pc := by
  unfold State.lookAhead; split <;> rfl
@[simp] theorem State.lookAhead_runState : s.lookAhead.runState = if s.haltsAhead then .halted else .running := by
  unfold State.lookAhead; split <;> rfl
@[simp] theorem State.lookAhead_faultCause : s.lookAhead.faultCause = s.faultCause := by
  unfold State.lookAhead; split <;> rfl
@[simp] theorem State.lookAhead_wb : s.lookAhead.wb = s.wb := by
  unfold State.lookAhead; split <;> rfl
@[simp] theorem State.lookAhead_breakpoints : s.lookAhead.breakpoints = s.breakpoints := by
  unfold State.lookAhead; split <;> rfl
@[simp] theorem State.lookAhead_memSys : s.lookAhead.memSys = s.memSys := by
  unfold State.lookAhead; split <;> rfl
@[simp] theorem State.lookAhead_callStack : s.lookAhead.callStack = s.callStack := by
  unfold State.lookAhead; split <;> rfl
@[simp] theorem State.lookAhead_lineTable : s.lookAhead.lineTable = s.lineTable := by
  unfold State.lookAhead; split <;> rfl
@[simp] theorem State.lookAhead_labels : s.lookAhead.labels = s.labels := by
  unfold State.lookAhead; split <;> rfl
@[simp] theorem State.lookAhead_image : s.lookAhead.image = s.image := by
  unfold State.lookAhead; split <;> rfl
@[simp] theorem State.lookAhead_lastStatus : s.lookAhead.lastStatus = if s.haltsAhead then some .halted else some .normal := by
  unfold State.lookAhead; split <;> rfl
@[simp] theorem State.lookAhead_reports : s.lookAhead.reports = s.reports := by
  unfold State.lookAhead; split <;> rfl

/-! ## Registers (R21, R22) -/

variable {s}

theorem State.readReg_congr {t : State} (h : t.regs = s.regs) (r : Reg) : t.readReg r = s.readReg r := by
  simp only [State.readReg, h]

@[simp] theorem State.readReg_zero (s : State) : s.readReg 0 = 0 := rfl

theorem State.readReg_writeReg (s : State) (r r' : Reg) (v : Word) :
    (s.writeReg r v).readReg r' = if r' = r ∧ r ≠ 0 then v else s.readReg r' := by
  simp only [State.readReg, State.writeReg_regs]
  by_cases h0 : r' = 0
  · subst h0
    by_cases h : r = 0
    · simp [h]
    · simp [Ne.symm h]
  · by_cases hr : r = 0
    · subst hr
      simp [h0]
    · by_cases he : r' = r
      · subst he
        simp [h0]
      · have : (r : Nat) ≠ (r' : Nat) := fun hh => he (Fin.ext hh.symm)
        simp [h0, hr, he, this]

/-- The hardwired register keeps its 0 under every write (R20). -/
theorem State.writeReg_regs_zero (h : s.regs[0] = 0) (r : Reg) (v : Word) :
    (s.writeReg r v).regs[0] = 0 := by
  simp only [State.writeReg_regs]
  split
  · exact h
  · rename_i hr
    have : (r : Nat) ≠ 0 := fun hh => hr (Fin.ext hh)
    simpa [this] using h

end Sys2Proof.Machine
end

