-- ==== Sys2Proof/Laws/Ops.lean ====
section
/-! SUPPORT. The laws of the checked accesses (R55 to R57, R60), of the byte order (R52), and one inversion
lemma for the meanings: everything an instruction can do. -/

namespace Sys2Proof.Machine

variable {s t : State} {a : Word} {n : Nat}

/-! ## Check (R55) -/

theorem check_eq_none {p : Params} {isWrite : Bool} : check p a n isWrite = none ↔
    a.toNat + n ≤ p.memorySize ∧ (isWrite = true → p.smcEnable = true ∨ p.dataBase ≤ a.toNat) := by
  unfold check
  split
  · rename_i h; simp; omega
  · rename_i h
    split
    · rename_i h2
      simp only [Bool.and_eq_true, Bool.not_eq_true', decide_eq_true_eq] at h2
      obtain ⟨⟨h3, h4⟩, h5⟩ := h2
      simp [h3, h4]; omega
    · rename_i h2
      simp only [true_iff]
      refine ⟨by omega, fun hw => ?_⟩
      by_contra hc
      simp only [not_or, Bool.not_eq_true, Nat.not_le] at hc
      exact h2 (by simp [hw, hc.1, hc.2])

theorem check_eq_oob {p : Params} {isWrite : Bool} :
    check p a n isWrite = some .oob ↔ p.memorySize < a.toNat + n := by
  unfold check
  split
  · simp_all
  · split <;> simp_all

theorem check_eq_textWrite {p : Params} {isWrite : Bool} : check p a n isWrite = some .textWrite ↔
    a.toNat + n ≤ p.memorySize ∧ isWrite = true ∧ p.smcEnable = false ∧ a.toNat < p.dataBase := by
  unfold check
  split
  · simp; omega
  · split
    · simp_all
    · rename_i h2
      simp only [Bool.and_eq_true, Bool.not_eq_true', decide_eq_true_eq] at h2
      simp only [reduceCtorEq, false_iff]
      rintro ⟨_, h3, h4, h5⟩
      exact h2 ⟨⟨h3, h4⟩, h5⟩

theorem check_ne_pcData {p : Params} {isWrite : Bool} : check p a n isWrite ≠ some .pcData := by
  unfold check
  split
  · simp
  · split <;> simp

/-! ## Byte order (R52) -/

theorem toNat_wordOfBytes_cons (b : Byte) (bs : List Byte) (h : bs.length < 8) :
    (wordOfBytes (b :: bs)).toNat = b.toNat + 256 * (wordOfBytes bs).toNat ∧
      (wordOfBytes bs).toNat < 256 ^ bs.length := by
  induction bs generalizing b with
  | nil =>
    simp [wordOfBytes]
    omega
  | cons c bs ih =>
    simp only [List.length_cons] at h
    obtain ⟨i1, i2⟩ := ih c (by omega)
    have hlt : (wordOfBytes (c :: bs)).toNat < 256 ^ (bs.length + 1) := by
      rw [i1, Nat.pow_succ]
      have := c.isLt
      omega
    refine ⟨?_, hlt⟩
    have hp : 256 ^ (bs.length + 1) ≤ 256 ^ 7 := Nat.pow_le_pow_right (by decide) (by omega)
    have hb := b.isLt
    show (b.setWidth 64 ||| wordOfBytes (c :: bs) <<< 8).toNat = _
    generalize wordOfBytes (c :: bs) = v at *
    rw [BitVec.toNat_or, BitVec.toNat_shiftLeft, BitVec.toNat_setWidth,
      Nat.mod_eq_of_lt (a := b.toNat) (by omega), Nat.shiftLeft_eq, Nat.mod_eq_of_lt (by omega),
      Nat.or_comm, Nat.mul_comm, ← Nat.two_pow_add_eq_or_of_lt hb]
    omega

theorem toNat_wordOfBytes_lt (bs : List Byte) (h : bs.length ≤ 8) :
    (wordOfBytes bs).toNat < 256 ^ bs.length := by
  cases bs with
  | nil => simp [wordOfBytes]
  | cons b bs =>
    simp only [List.length_cons] at h ⊢
    obtain ⟨h1, h2⟩ := toNat_wordOfBytes_cons b bs (by omega)
    have := b.isLt
    rw [h1, Nat.pow_succ]
    omega

@[simp] theorem length_bytesOfValue (n : Nat) (v : Word) : (bytesOfValue n v).length = n := by
  induction n generalizing v with
  | zero => rfl
  | succ n ih => simp [bytesOfValue, ih]

/-- Byte `k` of a stored value is its bits `8k+7` to `8k`. -/
theorem getD_bytesOfValue (n k : Nat) (v : Word) (h : k < n) :
    (bytesOfValue n v).getD k 0 = BitVec.ofNat 8 (v.toNat / 2 ^ (8 * k)) := by
  induction n generalizing v k with
  | zero => omega
  | succ n ih =>
    cases k with
    | zero =>
      show v.setWidth 8 = BitVec.ofNat 8 (v.toNat / 2 ^ 0)
      rw [Nat.pow_zero, Nat.div_one]
      rfl
    | succ k =>
      have := ih k (v >>> 8) (by omega)
      rw [BitVec.toNat_ushiftRight, Nat.shiftRight_eq_div_pow, Nat.div_div_eq_div_mul, ← Nat.pow_add,
        show 8 + 8 * k = 8 * (k + 1) by omega] at this
      exact this

/-! ## Checked accesses -/

/-- Everything `MemRead` does where the check passes: the coherent bytes, and the view kept. -/
theorem State.memRead_ok (hm : s.memSys.Ok s.params.memorySize) (hsize : s.params.memorySize < 2 ^ 64)
    (h : a.toNat + n ≤ s.params.memorySize) : ∃ x : MemSystem,
      s.memRead a n = .ok (wordOfBytes ((List.range n).map fun k => s.peekByte (a + BitVec.ofNat 64 k)),
        { s with memSys := x }) ∧
      x.Ok s.params.memorySize ∧
      ∀ y : Word, y.toNat < s.params.memorySize → x.peekByte y = s.peekByte y := by
  have hc : check s.params a n false = none := check_eq_none.mpr ⟨h, by simp⟩
  obtain ⟨r1, r2, r3⟩ := readBytes_spec n a s.memSys hm hsize h
  refine ⟨_, ?_, r2, r3⟩
  simp only [State.memRead, hc, r1]
  rfl

theorem State.memRead_error {c : Fault} :
    s.memRead a n = .error c ↔ check s.params a n false = some c := by
  unfold State.memRead
  cases check s.params a n false with
  | none => simp
  | some d => simp

/-- `MemRead` leaves everything but the memory system alone. -/
theorem State.memRead_fields {v : Word} (h : s.memRead a n = .ok (v, t)) :
    check s.params a n false = none ∧ t = { s with memSys := t.memSys } := by
  unfold State.memRead at h
  cases hc : check s.params a n false with
  | none =>
    rw [hc] at h
    simp only [Except.ok.injEq, Prod.mk.injEq] at h
    rw [← h.2]
    exact ⟨rfl, rfl⟩
  | some d =>
    rw [hc] at h
    exact absurd h (by simp)

/-- Everything `MemWrite` does where the check passes: the bytes of the value, and no other byte. -/
theorem State.memWrite_ok (hm : s.memSys.Ok s.params.memorySize) (hsize : s.params.memorySize < 2 ^ 64)
    {v : Word} (h : a.toNat + n ≤ s.params.memorySize)
    (hg : s.params.smcEnable = true ∨ s.params.dataBase ≤ a.toNat) : ∃ x : MemSystem,
      s.memWrite a n v = .ok { s with memSys := x } ∧ x.Ok s.params.memorySize ∧
      ∀ y : Word, y.toNat < s.params.memorySize → x.peekByte y =
        if a.toNat ≤ y.toNat ∧ y.toNat < a.toNat + n then
          BitVec.ofNat 8 (v.toNat / 2 ^ (8 * (y.toNat - a.toNat)))
        else s.peekByte y := by
  have hc : check s.params a n true = none := check_eq_none.mpr ⟨h, fun _ => hg⟩
  have hl : a.toNat + (bytesOfValue n v).length ≤ s.params.memorySize := by simpa using h
  obtain ⟨w1, w2⟩ := writeBytes_spec (bytesOfValue n v) a s.memSys hm hsize hl
  refine ⟨_, ?_, w1, ?_⟩
  · simp only [State.memWrite, hc]
  · intro y hy
    rw [w2 y hy, length_bytesOfValue]
    split
    · rename_i hin
      exact getD_bytesOfValue n _ v (by omega)
    · rfl

theorem State.memWrite_error {c : Fault} {v : Word} :
    s.memWrite a n v = .error c ↔ check s.params a n true = some c := by
  unfold State.memWrite
  cases check s.params a n true with
  | none => simp
  | some d => simp

/-- `MemWrite` leaves everything but the memory system alone. -/
theorem State.memWrite_fields {v : Word} (h : s.memWrite a n v = .ok t) :
    check s.params a n true = none ∧ t = { s with memSys := t.memSys } := by
  unfold State.memWrite at h
  cases hc : check s.params a n true with
  | none =>
    rw [hc] at h
    simp only [Except.ok.injEq] at h
    rw [← h]
    exact ⟨rfl, rfl⟩
  | some d =>
    rw [hc] at h
    exact absurd h (by simp)

/-! ## Inversion of the meanings -/

/-- Everything the meaning of an instruction can do, with the guard under which it does it. -/
inductive Effect (s : State) : State → Prop
  | result (rd : Reg) (v : Word) : Effect s (s.writeReg rd v).advance
  | loaded (n : Nat) (a v v' : Word) (rd : Reg) (u : State) (h : s.memRead a n = .ok (v, u)) :
      Effect s (u.writeReg rd v').advance
  | stored (n : Nat) (a v : Word) (u : State) (h : s.memWrite a n v = .ok u) : Effect s u.advance
  | faulted (n : Nat) (a : Word) (w : Bool) (c : Fault) (h : check s.params a n w = some c) :
      Effect s (s.takeFault c)
  | advanced : Effect s s.advance
  | branched (offset : BitVec 13) (h : offset.getLsbD 0 = false) : Effect s (s.jumpTo (s.pc + immB offset))
  | jumped (rd : Reg) (offset : BitVec 21) (h : offset.getLsbD 0 = false) :
      Effect s (((s.writeReg rd (s.pc + 4)).callStackPush (s.pc + 4)).jumpTo (s.pc + immJ offset))
  | returned (rd rs1 : Reg) (imm : BitVec 12) :
      Effect s ((s.writeReg rd (s.pc + 4)).callStackPop.jumpTo (jalrTarget (s.readReg rs1) imm))
  | ended : Effect s { s.callStackClear with runState := .halted, lastStatus := some .ended }

theorem loadFrom_effect (s : State) (n : Nat) (ext : Word → Word) (rd rs1 : Reg) (imm : BitVec 12) :
    ∃ t, s.loadFrom n ext rd rs1 imm = .next t ∧ Effect s t := by
  unfold State.loadFrom
  cases h : s.memRead (effectiveAddr (s.readReg rs1) imm) n with
  | error c => exact ⟨_, rfl, .faulted n _ false c (State.memRead_error.mp h)⟩
  | ok r => exact ⟨_, rfl, .loaded n _ r.1 _ rd r.2 h⟩

theorem storeTo_effect (s : State) (n : Nat) (rs1 : Reg) (imm : BitVec 12) (rs2 : Reg) :
    ∃ t, s.storeTo n rs1 imm rs2 = .next t ∧ Effect s t := by
  unfold State.storeTo
  cases h : s.memWrite (effectiveAddr (s.readReg rs1) imm) n (s.readReg rs2) with
  | error c => exact ⟨_, rfl, .faulted n _ true c (State.memWrite_error.mp h)⟩
  | ok r => exact ⟨_, rfl, .stored n _ _ r h⟩

theorem branchIf_effect (s : State) (cond : Word → Word → Bool) (rs1 rs2 : Reg) (offset : BitVec 13)
    (h : offset.getLsbD 0 = false) : ∃ t, s.branchIf cond rs1 rs2 offset = .next t ∧ Effect s t := by
  unfold State.branchIf
  split
  · exact ⟨_, rfl, .branched offset h⟩
  · exact ⟨_, rfl, .advanced⟩

/-- The meaning of a well-formed instruction answers a next state, and it is one of these. -/
theorem exec_effect (i : Instr) (hi : i.wf = true) (s : State) : ∃ t, exec i s = .next t ∧ Effect s t := by
  have odd : ∀ {k : Nat} {o : BitVec k}, (!o.getLsbD 0) = true → o.getLsbD 0 = false := by
    intro k o h; simpa using h
  cases i with
  | lb rd rs1 imm | lh rd rs1 imm | lw rd rs1 imm | ld rd rs1 imm | lbu rd rs1 imm | lhu rd rs1 imm
  | lwu rd rs1 imm => exact loadFrom_effect s _ _ rd rs1 imm
  | sb rs1 imm rs2 | sh rs1 imm rs2 | sw rs1 imm rs2 | sd rs1 imm rs2 => exact storeTo_effect s _ rs1 imm rs2
  | beq rs1 rs2 o | bne rs1 rs2 o | blt rs1 rs2 o | bge rs1 rs2 o | bltu rs1 rs2 o | bgeu rs1 rs2 o =>
    exact branchIf_effect s _ rs1 rs2 o (odd hi)
  | jal rd o => exact ⟨_, rfl, .jumped rd o (odd hi)⟩
  | jalr rd rs1 imm => exact ⟨_, rfl, .returned rd rs1 imm⟩
  | ecall | ebreak => exact ⟨_, rfl, .advanced⟩
  | sentinel => exact ⟨_, rfl, .ended⟩
  | _ => exact ⟨_, rfl, .result _ _⟩

end Sys2Proof.Machine
end

