-- ==== Sys2Proof/Laws/Step.lean ====
section
/-! SUPPORT. The inversion of the step: everything one step can do, each case with its guard. -/

namespace Sys2Proof.Machine

variable {s t : State}

/-- The fetch answers a word and a state that differs in the memory system alone. -/
theorem State.fetch_fields {w : InstrWord} (h : s.fetch = .ok (w, t)) :
    check s.params s.pc 4 false = none ∧ t = { s with memSys := t.memSys } := by
  unfold State.fetch at h
  cases hr : s.memRead s.pc 4 with
  | error c => rw [hr] at h; exact absurd h (by simp)
  | ok r =>
    obtain ⟨v, u⟩ := r
    rw [hr] at h
    simp only [Except.ok.injEq, Prod.mk.injEq] at h
    obtain ⟨-, rfl⟩ := h
    exact State.memRead_fields hr

theorem State.fetch_error {c : Fault} : s.fetch = .error c ↔ check s.params s.pc 4 false = some c := by
  rw [← State.memRead_error]
  unfold State.fetch
  cases s.memRead s.pc 4 with
  | error d => simp
  | ok r => simp

/-- Everything one step that answers a next state can have done (R309). -/
inductive StepEffect (s : State) : State → Prop
  | stopped (h : s.runState = .faulted) : StepEffect s { s with lastStatus := some .fault }
  | inData (h : s.runState ≠ .faulted) (hpc : s.params.dataBase ≤ s.pc.toNat) :
      StepEffect s (s.takeFault .pcData)
  | fetchFault (c : Fault) (h : s.runState ≠ .faulted) (hpc : s.pc.toNat < s.params.dataBase)
      (hc : check s.params s.pc 4 false = some c) : StepEffect s (s.takeFault c)
  | sentinel (w : InstrWord) (u : State) (h : s.runState ≠ .faulted) (hpc : s.pc.toNat < s.params.dataBase)
      (hf : s.fetch = .ok (w, u)) (hw : decodeWord w = .ok .sentinel) :
      StepEffect s { u.callStackClear with runState := .halted, lastStatus := some .ended }
  | executed (w : InstrWord) (u : State) (i : Instr) (v : State) (h : s.runState ≠ .faulted)
      (hpc : s.pc.toNat < s.params.dataBase) (hf : s.fetch = .ok (w, u)) (hw : decodeWord w = .ok i)
      (hi : i ≠ .sentinel) (he : exec i u.beginInstr = .next v) :
      StepEffect s (if v.runState = .faulted then v else v.lookAhead)
  | unhandled (w : InstrWord) (u : State) (r : DecodeReject) (h : s.runState ≠ .faulted)
      (hpc : s.pc.toNat < s.params.dataBase) (hf : s.fetch = .ok (w, u)) (hw : decodeWord w = .error r)
      (hs : s.params.strictDecode = false) : StepEffect s u.beginInstr.advance.lookAhead

theorem step_effect (h : step s = .next t) : StepEffect s t := by
  unfold step cycle at h
  split at h
  · rename_i hf
    simp only [Host.Outcome.next.injEq] at h
    subst h
    exact .stopped hf
  rename_i hf
  split at h
  · rename_i hpc
    simp only [Host.Outcome.next.injEq] at h
    subst h
    exact .inData hf hpc
  rename_i hpc
  have hpc : s.pc.toNat < s.params.dataBase := by omega
  cases hfe : s.fetch with
  | error c =>
    rw [hfe] at h
    simp only [Host.Outcome.next.injEq] at h
    subst h
    exact .fetchFault c hf hpc (State.fetch_error.mp hfe)
  | ok r =>
    obtain ⟨w, u⟩ := r
    rw [hfe] at h
    simp only [runWord] at h
    have hu := (State.fetch_fields hfe).2
    cases hw : decodeWord w with
    | error d =>
      rw [hw] at h
      simp only [runUnhandled] at h
      split at h
      · exact absurd h (by simp)
      rename_i hs
      have hs : s.params.strictDecode = false := by
        rw [hu] at hs
        simpa using hs
      have hrs : u.beginInstr.advance.runState ≠ .faulted := by
        rw [hu]
        exact hf
      rw [finishStep, if_neg hrs] at h
      simp only [Host.Outcome.next.injEq] at h
      subst h
      exact .unhandled w u d hf hpc hfe hw hs
    | ok i =>
      rw [hw] at h
      simp only [runInstr] at h
      split at h
      · rename_i hi
        subst hi
        have : exec .sentinel u = .next { u.callStackClear with
          runState := .halted, lastStatus := some .ended } := rfl
        rw [this] at h
        simp only [Host.Outcome.next.injEq] at h
        subst h
        exact .sentinel w u hf hpc hfe hw
      · rename_i hi
        cases he : exec i u.beginInstr with
        | fault c => rw [he] at h; exact absurd h (by simp [finishStep])
        | refused q => rw [he] at h; exact absurd h (by simp [finishStep])
        | next v =>
          rw [he, finishStep] at h
          simp only [Host.Outcome.next.injEq] at h
          subst h
          exact .executed w u i v hf hpc hfe hw hi he

end Sys2Proof.Machine
end

