-- ==== Sys2Proof/Laws/Claims.lean ====
section
/-! SUPPORT. The vocabulary of the statements beside the model's own operations: fields and immediates by
division, arithmetic over the integers, and how each instruction shape meets its result structure. -/

namespace Sys2Proof.Claims

open Sys2Proof.Machine

theorem produces_result (s : State) (rd : Reg) (v v' : Word) (h : v = v') :
   ∃ t, s.result rd v = .next t ∧ RegisterResult s t rd v' := by
  subst h
  refine ⟨_, rfl, ?_, ?_, rfl, ?_, rfl, fun _ => rfl, rfl, ⟨rfl, rfl, rfl, rfl⟩, ⟨rfl, rfl, rfl, rfl, rfl, rfl⟩⟩
  · show (s.writeReg rd v).readReg rd = _
    rw [State.readReg_writeReg]; by_cases h : rd = 0 <;> simp [h]
  · intro r hr
    show (s.writeReg rd v).readReg r = _
    rw [State.readReg_writeReg]; simp [hr]
  · show s.pc + 4 = _
    simp [nextPc, u64, BitVec.ofNat_add]

theorem rdOf_eq (w : InstrWord) : rdOf w = regAt w 7 := by
  apply Fin.ext
  simp [rdOf, regAt, Nat.shiftRight_eq_div_pow, Fin.ofNat]

theorem rs1Of_eq (w : InstrWord) : rs1Of w = regAt w 15 := by
  apply Fin.ext
  simp [rs1Of, regAt, Nat.shiftRight_eq_div_pow, Fin.ofNat]

theorem rs2Of_eq (w : InstrWord) : rs2Of w = regAt w 20 := by
  apply Fin.ext
  simp [rs2Of, regAt, Nat.shiftRight_eq_div_pow, Fin.ofNat]

theorem immIOf_eq (w : InstrWord) : immIOf w = BitVec.ofNat 12 (w.toNat / 2 ^ 20) := by
  apply BitVec.eq_of_toNat_eq
  simp [immIOf, Nat.shiftRight_eq_div_pow, BitVec.extractLsb'_toNat]

theorem shamtOf_eq (w : InstrWord) : shamtOf w = BitVec.ofNat 6 (w.toNat / 2 ^ 20) := by
  apply BitVec.eq_of_toNat_eq
  simp [shamtOf, Nat.shiftRight_eq_div_pow, BitVec.extractLsb'_toNat]

theorem immUOf_eq (w : InstrWord) : immUOf w = BitVec.ofNat 20 (w.toNat / 2 ^ 12) := by
  apply BitVec.eq_of_toNat_eq
  simp [immUOf, Nat.shiftRight_eq_div_pow, BitVec.extractLsb'_toNat]

theorem getLsbD_div (w : InstrWord) (k i : Nat) : (w.toNat / 2 ^ k).testBit i = w.getLsbD (k + i) := by
  rw [Nat.testBit_div_two_pow, BitVec.testBit_toNat, Nat.add_comm]

theorem immSOf_eq (w : InstrWord) : immSOf w = BitVec.ofNat 12 (w.toNat / 2 ^ 25 * 2 ^ 5 + w.toNat / 2 ^ 7 % 2 ^ 5) := by
  apply BitVec.eq_of_getLsbD_eq
  intro i hi
  rw [BitVec.getLsbD_ofNat, Nat.mul_comm, Nat.two_pow_add_eq_or_of_lt (Nat.mod_lt _ (by decide)), Nat.testBit_or,
    Nat.mul_comm, Nat.testBit_mul_two_pow, Nat.testBit_mod_two_pow, getLsbD_div, getLsbD_div]
  simp [immSOf]
  interval_cases i <;> simp

theorem immBOf_eq (w : InstrWord) : immBOf w = BitVec.ofNat 13 (w.toNat / 2 ^ 31 * 2 ^ 12 + w.toNat / 2 ^ 7 % 2 * 2 ^ 11 +
      w.toNat / 2 ^ 25 % 2 ^ 6 * 2 ^ 5 + w.toNat / 2 ^ 8 % 2 ^ 4 * 2) := by
  have h1 : w.toNat / 2 ^ 31 * 2 ^ 12 + w.toNat / 2 ^ 7 % 2 * 2 ^ 11 +
      w.toNat / 2 ^ 25 % 2 ^ 6 * 2 ^ 5 + w.toNat / 2 ^ 8 % 2 ^ 4 * 2 =
      2 ^ 12 * (w.toNat / 2 ^ 31) + (2 ^ 11 * (w.toNat / 2 ^ 7 % 2^1) + (2^5 * (w.toNat / 2 ^ 25 % 2 ^ 6) + (2^1 * (w.toNat / 2 ^ 8 % 2 ^ 4)))) := by omega
  rw [h1]
  apply BitVec.eq_of_getLsbD_eq
  intro i hi
  rw [BitVec.getLsbD_ofNat, Nat.two_pow_add_eq_or_of_lt (by omega), Nat.two_pow_add_eq_or_of_lt (by omega), Nat.two_pow_add_eq_or_of_lt (by omega)]
  simp only [Nat.testBit_or, Nat.testBit_two_pow_mul, Nat.testBit_mod_two_pow, getLsbD_div]
  simp [immBOf]
  interval_cases i <;> simp

theorem immJOf_eq (w : InstrWord) : immJOf w = BitVec.ofNat 21 (w.toNat / 2 ^ 31 * 2 ^ 20 + w.toNat / 2 ^ 12 % 2 ^ 8 * 2 ^ 12 +
      w.toNat / 2 ^ 20 % 2 * 2 ^ 11 + w.toNat / 2 ^ 21 % 2 ^ 10 * 2) := by
  have h1 : w.toNat / 2 ^ 31 * 2 ^ 20 + w.toNat / 2 ^ 12 % 2 ^ 8 * 2 ^ 12 +
      w.toNat / 2 ^ 20 % 2 * 2 ^ 11 + w.toNat / 2 ^ 21 % 2 ^ 10 * 2 =
      2 ^ 20 * (w.toNat / 2 ^ 31) + (2 ^ 12 * (w.toNat / 2 ^ 12 % 2^8) + (2^11 * (w.toNat / 2 ^ 20 % 2 ^ 1) + (2^1 * (w.toNat / 2 ^ 21 % 2 ^ 10)))) := by omega
  rw [h1]
  apply BitVec.eq_of_getLsbD_eq
  intro i hi
  rw [BitVec.getLsbD_ofNat, Nat.two_pow_add_eq_or_of_lt (by omega), Nat.two_pow_add_eq_or_of_lt (by omega), Nat.two_pow_add_eq_or_of_lt (by omega)]
  simp only [Nat.testBit_or, Nat.testBit_two_pow_mul, Nat.testBit_mod_two_pow, getLsbD_div]
  simp [immJOf]
  interval_cases i <;> simp

theorem ne_zero_of_key {w m p : InstrWord} (h : w &&& m = p) (hp : p ≠ 0#32) : w ≠ 0#32 := by
  rintro rfl; exact hp (by rw [← h]; simp)

theorem encodedR_of (p : InstrWord) (mk : Reg → Reg → Reg → Instr) (op7 : opcodeOf p = 0x33#7)
   (hd : ∀ w, funct7Of w = funct7Of p → funct3Of w = funct3Of p → decodeOp w = some (mk (rdOf w) (rs1Of w) (rs2Of w))) : EncodedR p mk := by
  intro w h
  have hp : p ≠ 0#32 := by rintro rfl; revert op7; decide
  have h0 := ne_zero_of_key h hp
  have ho := opcodeOf_of_key (by decide) h
  have hf := funct3Of_of_key (by decide) h
  have hf7 := funct7Of_of_key (by decide) h
  rw [decodeWord, if_neg h0, if_pos (ho.trans op7), hd w hf7 hf, orUnhandled, rdOf_eq, rs1Of_eq, rs2Of_eq]

theorem setLessSigned_eq (x y : Word) : setLessSigned x y = if x.toInt < y.toInt then 1 else 0 := by
  simp [setLessSigned, boolWord, lessSigned, BitVec.slt]

theorem setLessUnsigned_eq (x y : Word) : setLessUnsigned x y = if x.toNat < y.toNat then 1 else 0 := by
  simp [setLessUnsigned, boolWord, lessUnsigned, BitVec.ult]

theorem sub_eq_u64i (x y : Word) : x - y = u64i (x.toNat - y.toNat) := by
  apply BitVec.eq_of_toInt_eq
  rw [BitVec.toInt_sub, u64i, BitVec.toInt_ofInt, BitVec.toInt_eq_toNat_bmod, BitVec.toInt_eq_toNat_bmod]
  simp

theorem producesBits_of {i : Instr} {s : State} {rd : Reg} {v : Word} {bit : Nat → Bool} (he : exec i s = s.result rd v)
   (h : ∀ k, k < 64 → v.getLsbD k = bit k) : ProducesBits i s rd bit := by
  refine ⟨v, h, ?_⟩
  unfold Produces
  rw [he]
  exact produces_result s rd v v rfl

theorem shiftLeft_eq (x : Word) (n : Nat) : shiftLeft x n = u64 (x.toNat * 2 ^ n) := by
  apply BitVec.eq_of_toNat_eq
  simp [shiftLeft, u64, Nat.shiftLeft_eq]

theorem shiftRightLogical_eq (x : Word) (n : Nat) : shiftRightLogical x n = u64 (x.toNat / 2 ^ n) := by
  apply BitVec.eq_of_toNat_eq
  have := x.isLt
  rw [u64, shiftRightLogical, BitVec.toNat_ushiftRight, BitVec.toNat_ofNat, Nat.shiftRight_eq_div_pow, Nat.mod_eq_of_lt]
  exact Nat.lt_of_le_of_lt (Nat.div_le_self _ _) this

theorem shiftRightArith_eq (x : Word) (n : Nat) : shiftRightArith x n = u64i (Int.fdiv x.toInt (2 ^ n)) := by
  apply BitVec.eq_of_toInt_eq
  have h2 : ((2:Int) ^ n) = ((2 ^ n : Nat) : Int) := by simp
  rw [shiftRightArith, u64i, BitVec.toInt_sshiftRight, Int.shiftRight_eq_div_pow, BitVec.toInt_ofInt, h2, Int.fdiv_eq_ediv_of_nonneg _ (Int.natCast_nonneg _)]
  have h1 := BitVec.two_mul_toInt_lt (x := x)
  have h3 := BitVec.le_two_mul_toInt (x := x)
  have hp : (0:Int) < ((2 ^ n : Nat) : Int) := by exact_mod_cast Nat.two_pow_pos n
  symm
  apply Int.bmod_eq_of_le
  · have : (-(2:Int)^63) ≤ x.toInt / ((2 ^ n : Nat) : Int) := by
      apply Int.le_ediv_of_mul_le hp
      have : (1:Int) ≤ ((2 ^ n : Nat) : Int) := by omega
      nlinarith
    norm_num at this ⊢; omega
  · have : x.toInt / ((2 ^ n : Nat) : Int) < 2^63 := by
      apply Int.ediv_lt_of_lt_mul hp
      have : (1:Int) ≤ ((2 ^ n : Nat) : Int) := by omega
      nlinarith
    norm_num at this ⊢; omega

theorem shiftAmount_eq (v : Word) : shiftAmount v = v.toNat % 64 := by
  simp [shiftAmount, BitVec.extractLsb'_toNat]

theorem encodedI_of (p : InstrWord) (mk : Reg → Reg → BitVec 12 → Instr) (hp : p ≠ 0#32 ∨ opcodeOf p = 0x03#7) (f : InstrWord → Option Instr)
   (hdec : ∀ w, w ≠ 0#32 → opcodeOf w = opcodeOf p → decodeWord w = orUnhandled w (f w))
   (hd : ∀ w, funct3Of w = funct3Of p → f w = some (mk (rdOf w) (rs1Of w) (immIOf w))) : EncodedI p mk := by
  intro w h
  have ho := opcodeOf_of_key (by decide) h
  have h0 : w ≠ 0#32 := by
    rintro rfl
    rcases hp with hp | hp
    · exact hp (by rw [← h]; simp)
    · rw [hp] at ho; revert ho; decide
  have hf := funct3Of_of_key (by decide) h
  rw [hdec w h0 ho, hd w hf, orUnhandled, rdOf_eq, rs1Of_eq, immIOf_eq]

theorem imm12_getLsbD (imm : BitVec 12) (k : Nat) (hk : k < 64) : (imm12 imm).getLsbD k = imm.getLsbD (min k 11) := by
  rw [imm12, BitVec.getLsbD_signExtend]
  by_cases h : k < 12
  · simp [hk, h, show min k 11 = k by omega]
  · simp [hk, h, show min k 11 = 11 by omega, BitVec.msb_eq_getLsbD_last]

theorem imm12_toInt (imm : BitVec 12) : (imm12 imm).toInt = imm.toInt := by
  rw [imm12, BitVec.toInt_signExtend_of_le (by decide)]

theorem add_eq_u64i (x y : Word) : x + y = u64i (x.toNat + y.toInt) := by
  simp [u64i, BitVec.ofInt_add]

theorem encodedShift_of (p : InstrWord) (mk : Reg → Reg → BitVec 6 → Instr) (hp : opcodeOf p = 0x13#7) 
   (hd : ∀ w, funct3Of w = funct3Of p → funct6Of w = funct6Of p → decodeOpImm w = some (mk (rdOf w) (rs1Of w) (shamtOf w))) : EncodedShift p mk := by
  intro w h
  have ho := opcodeOf_of_key (by decide) h
  have h0 : w ≠ 0#32 := by
    rintro rfl
    rw [hp] at ho; revert ho; decide
  have hf := funct3Of_of_key (by decide) h
  have hf6 := funct6Of_of_key (by decide) h
  rw [hp] at ho
  have : decodeWord w = orUnhandled w (decodeOpImm w) := by simp only [decodeWord, h0, ho]; rfl
  rw [this, hd w hf hf6, orUnhandled, rdOf_eq, rs1Of_eq, shamtOf_eq]

theorem valueAt_eq (s : State) (a : Word) (n : Nat) (hn : n ≤ 8) :
    (wordOfBytes ((List.range n).map fun k => s.peekByte (a + BitVec.ofNat 64 k))).toNat = valueAt s a n := by
  induction n generalizing a with
  | zero => simp [wordOfBytes, valueAt]
  | succ n ih =>
    rw [List.range_succ_eq_map, List.map_cons, List.map_map]
    rw [(toNat_wordOfBytes_cons _ _ (by simp; omega)).1]
    have : ((fun k => s.peekByte (a + BitVec.ofNat 64 k)) ∘ Nat.succ) = (fun k => s.peekByte (a + 1 + BitVec.ofNat 64 k)) := by
      funext k
      show s.peekByte (a + BitVec.ofNat 64 (k+1)) = _
      rw [Nat.add_comm k 1, BitVec.ofNat_add, ← BitVec.add_assoc]
      rfl
    rw [this, ih _ (by omega)]
    simp [valueAt]

theorem valueAt_lt (s : State) (a : Word) (n : Nat) (hn : n ≤ 8) : valueAt s a n < 2 ^ (8 * n) := by
  rw [← valueAt_eq s a n hn]
  have := toNat_wordOfBytes_lt ((List.range n).map fun k => s.peekByte (a + BitVec.ofNat 64 k)) (by simpa using hn)
  rw [show (2 ^ (8 * n)) = 256 ^ n by rw [Nat.pow_mul]]
  simpa using this

theorem u64_toNat (v : Word) : u64 v.toNat = v := by simp [u64]

theorem faultTaken_takeFault (s : State) (c : Fault) : FaultTaken s (s.takeFault c) c :=
  ⟨rfl, rfl, rfl, rfl, rfl, fun _ => rfl, rfl, rfl, fun _ => rfl, rfl, ⟨rfl, rfl, rfl, rfl, rfl, rfl⟩⟩

theorem lookup_setup (size : Nat) (c : Cache) (m : Memory) (d : Nat) (a : Word) (al : Bool) :
    (c.lookup size m d a al).cache.cfg = c.cfg ∧ (c.lookup size m d a al).cache.traceEnable = c.traceEnable := by
  unfold Cache.lookup
  dsimp only
  split
  · exact ⟨rfl, rfl⟩
  · split
    · exact ⟨(Cache.fill_fields ..).1, (Cache.fill_fields ..).2.1⟩
    · exact ⟨rfl, rfl⟩

theorem byteRead_setup (size : Nat) (x : MemSystem) (a : Word) :
    cacheSetup (x.byteRead size a).2 = cacheSetup x := by
  unfold MemSystem.byteRead
  cases hc : x.cache with
  | none => rfl
  | some c =>
    obtain ⟨h1, h2⟩ := lookup_setup size c x.store x.draws a true
    show some ((c.lookup size x.store x.draws a true).cache.cfg, (c.lookup size x.store x.draws a true).cache.traceEnable) = _
    rw [h1, h2, cacheSetup, hc]; rfl

theorem byteWrite_setup (size : Nat) (x : MemSystem) (a : Word) (b : Byte) :
    cacheSetup (x.byteWrite size a b) = cacheSetup x := by
  unfold MemSystem.byteWrite
  cases hc : x.cache with
  | none => simp [cacheSetup, hc]
  | some c =>
    obtain ⟨h1, h2⟩ := lookup_setup size c x.store x.draws a c.cfg.writeAllocate
    obtain ⟨u1, -, u3, -⟩ := Cache.updateLine_fields (c.lookup size x.store x.draws a c.cfg.writeAllocate).cache
      (c.lookup size x.store x.draws a c.cfg.writeAllocate).way a b
    rw [h1] at u1
    rw [h2] at u3
    have e : cacheSetup x = some (c.cfg, c.traceEnable) := by rw [cacheSetup, hc]; rfl
    rw [e]
    have : ∀ d : Cache, d.cfg = c.cfg → d.traceEnable = c.traceEnable →
        some ((match c.cfg.writePolicy with
          | .writeThrough => d.countWriteback
          | .writeBack => d).refreshRate.cfg, (match c.cfg.writePolicy with
          | .writeThrough => d.countWriteback
          | .writeBack => d).refreshRate.traceEnable) = some (c.cfg, c.traceEnable) := by
      intro d hd1 hd2
      rw [← hd1, ← hd2]
      cases d.cfg.writePolicy <;> rfl
    exact this _ u1 u3

theorem readBytes_setup (size : Nat) (n : Nat) (a : Word) (x : MemSystem) :
    cacheSetup (readBytes size n a x).2 = cacheSetup x := by
  induction n generalizing a x with
  | zero => rfl
  | succ n ih => exact (ih (a + 1) (x.byteRead size a).2).trans (byteRead_setup size x a)

theorem writeBytes_setup (size : Nat) (bs : List Byte) (a : Word) (x : MemSystem) :
    cacheSetup (writeBytes size bs a x) = cacheSetup x := by
  induction bs generalizing a x with
  | nil => rfl
  | cons b bs ih => exact (ih (a + 1) (x.byteWrite size a b)).trans (byteWrite_setup size x a b)

theorem writeBytes_uncached (size : Nat) (bs : List Byte) (a : Word) (x : MemSystem) (hc : x.cache = none) :
    writeBytes size bs a x = { x with store := (writeBytes size bs a x).store } := by
  induction bs generalizing a x with
  | nil => rfl
  | cons b bs ih =>
    have e : x.byteWrite size a b = { x with store := x.store.write a.toNat b } := by
      rw [MemSystem.byteWrite, hc]
    have hi := ih (a + 1) (x.byteWrite size a b) (by rw [e]; exact hc)
    show writeBytes size bs (a + 1) (x.byteWrite size a b) = { x with store := (writeBytes size bs (a + 1) (x.byteWrite size a b)).store }
    rw [e] at hi ⊢
    exact hi

theorem memRead_setup {s t : State} {a : Word} {n : Nat} {v : Word} (h : s.memRead a n = .ok (v, t)) :
    cacheSetup t.memSys = cacheSetup s.memSys := by
  unfold State.memRead at h
  cases hc : check s.params a n false with
  | some c => rw [hc] at h; cases h
  | none => rw [hc] at h; cases h; exact readBytes_setup _ _ _ _

theorem memWrite_setup {s t : State} {a : Word} {n : Nat} {v : Word} (h : s.memWrite a n v = .ok t) :
    cacheSetup t.memSys = cacheSetup s.memSys ∧
      (s.memSys.cache = none → t.memSys = { s.memSys with store := t.memSys.store }) := by
  unfold State.memWrite at h
  cases hc : check s.params a n true with
  | some c => rw [hc] at h; cases h
  | none =>
    rw [hc] at h; cases h
    exact ⟨writeBytes_setup _ _ _ _, writeBytes_uncached _ _ _ _⟩

theorem fetch_setup {s t : State} {w : InstrWord} (h : s.fetch = .ok (w, t)) : SameSetup s t := by
  have hf := (State.fetch_fields h).2
  unfold State.fetch at h
  cases hr : s.memRead s.pc 4 with
  | error c => rw [hr] at h; cases h
  | ok r =>
    rw [hr] at h; cases h
    have := memRead_setup hr
    rw [hf]
    exact ⟨rfl, rfl, rfl, rfl, rfl, this⟩

theorem SameSetup.trans {s t u : State} (h : SameSetup s t) (k : SameSetup t u) : SameSetup s u :=
  ⟨k.params.trans h.params, k.breakpoints.trans h.breakpoints, k.lineTable.trans h.lineTable,
    k.labels.trans h.labels, k.image.trans h.image, k.cache.trans h.cache⟩

theorem loads_of {s : State} (hinv : s.Inv) {i : Instr} {n : Nat} {ext : Word → Word} {rd rs1 : Reg} {imm : BitVec 12} {v : Word}
    (he : exec i s = s.loadFrom n ext rd rs1 imm) (hn : n ≤ 8)
    (hv : ∀ w : Word, w.toNat = valueAt s (addressOf s rs1 imm) n → ext w = v) : Loads i s rd (addressOf s rs1 imm) n v := by
  constructor
  · intro h
    rw [he, State.loadFrom]
    obtain ⟨x, hr, hx, hp⟩ := State.memRead_ok hinv.mem hinv.params.2.1 h
    change s.memRead (effectiveAddr (s.readReg rs1) imm) n = _ at hr
    rw [hr]
    have setup : cacheSetup x = cacheSetup s.memSys := memRead_setup hr
    have := hv _ (valueAt_eq s _ n hn)
    refine ⟨_, rfl, ?_⟩
    rw [this]
    refine ⟨?_, ?_, rfl, ?_, ?_, ?_, rfl, ⟨rfl, rfl, rfl, rfl⟩, ⟨rfl, rfl, rfl, rfl, rfl, setup⟩⟩
    · show (State.writeReg _ rd v).readReg rd = _
      rw [State.readReg_writeReg]
      by_cases h : rd = 0
      · subst h; simp
      · simp [h]
    · intro r hr
      show (State.writeReg _ rd v).readReg r = _
      rw [State.readReg_writeReg]; simp [hr]; rfl
    · show s.pc + 4 = _
      simp [nextPc, u64, BitVec.ofNat_add]
    · intro hc
      show x = s.memSys
      have e := hr
      rw [State.memRead] at e
      split at e
      · cases e
      · simp only [Except.ok.injEq, Prod.mk.injEq] at e
        have e2 := congrArg State.memSys e.2
        have : ∀ n a, (readBytes s.params.memorySize n a s.memSys).2 = s.memSys := by
          intro n
          induction n with
          | zero => intro a; rfl
          | succ n ih => 
            intro a; simp only [readBytes, MemSystem.byteRead, hc]; exact ih _
        rw [this] at e2
        exact e2.symm
    · exact hp
  · intro h
    have : s.memRead (effectiveAddr (s.readReg rs1) imm) n = .error .oob := State.memRead_error.mpr (check_eq_oob.mpr h)
    refine ⟨s.takeFault .oob, ?_, faultTaken_takeFault s _⟩
    rw [he, State.loadFrom, this]

theorem stores_of {s : State} (hinv : s.Inv) {i : Instr} {n : Nat} {rs1 rs2 : Reg} {imm : BitVec 12} 
    (he : exec i s = s.storeTo n rs1 imm rs2) : Stores i s (addressOf s rs1 imm) n (s.readReg rs2) := by
  refine ⟨?_, ?_, ?_⟩
  · intro h hg
    rw [he, State.storeTo]
    obtain ⟨x, hr, hx, hp⟩ := State.memWrite_ok (v := s.readReg rs2) hinv.mem hinv.params.2.1 h hg
    change s.memWrite (effectiveAddr (s.readReg rs1) imm) n _ = _ at hr
    rw [hr]
    refine ⟨_, rfl, ?_, ?_, fun _ => rfl, rfl, ?_, (memWrite_setup hr).2, rfl, ⟨rfl, rfl, rfl, rfl⟩,
      ⟨rfl, rfl, rfl, rfl, rfl, (memWrite_setup hr).1⟩⟩
    · intro y hy h1 h2
      show x.peekByte y = _
      rw [hp y hy, if_pos ⟨h1, h2⟩]
    · intro y hy h1
      show x.peekByte y = _
      rw [hp y hy, if_neg h1]
    · show s.pc + 4 = _
      simp [nextPc, u64, BitVec.ofNat_add]
  · intro h
    have : s.memWrite (effectiveAddr (s.readReg rs1) imm) n (s.readReg rs2) = .error .oob := State.memWrite_error.mpr (check_eq_oob.mpr h)
    refine ⟨s.takeFault .oob, ?_, faultTaken_takeFault s _⟩
    rw [he, State.storeTo, this]
  · intro h h1 h2
    have : s.memWrite (effectiveAddr (s.readReg rs1) imm) n (s.readReg rs2) = .error .textWrite := State.memWrite_error.mpr (check_eq_textWrite.mpr ⟨h, rfl, h1, h2⟩)
    refine ⟨s.takeFault .textWrite, ?_, faultTaken_takeFault s _⟩
    rw [he, State.storeTo, this]

theorem sext_eq_u64i (n : Nat) (w : Word) (hn : 0 < n ∧ n ≤ 8) : sext (8*n) w = u64i (signedBytes n w.toNat) := by
  apply BitVec.eq_of_toInt_eq
  rw [sext, BitVec.toInt_signExtend, u64i, BitVec.toInt_ofInt, signedBytes, BitVec.toInt_eq_toNat_bmod, BitVec.toNat_setWidth]
  rw [min_eq_right (by omega), Int.bmod_bmod]
  have h1 : Int.bmod (((w.toNat % 2 ^ (8*n) : Nat)) : Int) (2 ^ (8*n)) = Int.bmod (w.toNat : Int) (2 ^ (8*n)) := by
    rw [Int.natCast_emod, Int.emod_bmod]
  rw [h1]
  have hpos : 0 < 2 ^ (8 * n) := Nat.two_pow_pos _
  have h3 := Int.le_bmod (x := (w.toNat : Int)) hpos
  have h4 := Int.bmod_lt (x := (w.toNat : Int)) hpos
  symm
  have hle : 2 ^ (8 * n) ≤ 2 ^ 64 := Nat.pow_le_pow_right (by decide) (by omega)
  apply Int.bmod_eq_of_le <;> omega

theorem zext_eq_u64 (n : Nat) (w : Word) (h : w.toNat < 2 ^ (8*n)) : zext (8*n) w = u64 w.toNat := by
  apply BitVec.eq_of_toNat_eq
  rw [zext, BitVec.toNat_setWidth, BitVec.toNat_setWidth, Nat.mod_eq_of_lt h, u64_toNat, Nat.mod_eq_of_lt w.isLt]

theorem key_opcode {w p m : InstrWord} (h : w &&& m = p) (hm : opcodeOf m = BitVec.allOnes 7) (hp : opcodeOf p ≠ 0#7) : w ≠ 0#32 ∧ opcodeOf w = opcodeOf p := by
  have ho := opcodeOf_of_key hm h
  refine ⟨?_, ho⟩
  rintro rfl
  rw [← ho] at hp
  revert hp; decide

theorem encodedS_of (p : InstrWord) (mk) (hp : opcodeOf p = 0x23#7)
   (hd : ∀ w, funct3Of w = funct3Of p → decodeStore w = some (mk (rs1Of w) (immSOf w) (rs2Of w))) : EncodedS p mk := by
  intro w h
  obtain ⟨h0, ho⟩ := key_opcode h (by decide) (by rw [hp]; decide)
  have hf := funct3Of_of_key (by decide) h
  rw [hp] at ho
  have : decodeWord w = orUnhandled w (decodeStore w) := by simp only [decodeWord, h0, ho]; rfl
  rw [this, hd w hf, orUnhandled, rs1Of_eq, rs2Of_eq, immSOf_eq]

theorem encodedB_of (p : InstrWord) (mk) (hp : opcodeOf p = 0x63#7)
   (hd : ∀ w, funct3Of w = funct3Of p → decodeBranch w = some (mk (rs1Of w) (rs2Of w) (immBOf w))) : EncodedB p mk := by
  intro w h
  obtain ⟨h0, ho⟩ := key_opcode h (by decide) (by rw [hp]; decide)
  have hf := funct3Of_of_key (by decide) h
  rw [hp] at ho
  have : decodeWord w = orUnhandled w (decodeBranch w) := by simp only [decodeWord, h0, ho]; rfl
  rw [this, hd w hf, orUnhandled, rs1Of_eq, rs2Of_eq, immBOf_eq]

theorem wordOfFourBytes_toNat (b0 b1 b2 b3 : Byte) : (wordOfFourBytes b0 b1 b2 b3).toNat =
    b0.toNat + 256 * (b1.toNat + 256 * (b2.toNat + 256 * b3.toNat)) := by
  have h0 := b0.isLt; have h1 := b1.isLt; have h2 := b2.isLt; have h3 := b3.isLt
  rw [show b0.toNat + 256 * (b1.toNat + 256 * (b2.toNat + 256 * b3.toNat)) =
    2^24 * b3.toNat + (2^16 * b2.toNat + (2^8 * b1.toNat + b0.toNat)) by ring]
  rw [Nat.two_pow_add_eq_or_of_lt (by omega), Nat.two_pow_add_eq_or_of_lt (by omega), Nat.two_pow_add_eq_or_of_lt (by omega)]
  simp only [wordOfFourBytes, BitVec.toNat_or, BitVec.toNat_shiftLeft, BitVec.toNat_setWidth, Nat.shiftLeft_eq]
  rw [Nat.mod_eq_of_lt (a := b0.toNat) (by omega), Nat.mod_eq_of_lt (a := b1.toNat) (by omega), Nat.mod_eq_of_lt (a := b2.toNat) (by omega), Nat.mod_eq_of_lt (a := b3.toNat) (by omega),
    Nat.mod_eq_of_lt (a := b1.toNat * 2^8) (by omega), Nat.mod_eq_of_lt (a := b2.toNat * 2^16) (by omega), Nat.mod_eq_of_lt (a := b3.toNat * 2^24) (by omega)]
  rw [Nat.mul_comm (2^24), Nat.mul_comm (2^16), Nat.mul_comm (2^8)]
  ac_rfl

theorem wordOfFourBytes_peek (s : State) (a : Word) : wordOfFourBytes (s.peekByte a) (s.peekByte (a+1)) (s.peekByte (a+2)) (s.peekByte (a+3)) = wordAt s a := by
  apply BitVec.eq_of_toNat_eq
  rw [wordOfFourBytes_toNat, wordAt, BitVec.toNat_ofNat, Nat.mod_eq_of_lt (valueAt_lt s a 4 (by decide))]
  simp only [valueAt, BitVec.add_assoc]
  rfl

theorem readBytes_uncached (size : Nat) (x : MemSystem) (hc : x.cache = none) : ∀ n a, (readBytes size n a x).2 = x := by
  intro n
  induction n with
  | zero => intro a; rfl
  | succ n ih => 
    intro a; simp only [readBytes, MemSystem.byteRead, hc]; exact ih _

theorem toNat_add_ofNat (a : Word) (k : Nat) (h : a.toNat + k < 2^64) : (a + BitVec.ofNat 64 k).toNat = a.toNat + k := by
  rw [BitVec.toNat_add, BitVec.toNat_ofNat, Nat.mod_eq_of_lt (a := k) (by omega), Nat.mod_eq_of_lt h]

theorem valueAt_stored (t : State) (a : Word) (n : Nat) (V : Nat) (hb : a.toNat + n < 2^64)
  (h : ∀ k, k < n → t.peekByte (a + BitVec.ofNat 64 k) = BitVec.ofNat 8 (V / 2 ^ (8*k))) : valueAt t a n = V % 2 ^ (8*n) := by
  induction n generalizing a V with
  | zero => simp [valueAt, Nat.mod_one]
  | succ n ih =>
    have h0 := h 0 (by omega)
    simp only [BitVec.add_zero, Nat.mul_zero, Nat.pow_zero, Nat.div_one] at h0
    rw [valueAt, h0]
    rcases Nat.eq_zero_or_pos n with hn | hn
    · subst hn; simp [valueAt]
    have e1 : (a+1).toNat = a.toNat + 1 := toNat_add_ofNat a 1 (by omega)
    rw [ih (a+1) (V / 256) (by omega) ?_]
    · rw [BitVec.toNat_ofNat, show 8 * (n+1) = 8 + 8 * n by omega, Nat.pow_add, Nat.mod_mul]
    · intro k hk
      have := h (k+1) (by omega)
      rw [Nat.add_comm k 1, BitVec.ofNat_add, ← BitVec.add_assoc] at this
      rw [show (8 * (1+k)) = 8 + 8*k by omega, Nat.pow_add, ← Nat.div_div_eq_div_mul] at this
      exact this

theorem moves_of {i : Instr} {s t : State} {target : Word} (he : exec i s = .next t) (ht : t = { s with pc := target }) : Moves i s target := by
  refine ⟨t, he, ?_⟩
  subst ht
  exact ⟨rfl, fun _ => rfl, rfl, rfl, fun _ => rfl, rfl, ⟨rfl, rfl, rfl, rfl⟩, ⟨rfl, rfl, rfl, rfl, rfl, rfl⟩⟩

theorem pc_add_four (s : State) : s.pc + 4 = nextPc s := by simp [nextPc, u64, BitVec.ofNat_add]

theorem immB_toInt (o : BitVec 13) : (immB o).toInt = o.toInt := by
  rw [immB, BitVec.toInt_signExtend_of_le (by decide)]

theorem immJ_toInt (o : BitVec 21) : (immJ o).toInt = o.toInt := by
  rw [immJ, BitVec.toInt_signExtend_of_le (by decide)]

theorem moves_branchIf {i : Instr} {s : State} {c : Word → Word → Bool} {rs1 rs2 : Reg} {o : BitVec 13} {P : Prop} [Decidable P]
   (he : exec i s = s.branchIf c rs1 rs2 o) (hP : c (s.readReg rs1) (s.readReg rs2) = decide P) :
   Moves i s (if P then u64i (s.pc.toNat + o.toInt) else nextPc s) := by
  rw [State.branchIf, hP] at he
  by_cases h : P
  · simp only [h, decide_true, if_true] at he ⊢
    refine moves_of he ?_
    rw [State.jumpTo, add_eq_u64i, immB_toInt]
  · simp only [h, decide_false, if_false] at he ⊢
    refine moves_of he ?_
    rw [State.advance, State.jumpTo, pc_add_four]

theorem encodedU_of (p : InstrWord) (mk : Reg → BitVec 20 → Instr) (hp : opcodeOf p ≠ 0#7)
   (hd : ∀ w, w ≠ 0#32 → opcodeOf w = opcodeOf p → decodeWord w = .ok (mk (rdOf w) (immUOf w))) : EncodedU p mk := by
  intro w h
  obtain ⟨h0, ho⟩ := key_opcode h (by decide) hp
  rw [hd w h0 ho, rdOf_eq, immUOf_eq]

theorem clear_bit_zero (v : Word) : v &&& ~~~1#64 = u64 (v.toNat / 2 * 2) := by
  apply BitVec.eq_of_getLsbD_eq
  intro i hi
  rw [u64, BitVec.getLsbD_ofNat, show v.toNat / 2 * 2 = v.toNat / 2^1 * 2^1 by simp, Nat.testBit_mul_two_pow, Nat.testBit_div_two_pow, BitVec.getLsbD_and, BitVec.getLsbD_not, BitVec.getLsbD_one]
  by_cases h : i = 0
  · subst h; simp
  · have : 1 ≤ i := by omega
    have h2 : i - 1 + 1 = i := by omega
    simp only [this, decide_true, Bool.true_and, h2, BitVec.testBit_toNat]
    simp [hi, h]

theorem jalrTarget_eq (b : Word) (imm : BitVec 12) : jalrTarget b imm = u64i ((b.toNat + imm.toInt) / 2 * 2) := by
  have e : effectiveAddr b imm = u64i (b.toNat + imm.toInt) := by
      show b + imm12 imm = _
      rw [add_eq_u64i, imm12_toInt]
  rw [jalrTarget, clear_bit_zero, e]
  generalize ((b.toNat : Int) + imm.toInt) = z
  apply BitVec.eq_of_toNat_eq
  have h1 : ((u64i z).toNat : Int) = z % 2^64 := by
    simp only [u64i, BitVec.toNat_ofInt]
    have : (0:Int) ≤ z % ((2 ^ 64 : Nat) : Int) := Int.emod_nonneg _ (by decide)
    rw [Int.toNat_of_nonneg this]; rfl
  have h2 : ((u64i (z / 2 * 2)).toNat : Int) = (z / 2 * 2) % 2^64 := by
    simp only [u64i, BitVec.toNat_ofInt]
    have : (0:Int) ≤ (z / 2 * 2) % ((2 ^ 64 : Nat) : Int) := Int.emod_nonneg _ (by decide)
    rw [Int.toNat_of_nonneg this]; rfl
  rw [u64, BitVec.toNat_ofNat]
  omega

theorem ofInt_mul' (a b : Int) : BitVec.ofInt 64 (a * b) = BitVec.ofInt 64 a * BitVec.ofInt 64 b := by
  exact BitVec.ofInt_mul ..

theorem immU_eq_u64i (imm : BitVec 20) : immU imm = u64i (imm.toInt * 2 ^ 12) := by
  have : imm.toInt = (imm.signExtend 64).toInt := by rw [BitVec.toInt_signExtend_of_le (by decide)]
  rw [immU, u64i, this, ofInt_mul', BitVec.ofInt_toInt]
  apply BitVec.eq_of_toNat_eq
  rw [BitVec.toNat_shiftLeft, BitVec.toNat_mul, Nat.shiftLeft_eq]
  rfl

theorem sentinelResult_of (s : State) : SentinelResult s { s.callStackClear with runState := .halted, lastStatus := some .ended } :=
  ⟨rfl, rfl, rfl, rfl, fun _ => rfl, rfl, rfl, rfl, fun _ _ => rfl, ⟨rfl, rfl, rfl, rfl, rfl, rfl⟩⟩

theorem fetch_answers {s : State} (hm : s.memSys.Ok s.params.memorySize) (hz : s.params.memorySize < 2^64) (h : s.pc.toNat + 4 ≤ s.params.memorySize) :
   ∃ x : MemSystem, s.fetch = .ok (wordAt s s.pc, { s with memSys := x }) ∧ x.Ok s.params.memorySize ∧ 
     ∀ y : Word, y.toNat < s.params.memorySize → x.peekByte y = s.peekByte y := by
  obtain ⟨x, hr, hx, hp⟩ := State.memRead_ok hm hz h
  refine ⟨x, ?_, hx, hp⟩
  rw [State.fetch, hr]
  have := valueAt_eq s s.pc 4 (by decide)
  have e : (wordOfBytes (List.map (fun k => s.peekByte (s.pc + BitVec.ofNat 64 k)) (List.range 4))).setWidth 32 = wordAt s s.pc := by
    apply BitVec.eq_of_toNat_eq
    rw [BitVec.toNat_setWidth, this, wordAt, BitVec.toNat_ofNat]
  exact congrArg (fun w => Except.ok (w, { s with memSys := x })) e

theorem peek_congr_add {s t : State} {a : Word} {n size : Nat} (h : ∀ y : Word, y.toNat < size → t.peekByte y = s.peekByte y) (ha : a.toNat + n ≤ size) (hz : size < 2^64) :
    valueAt t a n = valueAt s a n := by
  induction n generalizing a with
  | zero => rfl
  | succ n ih =>
    rw [valueAt, valueAt, h a (by omega)]
    rcases Nat.eq_zero_or_pos n with rfl | hn
    · rfl
    rw [ih]
    have e1 : (a+1).toNat = a.toNat + 1 := toNat_add_ofNat a 1 (by omega)
    omega

theorem nopResult_finishStep (u : State) (hf : u.runState ≠ .faulted) : ∃ t, finishStep (.next u.beginInstr.advance) = .next t ∧ NopResult u t := by
  refine ⟨u.beginInstr.advance.lookAhead, ?_, ?_⟩
  · rw [finishStep, if_neg]; exact hf
  · refine ⟨?_, ?_, ?_, ?_, ?_, ?_, ?_, ?_, ?_, ⟨?_, ?_, ?_, ?_, ?_, ?_⟩⟩
    case refine_1 => intro r; apply State.readReg_congr; simp
    case refine_5 => intro a; rw [State.peekByte, State.lookAhead_memSys]; rfl
    case refine_9 => 
      simp only [State.lookAhead_lastStatus, State.lookAhead_runState]
      by_cases h : u.beginInstr.advance.haltsAhead = true
      · simp [h]
      · simp [h]
    case refine_3 => rw [State.lookAhead_pc]; exact pc_add_four u
    all_goals simp

theorem opcodeOf_toNat (w : InstrWord) : (opcodeOf w).toNat = opcodeNat w := by
  simp [opcodeOf, opcodeNat]

theorem funct3Of_toNat (w : InstrWord) : (funct3Of w).toNat = funct3Nat w := by
  simp [funct3Of, funct3Nat, Nat.shiftRight_eq_div_pow]

theorem funct6Of_toNat (w : InstrWord) : (funct6Of w).toNat = funct6Nat w := by
  have := w.isLt
  simp [funct6Of, funct6Nat, Nat.shiftRight_eq_div_pow]; omega

theorem funct7Of_toNat (w : InstrWord) : (funct7Of w).toNat = funct7Nat w := by
  have := w.isLt
  simp [funct7Of, funct7Nat, Nat.shiftRight_eq_div_pow]; omega

theorem funct3Of_eq_iff (w : InstrWord) (v : BitVec 3) : funct3Of w = v ↔ funct3Nat w = v.toNat := by
  rw [← funct3Of_toNat, BitVec.toNat_inj]

theorem funct6Of_eq_iff (w : InstrWord) (v : BitVec 6) : funct6Of w = v ↔ funct6Nat w = v.toNat := by
  rw [← funct6Of_toNat, BitVec.toNat_inj]

theorem funct7Of_eq_iff (w : InstrWord) (v : BitVec 7) : funct7Of w = v ↔ funct7Nat w = v.toNat := by
  rw [← funct7Of_toNat, BitVec.toNat_inj]

theorem opcodeOf_eq_iff (w : InstrWord) (v : BitVec 7) : opcodeOf w = v ↔ opcodeNat w = v.toNat := by
  rw [← opcodeOf_toNat, BitVec.toNat_inj]

theorem regField_bit (w : InstrWord) (k : Nat) (r : Reg) (hr : r = (w.extractLsb' k 5).toFin) (i : Nat) : (regField r).getLsbD i = (decide (i < 5) && (decide (i < 32) && w.getLsbD (k + i))) := by
  subst hr
  simp only [regField, BitVec.getLsbD_setWidth]
  rw [show (BitVec.ofFin (w.extractLsb' k 5).toFin : BitVec 5) = w.extractLsb' k 5 from rfl]
  rw [BitVec.getLsbD_extractLsb']
  by_cases h1 : i < 5
  · simp [h1, show i < 32 by omega]
  · simp [h1]

theorem rWord_fields (w : InstrWord) : rWord (funct7Of w) (rs2Of w) (rs1Of w) (funct3Of w) (rdOf w) (opcodeOf w) = w := by
  apply word_ext
  intro i hi
  simp only [rWord, BitVec.getLsbD_or, BitVec.getLsbD_shiftLeft, BitVec.getLsbD_setWidth, regField_bit w 20 (rs2Of w) rfl, regField_bit w 15 (rs1Of w) rfl, regField_bit w 7 (rdOf w) rfl,
    funct7Of, funct3Of, opcodeOf, BitVec.getLsbD_extractLsb']
  interval_cases i <;> simp

theorem iWord_fields (w : InstrWord) : iWord (immIOf w) (rs1Of w) (funct3Of w) (rdOf w) (opcodeOf w) = w := by
  apply word_ext
  intro i hi
  simp only [iWord, BitVec.getLsbD_or, BitVec.getLsbD_shiftLeft, BitVec.getLsbD_setWidth, regField_bit w 15 (rs1Of w) rfl, regField_bit w 7 (rdOf w) rfl,
    immIOf, funct3Of, opcodeOf, BitVec.getLsbD_extractLsb']
  interval_cases i <;> simp

theorem shiftWord_fields (w : InstrWord) : shiftWord (funct6Of w) (shamtOf w) (rs1Of w) (funct3Of w) (rdOf w) (opcodeOf w) = w := by
  apply word_ext
  intro i hi
  simp only [shiftWord, BitVec.getLsbD_or, BitVec.getLsbD_shiftLeft, BitVec.getLsbD_setWidth, regField_bit w 15 (rs1Of w) rfl, regField_bit w 7 (rdOf w) rfl,
    shamtOf, funct6Of, funct3Of, opcodeOf, BitVec.getLsbD_extractLsb']
  interval_cases i <;> simp

theorem sWord_fields (w : InstrWord) : sWord (immSOf w) (rs2Of w) (rs1Of w) (funct3Of w) (opcodeOf w) = w := by
  apply word_ext
  intro i hi
  simp only [sWord, BitVec.getLsbD_or, BitVec.getLsbD_shiftLeft, BitVec.getLsbD_setWidth, regField_bit w 15 (rs1Of w) rfl, regField_bit w 20 (rs2Of w) rfl,
    immSOf, funct3Of, opcodeOf, BitVec.getLsbD_extractLsb']
  interval_cases i <;> simp

theorem bWord_fields (w : InstrWord) : bWord (immBOf w) (rs2Of w) (rs1Of w) (funct3Of w) (opcodeOf w) = w := by
  apply word_ext
  intro i hi
  simp only [bWord, BitVec.getLsbD_or, BitVec.getLsbD_shiftLeft, BitVec.getLsbD_setWidth, regField_bit w 15 (rs1Of w) rfl, regField_bit w 20 (rs2Of w) rfl,
    immBOf, funct3Of, opcodeOf, BitVec.getLsbD_extractLsb']
  interval_cases i <;> simp

theorem uWord_fields (w : InstrWord) : uWord (immUOf w) (rdOf w) (opcodeOf w) = w := by
  apply word_ext
  intro i hi
  simp only [uWord, BitVec.getLsbD_or, BitVec.getLsbD_shiftLeft, BitVec.getLsbD_setWidth, regField_bit w 7 (rdOf w) rfl,
    immUOf, opcodeOf, BitVec.getLsbD_extractLsb']
  interval_cases i <;> simp

theorem jWord_fields (w : InstrWord) : jWord (immJOf w) (rdOf w) (opcodeOf w) = w := by
  apply word_ext
  intro i hi
  simp only [jWord, BitVec.getLsbD_or, BitVec.getLsbD_shiftLeft, BitVec.getLsbD_setWidth, regField_bit w 7 (rdOf w) rfl,
    immJOf, opcodeOf, BitVec.getLsbD_extractLsb']
  interval_cases i <;> simp

theorem immBOf_even (w : InstrWord) : (!(immBOf w).getLsbD 0) = true := by simp [immBOf]

theorem immJOf_even (w : InstrWord) : (!(immJOf w).getLsbD 0) = true := by simp [immJOf]

end Sys2Proof.Claims
end

