-- ==== Sys2Proof/Laws/Maintenance.lean ====
section
/-! SUPPORT. The laws of cache maintenance (R101, R109, R374) and of applying an image (R321): the
validated geometry, a new cache, cleared lines, and the flushes of `Invalidate()`. -/

namespace Sys2Proof.Machine

variable {size : Nat} {m m' : Memory} {c : Cache}

/-! ## Configuration (R81, R82) -/

/-- Everything construction checks, and what it builds. -/
theorem CacheRequest.config_eq_some {r : CacheRequest} {g : CacheConfig} : r.config = some g ↔
    isPow2 r.size = true ∧ isPow2 r.blockSize = true ∧ r.associativity ≠ 0 ∧
      r.size % (r.blockSize * r.associativity) = 0 ∧ r.size / (r.blockSize * r.associativity) ≠ 0 ∧
      r.blockSize ≤ r.size ∧
      g = { blockSize := r.blockSize, nLines := r.size / (r.blockSize * r.associativity)
            associativity := r.associativity, replacement := r.replacement
            writePolicy := r.writePolicy, writeAllocate := r.writeAllocate } := by
  unfold CacheRequest.config
  simp only [Bool.or_eq_true, Bool.not_eq_true', decide_eq_true_eq, bne_iff_ne]
  split
  · rename_i h
    constructor
    · intro hc; exact absurd hc (by simp)
    · rintro ⟨h1, h2, h3, h4, h5, h6, -⟩
      rcases h with ((((h | h) | h) | h) | h) | h
      · exact absurd h1 (by simp [h])
      · exact absurd h2 (by simp [h])
      · exact absurd h h3
      · exact absurd h4 h
      · exact absurd h h5
      · omega
  · rename_i h
    simp only [not_or, Bool.not_eq_false, Nat.not_lt, not_not] at h
    obtain ⟨⟨⟨⟨⟨h1, h2⟩, h3⟩, h4⟩, h5⟩, h6⟩ := h
    simp only [Option.some.injEq]
    constructor
    · rintro rfl; exact ⟨h1, h2, h3, h4, h5, h6, rfl⟩
    · rintro ⟨-, -, -, -, -, -, rfl⟩; rfl

/-- The three parts of a validated geometry multiply to the size, and each is a power of two. -/
theorem CacheRequest.config_geometry {r : CacheRequest} {g : CacheConfig} (h : r.config = some g) :
    g.nLines * g.associativity * g.blockSize = r.size ∧ isPow2 g.blockSize = true ∧
      isPow2 g.nLines = true ∧ isPow2 g.associativity = true := by
  obtain ⟨h1, h2, h3, h4, h5, h6, rfl⟩ := CacheRequest.config_eq_some.mp h
  have hmul : r.size / (r.blockSize * r.associativity) * r.associativity * r.blockSize = r.size := by
    have := Nat.div_mul_cancel (Nat.dvd_of_mod_eq_zero h4)
    calc _ = r.size / (r.blockSize * r.associativity) * (r.blockSize * r.associativity) := by ring
      _ = _ := this
  obtain ⟨k, hk⟩ := isPow2_iff.mp h1
  have dvd : ∀ d, d ∣ r.size → isPow2 d = true := by
    intro d hd
    rw [hk] at hd
    obtain ⟨j, -, hj⟩ := (Nat.dvd_prime_pow Nat.prime_two).mp hd
    exact isPow2_iff.mpr ⟨j, hj⟩
  refine ⟨hmul, h2, dvd _ ?_, dvd _ ?_⟩
  · exact ⟨r.associativity * r.blockSize, by rw [← Nat.mul_assoc]; exact hmul.symm⟩
  · exact ⟨r.size / (r.blockSize * r.associativity) * r.blockSize, by
      conv_lhs => rw [← hmul]
      ring⟩

/-! ## Caches without a valid line (R101, R109, R374) -/

/-- Where no line is valid, nothing is resident. -/
theorem hitWay_of_invalid {ws : List Line} (h : ∀ L ∈ ws, L.valid = false) (t : Word) :
    hitWay ws t = none :=
  List.findIdx?_eq_none_iff.mpr fun L hL => by simp [h L hL]

/-- Where no line is valid, the coherent view is the store. -/
theorem Cache.peek_of_invalid (h : ∀ s L, L ∈ c.ways s → L.valid = false) (m : Memory) (a : Word) :
    c.peek m a = m.read a.toNat :=
  Cache.peek_of_miss (hitWay_of_invalid (h _) _) m

theorem Cache.ways_new (g : CacheConfig) (b : Bool) (s : Nat) : (Cache.new g b).ways s =
    if s < g.nLines then List.replicate g.associativity (Line.empty g.blockSize) else [] := by
  simp only [Cache.ways, Cache.new, List.getD_eq_getElem?_getD, List.getElem?_replicate]
  split <;> rfl

/-- A line of a new cache is an empty line. -/
theorem Cache.mem_ways_new {g : CacheConfig} {b : Bool} {s : Nat} {L : Line}
    (h : L ∈ (Cache.new g b).ways s) : L = Line.empty g.blockSize := by
  rw [Cache.ways_new] at h
  split at h
  · exact (List.mem_replicate.mp h).2
  · exact absurd h (by simp)

/-- A new cache of a valid geometry is coherent with every store. -/
theorem Cache.new_coherent {g : CacheConfig} (hb : isPow2 g.blockSize = true)
    (hn : isPow2 g.nLines = true) (ha : isPow2 g.associativity = true) (b : Bool) (m : Memory) :
    (Cache.new g b).Coherent size m := by
  refine ⟨hb, hn, ha, by simp [Cache.new], ?_, ?_, ?_, ?_⟩
  · intro s hs
    rw [Cache.ways_new, if_pos (show s < g.nLines from hs), List.length_replicate]
    rfl
  · intro s L hL
    rw [Cache.mem_ways_new hL]
    simp [Line.empty, Cache.new]
  · intro s v w hv _ hvv
    rw [Cache.mem_ways_new (Cache.line_mem hv)] at hvv
    exact absurd hvv (by simp [Line.empty])
  · intro s L hL hv
    rw [Cache.mem_ways_new hL] at hv
    exact absurd hv (by simp [Line.empty])

/-- The zero statistics are exact (D16). -/
theorem CacheStats.zero_ok : CacheStats.zero.accessCount = CacheStats.zero.hitCount + CacheStats.zero.missCount ∧
    CacheStats.zero.hitRate = CacheStats.zero.exactRate := by
  refine ⟨rfl, ?_⟩
  simp [CacheStats.zero, CacheStats.exactRate]

theorem Cache.new_statsOk (g : CacheConfig) (b : Bool) : (Cache.new g b).StatsOk := CacheStats.zero_ok

theorem Cache.ways_clearLines (c : Cache) (s : Nat) : c.clearLines.ways s = (c.ways s).map Line.clear := by
  simp only [Cache.ways, Cache.clearLines, List.getD_eq_getElem?_getD, List.getElem?_map]
  cases c.sets[s]? <;> rfl

/-- A cleared line is neither valid nor dirty. -/
theorem Cache.mem_ways_clearLines {s : Nat} {L : Line} (h : L ∈ c.clearLines.ways s) :
    L.valid = false ∧ L.dirty = false ∧ ∃ K ∈ c.ways s, L.data = K.data := by
  rw [Cache.ways_clearLines] at h
  obtain ⟨K, hK, rfl⟩ := List.mem_map.mp h
  exact ⟨rfl, rfl, K, hK, rfl⟩

/-- Clearing every line leaves a cache coherent with every store. -/
theorem Cache.Coherent.clearLines (h : c.Coherent size m) (m' : Memory) :
    c.clearLines.Coherent size m' := by
  refine ⟨h.block_pow2, h.lines_pow2, h.ways_pow2, ?_, ?_, ?_, ?_, ?_⟩
  · show (c.sets.map _).length = _
    rw [List.length_map]
    exact h.set_count
  · intro s hs
    rw [Cache.ways_clearLines, List.length_map]
    exact h.way_count s hs
  · intro s L hL
    obtain ⟨-, -, K, hK, hd⟩ := Cache.mem_ways_clearLines hL
    rw [hd]
    exact h.data_length s K hK
  · intro s v w hv _ hvv
    rw [(Cache.mem_ways_clearLines (Cache.line_mem hv)).1] at hvv
    exact absurd hvv (by decide)
  · intro s L hL hv
    rw [(Cache.mem_ways_clearLines hL).1] at hv
    exact absurd hv (by decide)

/-- What soft reset leaves of a coherent cache (R374). -/
theorem Cache.Coherent.softReset (h : c.Coherent size m) (m' : Memory) :
    c.softReset.Coherent size m' ∧ c.softReset.StatsOk :=
  ⟨(h.clearLines m').congr rfl rfl, CacheStats.zero_ok⟩

/-! ## The flushes of `Invalidate()` (R101) -/

/-- The bytes of a line are those of the store. -/
def Synced (size : Nat) (g : CacheConfig) (m : Memory) (s : Nat) (L : Line) : Prop :=
  ∀ a : Word, a.toNat < size → g.index a = s → g.tag a = L.tag →
    L.data.getD (g.offset a) 0 = m.read a.toNat

/-- What the flushes of a coherent cache leave of the store, part way through. -/
structure Flushing (size : Nat) (c : Cache) (m m' : Memory) : Prop where
  coherent : c.Coherent size m'
  wf : m'.wf = true
  within : m'.within size = true
  peek : ∀ a : Word, a.toNat < size → c.peek m' a = c.peek m a

/-- A valid line that needs no flush is in the store already. -/
theorem Cache.Coherent.synced (h : c.Coherent size m) {s : Nat} {L : Line} (hL : L ∈ c.ways s)
    (hv : L.valid = true) (hf : mustFlush c.cfg L = false) : Synced size c.cfg m s L := by
  obtain ⟨w, hw, rfl⟩ := Cache.exists_line_of_mem hL
  have hd : (c.line s w).dirty = false := by
    cases hd : (c.line s w).dirty with
    | false => rfl
    | true =>
      have := (h.agrees s _ hL hv).dirty hd
      exact absurd hf (by simp [mustFlush, hv, hd, this])
  intro a ha hi ht
  subst hi
  exact h.clean_byte ha (h.hitWay_eq hw hv ht.symm) hd

/-- One flush of a line puts it into the store and keeps every line that is there. -/
theorem Flushing.flush (h : Flushing size c m m') (hsize : size < 2 ^ 64) {s : Nat} {L : Line}
    (hL : L ∈ c.ways s) (hf : mustFlush c.cfg L = true) :
    Flushing size c m (flushLine size c.cfg m' s L) ∧
      Synced size c.cfg (flushLine size c.cfg m' s L) s L ∧
      ∀ s' K, K ∈ c.ways s' → K.valid = true → Synced size c.cfg m' s' K →
        Synced size c.cfg (flushLine size c.cfg m' s L) s' K := by
  obtain ⟨w, hw, rfl⟩ := Cache.exists_line_of_mem hL
  simp only [mustFlush, Bool.and_eq_true] at hf
  have hs := h.coherent.set_lt hL
  refine ⟨⟨h.coherent.flush h.wf hsize hw hf.1.1 hf.1.2, Memory.writeBlock_wf h.wf _ _,
    Memory.writeBlock_within h.within _ _, fun a ha => ?_⟩, ?_, ?_⟩
  · rw [h.coherent.peek_flush h.wf hw hf.1.1 ha, h.peek a ha]
  · intro a ha hi ht
    rw [h.coherent.read_flush h.wf hs hw hf.1.1 ha, if_pos ⟨hi, ht⟩]
  · intro s' K hK hv hsync a ha hi ht
    rw [h.coherent.read_flush h.wf hs hw hf.1.1 ha]
    split
    · rename_i hsame
      obtain ⟨h1, h2⟩ := hsame
      obtain rfl : s' = s := hi.symm.trans h1
      obtain ⟨v, hvl, rfl⟩ := Cache.exists_line_of_mem hK
      rw [h.coherent.one_way s' v w hvl hw hv hf.1.1 (ht.symm.trans h2)]
    · exact hsync a ha hi ht

theorem flushWays_spec (hsize : size < 2 ^ 64) {s : Nat} (ws : List Line) (m' : Memory) (n : Word)
    (h : Flushing size c m m') (hws : ∀ L ∈ ws, L ∈ c.ways s) :
    Flushing size c m (flushWays size c.cfg s ws m' n).1 ∧
      (∀ L ∈ ws, L.valid = true → Synced size c.cfg (flushWays size c.cfg s ws m' n).1 s L) ∧
      ∀ s' K, K ∈ c.ways s' → K.valid = true → Synced size c.cfg m' s' K →
        Synced size c.cfg (flushWays size c.cfg s ws m' n).1 s' K := by
  induction ws generalizing m' n with
  | nil => exact ⟨h, fun L hL => absurd hL (by simp), fun _ _ _ _ hs => hs⟩
  | cons L ws ih =>
    have hL := hws L (by simp)
    have hrest : ∀ K ∈ ws, K ∈ c.ways s := fun K hK => hws K (by simp [hK])
    unfold flushWays
    split
    · rename_i hf
      obtain ⟨f1, f2, f3⟩ := h.flush hsize hL hf
      obtain ⟨i1, i2, i3⟩ := ih _ (n + 1) f1 hrest
      refine ⟨i1, ?_, fun s' K hK hv hs => i3 s' K hK hv (f3 s' K hK hv hs)⟩
      intro K hK hv
      rcases List.mem_cons.mp hK with rfl | hK
      · exact i3 s K hL hv f2
      · exact i2 K hK hv
    · rename_i hf
      obtain ⟨i1, i2, i3⟩ := ih m' n h hrest
      refine ⟨i1, ?_, i3⟩
      intro K hK hv
      rcases List.mem_cons.mp hK with rfl | hK
      · exact i3 s K hL hv (h.coherent.synced hL hv (by simpa using hf))
      · exact i2 K hK hv

theorem flushSets_spec (hsize : size < 2 ^ 64) (ss : List (List Line)) (s : Nat) (m' : Memory) (n : Word)
    (h : Flushing size c m m') (hss : ∀ k, k < ss.length → ss.getD k [] = c.ways (s + k)) :
    Flushing size c m (flushSets size c.cfg s ss m' n).1 ∧
      (∀ k L, k < ss.length → L ∈ c.ways (s + k) → L.valid = true →
        Synced size c.cfg (flushSets size c.cfg s ss m' n).1 (s + k) L) ∧
      ∀ s' K, K ∈ c.ways s' → K.valid = true → Synced size c.cfg m' s' K →
        Synced size c.cfg (flushSets size c.cfg s ss m' n).1 s' K := by
  induction ss generalizing s m' n with
  | nil => exact ⟨h, fun k L hk => absurd hk (by simp), fun _ _ _ _ hs => hs⟩
  | cons ws ss ih =>
    have h0 : ws = c.ways s := by simpa using hss 0 (by simp)
    obtain ⟨w1, w2, w3⟩ := flushWays_spec hsize ws m' n h (fun L hL => h0 ▸ hL)
    unfold flushSets
    obtain ⟨i1, i2, i3⟩ := ih (s + 1) _ (flushWays size c.cfg s ws m' n).2 w1 (by
      intro k hk
      have := hss (k + 1) (by simpa using hk)
      rw [show s + 1 + k = s + (k + 1) by omega]
      simpa using this)
    refine ⟨i1, ?_, fun s' K hK hv hs => i3 s' K hK hv (w3 s' K hK hv hs)⟩
    intro k L hk hL hv
    cases k with
    | zero => exact i3 s L hL hv (w2 L (h0 ▸ hL) hv)
    | succ k =>
      rw [show s + (k + 1) = s + 1 + k by omega] at hL ⊢
      exact i2 k L (by simpa using hk) hL hv

/-- After the flushes of `Invalidate()` the store holds the whole coherent view. -/
theorem Cache.Coherent.flushAll (h : c.Coherent size m) (hwf : m.wf = true)
    (hin : m.within size = true) (hsize : size < 2 ^ 64) (n : Word) :
    (flushSets size c.cfg 0 c.sets m n).1.wf = true ∧
      (flushSets size c.cfg 0 c.sets m n).1.within size = true ∧
      ∀ a : Word, a.toNat < size → (flushSets size c.cfg 0 c.sets m n).1.read a.toNat = c.peek m a := by
  obtain ⟨f1, f2, -⟩ := flushSets_spec hsize c.sets 0 m n ⟨h, hwf, hin, fun _ _ => rfl⟩
    (fun k _ => by rw [Nat.zero_add]; rfl)
  refine ⟨f1.wf, f1.within, fun a ha => ?_⟩
  rw [← f1.peek a ha]
  cases hh : hitWay (c.ways (c.cfg.index a)) (c.cfg.tag a) with
  | none => rw [Cache.peek_of_miss hh]
  | some w =>
    obtain ⟨h1, h2, h3⟩ := Cache.hitWay_some hh
    rw [Cache.peek_of_hit hh]
    have hk : c.cfg.index a < c.sets.length := by rw [h.set_count]; exact h.index_lt a
    have hmem := Cache.line_mem h1
    have := f2 (c.cfg.index a) _ hk (by rw [Nat.zero_add]; exact hmem) h2 a ha (by omega) h3.symm
    exact this.symm

/-! ## Applying an image (R321) -/

theorem Memory.wf_nil : Memory.wf [] = true := rfl
theorem Memory.within_nil (size : Nat) : Memory.within size [] = true := rfl

/-- Byte `k` of a list of words, each least significant byte first. -/
theorem getD_flatMap_bytesOfWord (ws : List InstrWord) (k : Nat) (h : k < 4 * ws.length) :
    (ws.flatMap bytesOfWord).getD k 0 = (ws.getD (k / 4) 0).extractLsb' (8 * (k % 4)) 8 := by
  induction ws generalizing k with
  | nil => simp at h
  | cons w ws ih =>
    simp only [List.length_cons] at h
    rw [List.flatMap_cons, List.getD_eq_getElem?_getD]
    by_cases hk : k < 4
    · rw [List.getElem?_append_left (by simpa [bytesOfWord] using hk), Nat.div_eq_of_lt hk, Nat.mod_eq_of_lt hk]
      interval_cases k <;> rfl
    · have hlen : (bytesOfWord w).length = 4 := rfl
      rw [List.getElem?_append_right (by omega), hlen, ← List.getD_eq_getElem?_getD, ih (k - 4) (by omega)]
      rw [show k / 4 = (k - 4) / 4 + 1 by omega, show k % 4 = (k - 4) % 4 by omega]
      simp

theorem length_flatMap_bytesOfWord (ws : List InstrWord) : (ws.flatMap bytesOfWord).length = 4 * ws.length := by
  induction ws with
  | nil => rfl
  | cons w ws ih => rw [List.flatMap_cons, List.length_append, ih, List.length_cons]; simp [bytesOfWord]; omega

end Sys2Proof.Machine
end

