-- ==== Sys2Proof/Laws/PerInstr.lean ====
section
/-! SUPPORT. The per-instruction family `TableRow`: an instruction's word is selected by its own row of the
opcode table (R147, R150), one lemma for each constructor. -/

namespace Sys2Proof.Laws.TableRow

/-- The word of the instruction, under the mask of its row, is the row's match value. -/
def Statement (i : Instr) : Prop := encode i &&& i.row.mask = i.row.pattern

theorem add (rd : Reg) (rs1 : Reg) (rs2 : Reg) : Statement (.add rd rs1 rs2) := (rWord_key _ _ _ _ _ _).trans rfl
theorem sub (rd : Reg) (rs1 : Reg) (rs2 : Reg) : Statement (.sub rd rs1 rs2) := (rWord_key _ _ _ _ _ _).trans rfl
theorem sll (rd : Reg) (rs1 : Reg) (rs2 : Reg) : Statement (.sll rd rs1 rs2) := (rWord_key _ _ _ _ _ _).trans rfl
theorem slt (rd : Reg) (rs1 : Reg) (rs2 : Reg) : Statement (.slt rd rs1 rs2) := (rWord_key _ _ _ _ _ _).trans rfl
theorem sltu (rd : Reg) (rs1 : Reg) (rs2 : Reg) : Statement (.sltu rd rs1 rs2) := (rWord_key _ _ _ _ _ _).trans rfl
theorem xor (rd : Reg) (rs1 : Reg) (rs2 : Reg) : Statement (.xor rd rs1 rs2) := (rWord_key _ _ _ _ _ _).trans rfl
theorem srl (rd : Reg) (rs1 : Reg) (rs2 : Reg) : Statement (.srl rd rs1 rs2) := (rWord_key _ _ _ _ _ _).trans rfl
theorem sra (rd : Reg) (rs1 : Reg) (rs2 : Reg) : Statement (.sra rd rs1 rs2) := (rWord_key _ _ _ _ _ _).trans rfl
theorem or (rd : Reg) (rs1 : Reg) (rs2 : Reg) : Statement (.or rd rs1 rs2) := (rWord_key _ _ _ _ _ _).trans rfl
theorem and (rd : Reg) (rs1 : Reg) (rs2 : Reg) : Statement (.and rd rs1 rs2) := (rWord_key _ _ _ _ _ _).trans rfl
theorem addi (rd : Reg) (rs1 : Reg) (imm : BitVec 12) : Statement (.addi rd rs1 imm) := (iWord_key _ _ _ _ _).trans rfl
theorem slti (rd : Reg) (rs1 : Reg) (imm : BitVec 12) : Statement (.slti rd rs1 imm) := (iWord_key _ _ _ _ _).trans rfl
theorem sltiu (rd : Reg) (rs1 : Reg) (imm : BitVec 12) : Statement (.sltiu rd rs1 imm) := (iWord_key _ _ _ _ _).trans rfl
theorem xori (rd : Reg) (rs1 : Reg) (imm : BitVec 12) : Statement (.xori rd rs1 imm) := (iWord_key _ _ _ _ _).trans rfl
theorem ori (rd : Reg) (rs1 : Reg) (imm : BitVec 12) : Statement (.ori rd rs1 imm) := (iWord_key _ _ _ _ _).trans rfl
theorem andi (rd : Reg) (rs1 : Reg) (imm : BitVec 12) : Statement (.andi rd rs1 imm) := (iWord_key _ _ _ _ _).trans rfl
theorem slli (rd : Reg) (rs1 : Reg) (shamt : BitVec 6) : Statement (.slli rd rs1 shamt) := (shiftWord_key _ _ _ _ _ _).trans rfl
theorem srli (rd : Reg) (rs1 : Reg) (shamt : BitVec 6) : Statement (.srli rd rs1 shamt) := (shiftWord_key _ _ _ _ _ _).trans rfl
theorem srai (rd : Reg) (rs1 : Reg) (shamt : BitVec 6) : Statement (.srai rd rs1 shamt) := (shiftWord_key _ _ _ _ _ _).trans rfl
theorem lb (rd : Reg) (rs1 : Reg) (imm : BitVec 12) : Statement (.lb rd rs1 imm) := (iWord_key _ _ _ _ _).trans rfl
theorem lh (rd : Reg) (rs1 : Reg) (imm : BitVec 12) : Statement (.lh rd rs1 imm) := (iWord_key _ _ _ _ _).trans rfl
theorem lw (rd : Reg) (rs1 : Reg) (imm : BitVec 12) : Statement (.lw rd rs1 imm) := (iWord_key _ _ _ _ _).trans rfl
theorem ld (rd : Reg) (rs1 : Reg) (imm : BitVec 12) : Statement (.ld rd rs1 imm) := (iWord_key _ _ _ _ _).trans rfl
theorem lbu (rd : Reg) (rs1 : Reg) (imm : BitVec 12) : Statement (.lbu rd rs1 imm) := (iWord_key _ _ _ _ _).trans rfl
theorem lhu (rd : Reg) (rs1 : Reg) (imm : BitVec 12) : Statement (.lhu rd rs1 imm) := (iWord_key _ _ _ _ _).trans rfl
theorem lwu (rd : Reg) (rs1 : Reg) (imm : BitVec 12) : Statement (.lwu rd rs1 imm) := (iWord_key _ _ _ _ _).trans rfl
theorem sb (rs1 : Reg) (imm : BitVec 12) (rs2 : Reg) : Statement (.sb rs1 imm rs2) := (sWord_key _ _ _ _ _).trans rfl
theorem sh (rs1 : Reg) (imm : BitVec 12) (rs2 : Reg) : Statement (.sh rs1 imm rs2) := (sWord_key _ _ _ _ _).trans rfl
theorem sw (rs1 : Reg) (imm : BitVec 12) (rs2 : Reg) : Statement (.sw rs1 imm rs2) := (sWord_key _ _ _ _ _).trans rfl
theorem sd (rs1 : Reg) (imm : BitVec 12) (rs2 : Reg) : Statement (.sd rs1 imm rs2) := (sWord_key _ _ _ _ _).trans rfl
theorem beq (rs1 : Reg) (rs2 : Reg) (offset : BitVec 13) : Statement (.beq rs1 rs2 offset) := (bWord_key _ _ _ _ _).trans rfl
theorem bne (rs1 : Reg) (rs2 : Reg) (offset : BitVec 13) : Statement (.bne rs1 rs2 offset) := (bWord_key _ _ _ _ _).trans rfl
theorem blt (rs1 : Reg) (rs2 : Reg) (offset : BitVec 13) : Statement (.blt rs1 rs2 offset) := (bWord_key _ _ _ _ _).trans rfl
theorem bge (rs1 : Reg) (rs2 : Reg) (offset : BitVec 13) : Statement (.bge rs1 rs2 offset) := (bWord_key _ _ _ _ _).trans rfl
theorem bltu (rs1 : Reg) (rs2 : Reg) (offset : BitVec 13) : Statement (.bltu rs1 rs2 offset) := (bWord_key _ _ _ _ _).trans rfl
theorem bgeu (rs1 : Reg) (rs2 : Reg) (offset : BitVec 13) : Statement (.bgeu rs1 rs2 offset) := (bWord_key _ _ _ _ _).trans rfl
theorem jal (rd : Reg) (offset : BitVec 21) : Statement (.jal rd offset) := (jWord_key _ _ _).trans rfl
theorem jalr (rd : Reg) (rs1 : Reg) (imm : BitVec 12) : Statement (.jalr rd rs1 imm) := (iWord_key _ _ _ _ _).trans rfl
theorem lui (rd : Reg) (imm : BitVec 20) : Statement (.lui rd imm) := (uWord_key _ _ _).trans rfl
theorem auipc (rd : Reg) (imm : BitVec 20) : Statement (.auipc rd imm) := (uWord_key _ _ _).trans rfl
theorem ecall : Statement .ecall := by unfold Statement; decide
theorem ebreak : Statement .ebreak := by unfold Statement; decide
theorem mul (rd : Reg) (rs1 : Reg) (rs2 : Reg) : Statement (.mul rd rs1 rs2) := (rWord_key _ _ _ _ _ _).trans rfl
theorem mulh (rd : Reg) (rs1 : Reg) (rs2 : Reg) : Statement (.mulh rd rs1 rs2) := (rWord_key _ _ _ _ _ _).trans rfl
theorem mulhsu (rd : Reg) (rs1 : Reg) (rs2 : Reg) : Statement (.mulhsu rd rs1 rs2) := (rWord_key _ _ _ _ _ _).trans rfl
theorem mulhu (rd : Reg) (rs1 : Reg) (rs2 : Reg) : Statement (.mulhu rd rs1 rs2) := (rWord_key _ _ _ _ _ _).trans rfl
theorem div (rd : Reg) (rs1 : Reg) (rs2 : Reg) : Statement (.div rd rs1 rs2) := (rWord_key _ _ _ _ _ _).trans rfl
theorem divu (rd : Reg) (rs1 : Reg) (rs2 : Reg) : Statement (.divu rd rs1 rs2) := (rWord_key _ _ _ _ _ _).trans rfl
theorem rem (rd : Reg) (rs1 : Reg) (rs2 : Reg) : Statement (.rem rd rs1 rs2) := (rWord_key _ _ _ _ _ _).trans rfl
theorem remu (rd : Reg) (rs1 : Reg) (rs2 : Reg) : Statement (.remu rd rs1 rs2) := (rWord_key _ _ _ _ _ _).trans rfl
theorem sentinel : Statement .sentinel := by unfold Statement; decide

end Sys2Proof.Laws.TableRow
end

