-- ==== Sys2Proof/Laws/Runs.lean ====
section
/-! SUPPORT. What every effect of an instruction does to each part of the state, in the statements' terms, and
the small facts of breakpoints, images, labels, victims and residence. -/

namespace Sys2Proof.Claims

open Sys2Proof.Machine

theorem check_eq_some (s : State) (a : Word) (n : Nat) (w : Bool) : check s.params a n w = 
   (if s.params.memorySize < a.toNat + n then some .oob
    else if w = true ∧ s.params.smcEnable = false ∧ a.toNat < s.params.dataBase then some .textWrite
    else none) := by
  unfold check
  split; · rfl
  simp only [Bool.and_eq_true, Bool.not_eq_true', decide_eq_true_eq, and_assoc]

theorem loadFrom_check (s : State) (n ext rd rs1 imm) : match check s.params (addressOf s rs1 imm) n false with
    | some c => s.loadFrom n ext rd rs1 imm = .next (s.takeFault c)
    | none => ∃ v, s.loadFrom n ext rd rs1 imm = .next v ∧ SameControl s v ∧ SameSetup s v := by
  cases hc : check s.params (addressOf s rs1 imm) n false with
  | some c => 
    have := State.memRead_error.mpr hc
    change s.memRead (effectiveAddr (s.readReg rs1) imm) n = _ at this
    simp only [State.loadFrom, this]
  | none => 
    have : s.memRead (addressOf s rs1 imm) n = .ok (wordOfBytes (readBytes s.params.memorySize n (addressOf s rs1 imm) s.memSys).1, { s with memSys := (readBytes s.params.memorySize n (addressOf s rs1 imm) s.memSys).2 }) := by
      rw [State.memRead, hc]
    change s.memRead (effectiveAddr (s.readReg rs1) imm) n = _ at this
    simp only [State.loadFrom, this]
    exact ⟨_, rfl, ⟨rfl, rfl, rfl, rfl⟩, ⟨rfl, rfl, rfl, rfl, rfl, readBytes_setup _ _ _ _⟩⟩

theorem storeTo_check (s : State) (n rs1 imm rs2) : match check s.params (addressOf s rs1 imm) n true with
    | some c => s.storeTo n rs1 imm rs2 = .next (s.takeFault c)
    | none => ∃ v, s.storeTo n rs1 imm rs2 = .next v ∧ SameControl s v ∧ SameSetup s v := by
  cases hc : check s.params (addressOf s rs1 imm) n true with
  | some c => 
    have := State.memWrite_error (v := s.readReg rs2) |>.mpr hc
    change s.memWrite (effectiveAddr (s.readReg rs1) imm) n _ = _ at this
    simp only [State.storeTo, this]
  | none => 
    have : s.memWrite (addressOf s rs1 imm) n (s.readReg rs2) = .ok { s with memSys := writeBytes s.params.memorySize (bytesOfValue n (s.readReg rs2)) (addressOf s rs1 imm) s.memSys } := by
      rw [State.memWrite, hc]
    change s.memWrite (effectiveAddr (s.readReg rs1) imm) n _ = _ at this
    simp only [State.storeTo, this]
    exact ⟨_, rfl, ⟨rfl, rfl, rfl, rfl⟩, ⟨rfl, rfl, rfl, rfl, rfl, writeBytes_setup _ _ _ _⟩⟩

theorem accessFault_some {s i a n w} (h : accessOf s i = some (a, n, w)) : accessFault s i = check s.params a n w := by
  rw [accessFault, h, check_eq_some]

theorem accessFault_none {s i} (h : accessOf s i = none) : accessFault s i = none := by
  rw [accessFault, h]

theorem exec_accessFault (i : Instr) (s : State) (hi : i ≠ .sentinel) : match accessFault s i with
    | some c => exec i s = .next (s.takeFault c)
    | none => ∃ v, exec i s = .next v ∧ SameControl s v ∧ SameSetup s v := by
  have br : ∀ c rs1 rs2 o, ∃ v, s.branchIf c rs1 rs2 o = .next v ∧ SameControl s v ∧ SameSetup s v := by
    intro c rs1 rs2 o
    unfold State.branchIf
    split <;> exact ⟨_, rfl, ⟨rfl, rfl, rfl, rfl⟩, ⟨rfl, rfl, rfl, rfl, rfl, rfl⟩⟩
  cases i with
  | sentinel => exact absurd rfl hi
  | lb a b o | lh a b o | lw a b o | ld a b o | lbu a b o | lhu a b o | lwu a b o => 
    rw [accessFault_some rfl]; exact loadFrom_check ..
  | sb a b o | sh a b o | sw a b o | sd a b o => 
    rw [accessFault_some rfl]; exact storeTo_check ..
  | beq a b o | bne a b o | blt a b o | bge a b o | bltu a b o | bgeu a b o => rw [accessFault_none rfl]; exact br ..
  | _ => rw [accessFault_none rfl]; exact ⟨_, rfl, ⟨rfl, rfl, rfl, rfl⟩, ⟨rfl, rfl, rfl, rfl, rfl, rfl⟩⟩

theorem accessFault_congr {s t : State} (hr : t.regs = s.regs) (hp : t.params = s.params) (i : Instr) : accessFault t i = accessFault s i := by
  have : ∀ r, t.readReg r = s.readReg r := State.readReg_congr hr
  have h2 : ∀ a b, addressOf t a b = addressOf s a b := by intro a b; simp only [addressOf, this]
  unfold accessFault
  have : accessOf t i = accessOf s i := by cases i <;> simp only [accessOf, h2]
  rw [this, hp]

theorem effect_status {s t : State} (h : Effect s t) (hs : s.runState ≠ .faulted) : (t.runState = .faulted → t.lastStatus = some .fault ∧ t.pc = s.pc ∧ t.regs = s.regs) := by
  cases h with
  | loaded n a v v' rd u h => 
    intro h2; rw [(State.memRead_fields h).2] at h2; exact absurd h2 hs
  | stored n a v u h => 
    intro h2; rw [(State.memWrite_fields h).2] at h2; exact absurd h2 hs
  | faulted n a w c h => exact fun _ => ⟨rfl, rfl, rfl⟩
  | ended => intro h2; cases h2
  | _ => intro h2; exact absurd h2 hs

theorem lookAhead_status (v : State) : ∃ st, v.lookAhead.lastStatus = some st ∧ v.lookAhead.runState = st.runState ∧ st ≠ .ended ∧ st ≠ .fault := by
  rw [State.lookAhead_lastStatus, State.lookAhead_runState]
  split
  · exact ⟨_, rfl, rfl, by decide, by decide⟩
  · exact ⟨_, rfl, rfl, by decide, by decide⟩

theorem haltsAhead_iff (v : State) : v.haltsAhead = true ↔ v.pc.toNat / 4 ∈ v.breakpoints ∨
      (v.pc.toNat + 4 ≤ v.params.memorySize ∧ wordAt v v.pc = 0x00100073#32) := by
  rw [State.haltsAhead, Bool.or_eq_true, List.contains_iff_mem, BitVec.toNat_ushiftRight, Nat.shiftRight_eq_div_pow]
  apply or_congr Iff.rfl
  rw [State.peek32, wordOfFourBytes_peek, beq_iff_eq]
  split
  · rename_i h; simp; omega
  · rename_i h; simp; omega

theorem insertIndex_spec (k : Nat) (l : List Nat) (h : l.Pairwise (· < ·)) : (insertIndex k l).Pairwise (· < ·) ∧ ∀ j, j ∈ insertIndex k l ↔ j = k ∨ j ∈ l := by
  induction l with
  | nil => simp [insertIndex]
  | cons a l ih => 
    obtain ⟨h1, h2⟩ := List.pairwise_cons.mp h
    obtain ⟨i1, i2⟩ := ih h2
    simp only [insertIndex]
    split
    · rename_i hk
      refine ⟨List.pairwise_cons.mpr ⟨?_, h⟩, by simp⟩
      intro b hb
      rcases List.mem_cons.mp hb with rfl | hb
      · exact hk
      · have := h1 b hb; omega
    · split
      · rename_i hk; subst hk; exact ⟨h, by simp⟩
      · refine ⟨List.pairwise_cons.mpr ⟨?_, i1⟩, ?_⟩
        · intro b hb
          rcases (i2 b).mp hb with rfl | hb
          · omega
          · exact h1 b hb
        · intro j; simp only [List.mem_cons, i2]; tauto

theorem effect_breakpoints {s t : State} (h : Effect s t) : t.breakpoints = s.breakpoints := by
  cases h with
  | loaded n a v v' rd u h => rw [(State.memRead_fields h).2]; rfl
  | stored n a v u h => rw [(State.memWrite_fields h).2]; rfl
  | _ => rfl

theorem effect_regs {s t : State} (h : Effect s t) (hw : s.wb = none) : 
   (t.wb = none ∧ ∀ r, t.readReg r = s.readReg r) ∨ (∃ rd, t.wb = some rd ∧ ∀ r, r ≠ rd → t.readReg r = s.readReg r) := by
  have W : ∀ (u : State) rd v, ∀ r, r ≠ rd → (u.writeReg rd v).readReg r = u.readReg r := by
    intro u rd v r hr; rw [State.readReg_writeReg]; simp [hr]
  cases h with
  | result rd v => exact .inr ⟨rd, rfl, W s rd v⟩
  | loaded n a v v' rd u h => 
    refine .inr ⟨rd, rfl, fun r hr => (W u rd v' r hr).trans ?_⟩
    rw [(State.memRead_fields h).2]; rfl
  | stored n a v u h => 
    left; rw [(State.memWrite_fields h).2]; exact ⟨hw, fun _ => rfl⟩
  | jumped rd o => exact .inr ⟨rd, rfl, W s rd _⟩
  | returned rd rs1 imm => exact .inr ⟨rd, rfl, W s rd _⟩
  | _ => exact .inl ⟨hw, fun _ => rfl⟩

theorem effect_setup {s t : State} (h : Effect s t) : SameSetup s t := by
  cases h with
  | loaded n a v v' rd u h =>
    have e := (State.memRead_fields h).2
    have c := memRead_setup h
    exact ⟨by rw [e]; rfl, by rw [e]; rfl, by rw [e]; rfl, by rw [e]; rfl, by rw [e]; rfl, c⟩
  | stored n a v u h =>
    have e := (State.memWrite_fields h).2
    have c := (memWrite_setup h).1
    exact ⟨by rw [e]; rfl, by rw [e]; rfl, by rw [e]; rfl, by rw [e]; rfl, by rw [e]; rfl, c⟩
  | _ => exact ⟨rfl, rfl, rfl, rfl, rfl, rfl⟩

theorem lookAhead_setup (v : State) : SameSetup v v.lookAhead :=
  ⟨by simp, by simp, by simp, by simp, by simp, by simp⟩

theorem effect_mem {s t : State} (h : Effect s t) (hm : s.memSys.Ok s.params.memorySize) (hz : s.params.memorySize < 2^64) :
   t.memSys.Ok t.params.memorySize ∧ t.params = s.params ∧ t.image = s.image ∧ t.labels = s.labels := by
  cases h with
  | loaded n a v v' rd u h => 
    obtain ⟨hc, hu⟩ := State.memRead_fields h
    obtain ⟨x, hr, hx, hp⟩ := State.memRead_ok hm hz (check_eq_none.mp hc).1
    rw [hr] at h
    simp only [Except.ok.injEq, Prod.mk.injEq] at h
    rw [← h.2]; exact ⟨hx, rfl, rfl, rfl⟩
  | stored n a v u h => 
    obtain ⟨hc, hu⟩ := State.memWrite_fields h
    obtain ⟨x, hr, hx, hp⟩ := State.memWrite_ok (v := v) hm hz (check_eq_none.mp hc).1 ((check_eq_none.mp hc).2 rfl)
    rw [hr] at h
    simp only [Except.ok.injEq] at h
    rw [← h]; exact ⟨hx, rfl, rfl, rfl⟩
  | _ => exact ⟨hm, rfl, rfl, rfl⟩

theorem even_add_four (v : Word) (h : v.toNat % 2 = 0) : (v + 4).toNat % 2 = 0 := by
  rw [BitVec.toNat_add]; 
  have : (4 : Word).toNat = 4 := rfl
  omega

theorem even_of_bit {v : Word} (h : v.getLsbD 0 = false) : v.toNat % 2 = 0 := by
  have := BitVec.testBit_toNat v (i := 0)
  rw [h, Nat.testBit_zero] at this
  simpa using this

theorem bit_of_even {v : Word} (h : v.toNat % 2 = 0) : v.getLsbD 0 = false := by
  have := BitVec.testBit_toNat v (i := 0)
  rw [Nat.testBit_zero] at this
  rw [← this]; simp [h]

theorem even_add (v w : Word) (h : v.toNat % 2 = 0) (h2 : w.toNat % 2 = 0) : (v + w).toNat % 2 = 0 := by
  rw [BitVec.toNat_add]; omega

theorem immB_even (o : BitVec 13) (h : o.getLsbD 0 = false) : (immB o).toNat % 2 = 0 := by
  apply even_of_bit; rw [immB, BitVec.getLsbD_signExtend]; simpa using h

theorem immJ_even (o : BitVec 21) (h : o.getLsbD 0 = false) : (immJ o).toNat % 2 = 0 := by
  apply even_of_bit; rw [immJ, BitVec.getLsbD_signExtend]; simpa using h

theorem effect_even {s t : State} (h : Effect s t) (he : s.pc.toNat % 2 = 0) : t.pc.toNat % 2 = 0 := by
  cases h with
  | result => exact even_add_four _ he
  | loaded n a v v' rd u h => rw [(State.memRead_fields h).2]; exact even_add_four _ he
  | stored n a v u h => rw [(State.memWrite_fields h).2]; exact even_add_four _ he
  | faulted => exact he
  | advanced => exact even_add_four _ he
  | branched o h => exact even_add _ _ he (immB_even _ h)
  | jumped rd o h => exact even_add _ _ he (immJ_even _ h)
  | returned rd rs1 imm => 
    show (jalrTarget (s.readReg rs1) imm).toNat % 2 = 0
    rw [jalrTarget, clear_bit_zero, u64, BitVec.toNat_ofNat]; omega
  | ended => exact he

theorem effect_zero {s t : State} (h : Effect s t) (hz : s.regs[0] = 0) : t.regs[0] = 0 := by
  cases h with
  | result rd v => exact State.writeReg_regs_zero hz rd v
  | loaded n a v v' rd u h => 
    have : u.regs[0] = 0 := by rw [(State.memRead_fields h).2]; exact hz
    exact State.writeReg_regs_zero this rd v'
  | stored n a v u h => rw [(State.memWrite_fields h).2]; exact hz
  | jumped rd o h => exact State.writeReg_regs_zero hz rd _
  | returned rd rs1 imm => exact State.writeReg_regs_zero hz rd _
  | _ => exact hz

theorem effect_bytes {s t : State} (h : Effect s t) (hm : s.memSys.Ok s.params.memorySize) (hz : s.params.memorySize < 2^64) :
   SameBytes s t ∨ ∃ (n : Nat) (a v : Word), a.toNat + n ≤ s.params.memorySize ∧ (s.params.smcEnable = true ∨ s.params.dataBase ≤ a.toNat) ∧ ∀ y : Word, y.toNat < s.params.memorySize → t.peekByte y =
        if a.toNat ≤ y.toNat ∧ y.toNat < a.toNat + n then
          BitVec.ofNat 8 ((v : Word).toNat / 2 ^ (8 * (y.toNat - a.toNat)))
        else s.peekByte y := by
  cases h with
  | loaded n a v v' rd u h => 
    obtain ⟨hc, hu⟩ := State.memRead_fields h
    obtain ⟨x, hr, hx, hp⟩ := State.memRead_ok hm hz (check_eq_none.mp hc).1
    rw [hr] at h
    simp only [Except.ok.injEq, Prod.mk.injEq] at h
    rw [← h.2]; exact .inl hp
  | stored n a v u h => 
    obtain ⟨hc, hu⟩ := State.memWrite_fields h
    obtain ⟨x, hr, hx, hp⟩ := State.memWrite_ok (v := v) hm hz (check_eq_none.mp hc).1 ((check_eq_none.mp hc).2 rfl)
    rw [hr] at h
    simp only [Except.ok.injEq] at h
    rw [← h]; exact .inr ⟨n, a, v, (check_eq_none.mp hc).1, (check_eq_none.mp hc).2 rfl, hp⟩
  | _ => exact .inl fun _ _ => rfl

theorem exec_bytes (i : Instr) (s v : State) (hi : isStore i = false) (hw : i.wf = true) (hm : s.memSys.Ok s.params.memorySize) (hz : s.params.memorySize < 2^64) (h : exec i s = .next v) : SameBytes s v := by
  have ld : ∀ n ext rd rs1 imm, s.loadFrom n ext rd rs1 imm = .next v → SameBytes s v := by
    intro n ext rd rs1 imm h
    unfold State.loadFrom at h
    cases hr : s.memRead (effectiveAddr (s.readReg rs1) imm) n with
    | error c => rw [hr] at h; cases h; exact fun _ _ => rfl
    | ok r => 
      rw [hr] at h
      obtain ⟨w, u⟩ := r
      cases h
      obtain ⟨hc, hu⟩ := State.memRead_fields hr
      obtain ⟨x, hr', hx, hp⟩ := State.memRead_ok hm hz (check_eq_none.mp hc).1
      rw [hr'] at hr
      simp only [Except.ok.injEq, Prod.mk.injEq] at hr
      rw [← hr.2]; exact hp
  have br : ∀ c rs1 rs2 o, s.branchIf c rs1 rs2 o = .next v → SameBytes s v := by
    intro c rs1 rs2 o h
    unfold State.branchIf at h
    split at h <;> cases h <;> exact fun _ _ => rfl
  cases i with
  | lb a b o | lh a b o | lw a b o | ld a b o | lbu a b o | lhu a b o | lwu a b o => exact ld _ _ _ _ _ h
  | sb a b o | sh a b o | sw a b o | sd a b o => cases hi
  | beq a b o | bne a b o | blt a b o | bge a b o | bltu a b o | bgeu a b o => exact br _ _ _ _ h
  | _ => cases h; exact fun _ _ => rfl

theorem lookAhead_peekByte (v : State) (a : Word) : v.lookAhead.peekByte a = v.peekByte a := by rw [State.peekByte, State.lookAhead_memSys]; rfl

theorem wordAt_congr {s t : State} {a : Word} (h : ∀ k, k < 4 → t.peekByte (a + BitVec.ofNat 64 k) = s.peekByte (a + BitVec.ofNat 64 k)) : wordAt t a = wordAt s a := by
  rw [← wordOfFourBytes_peek, ← wordOfFourBytes_peek]
  have h0 := h 0 (by decide); have h1 := h 1 (by decide); have h2 := h 2 (by decide); have h3 := h 3 (by decide)
  rw [show BitVec.ofNat 64 0 = 0#64 from rfl, BitVec.add_zero] at h0
  rw [h0]
  congr 1

theorem flushWays_count (size : Nat) (g : CacheConfig) (s : Nat) (ws : List Line) (m : Memory) (n : Word) :
    (flushWays size g s ws m n).2 = n + BitVec.ofNat 64 (ws.countP (mustFlush g)) := by
  induction ws generalizing m n with
  | nil => simp [flushWays]
  | cons L ws ih =>
    unfold flushWays
    split
    · rename_i h
      rw [ih, List.countP_cons_of_pos h, Nat.add_comm _ 1, BitVec.ofNat_add, ← BitVec.add_assoc]
      rfl
    · rename_i h
      rw [ih, List.countP_cons_of_neg h]

theorem flushSets_count (size : Nat) (g : CacheConfig) (s : Nat) (ss : List (List Line)) (m : Memory) (n : Word) :
    (flushSets size g s ss m n).2 = n + BitVec.ofNat 64 (ss.flatten.countP (mustFlush g)) := by
  induction ss generalizing s m n with
  | nil => simp [flushSets]
  | cons ws ss ih =>
    unfold flushSets
    rw [ih, flushWays_count, List.flatten_cons, List.countP_append, BitVec.ofNat_add, BitVec.add_assoc]

theorem applyImage_spec (p : Params) (im : Image) (hf : im.fits p = true) : (applyImage p im).wf = true ∧ (applyImage p im).within p.memorySize = true ∧ 
   ∀ a, a < p.memorySize → (applyImage p im).read a = imageByte p im a := by
  have w1 := Memory.writeBlock_wf (size := p.memorySize) Memory.wf_nil 0 (im.words.flatMap bytesOfWord)
  refine ⟨Memory.writeBlock_wf w1 _ _, Memory.writeBlock_within (Memory.writeBlock_within (Memory.within_nil _) _ _) _ _, fun a ha => ?_⟩
  rw [applyImage, Memory.read_writeBlock w1, Memory.read_writeBlock Memory.wf_nil, length_flatMap_bytesOfWord]
  simp only [Image.fits, Bool.and_eq_true, decide_eq_true_eq] at hf
  rw [imageByte]
  by_cases h1 : a < 4 * im.words.length
  · rw [if_neg (by omega), if_pos (by omega), if_pos h1, Nat.sub_zero, getD_flatMap_bytesOfWord _ _ h1]
    apply BitVec.eq_of_toNat_eq
    rw [BitVec.extractLsb'_toNat, BitVec.toNat_ofNat, Nat.shiftRight_eq_div_pow]
  · rw [if_neg h1]
    by_cases h2 : p.dataBase ≤ a
    · rw [if_pos h2]
      by_cases h3 : a < p.dataBase + im.data.length
      · rw [if_pos (by omega)]
      · rw [if_neg (by omega), if_neg (by omega), List.getD_eq_getElem?_getD, List.getElem?_eq_none (by omega)]; rfl
    · rw [if_neg (by omega), if_neg (by omega), if_neg h2]; rfl

theorem dedupLabels_pairwise (l : List Label) : (dedupLabels l).Pairwise (fun k l => k.start ≠ l.start) := by
  induction l with
  | nil => exact .nil
  | cons a l ih => 
    rw [dedupLabels]
    refine List.pairwise_cons.mpr ⟨fun k hk => ?_, ih.filter _⟩
    have := (List.mem_filter.mp hk).2
    simp at this
    exact fun h => this h.symm

theorem resident_iff_hitWay {c : Cache} {a : Word} : Resident c a ↔ (hitWay (c.ways (c.cfg.index a)) (c.cfg.tag a)).isSome = true := by
  constructor
  · rintro ⟨w, h1, h2, h3⟩
    cases hh : hitWay (c.ways (c.cfg.index a)) (c.cfg.tag a) with
    | some _ => rfl
    | none => exact absurd h3 (Cache.hitWay_none hh h1 h2)
  · intro h
    obtain ⟨w, hw⟩ := Option.isSome_iff_exists.mp h
    exact ⟨w, Cache.hitWay_some hw⟩

theorem hitWay_of_resident {c : Cache} {a : Word} (h : Resident c a) : ∃ w, hitWay (c.ways (c.cfg.index a)) (c.cfg.tag a) = some w := Option.isSome_iff_exists.mp (resident_iff_hitWay.mp h)

theorem hitWay_of_not_resident {c : Cache} {a : Word} (h : ¬ Resident c a) : hitWay (c.ways (c.cfg.index a)) (c.cfg.tag a) = none := by
  rw [resident_iff_hitWay] at h; simpa using h

theorem mustFlush_iff {g : CacheConfig} {L : Line} : mustFlush g L = true ↔ NeedsFlush g L := by
  simp [mustFlush, NeedsFlush, and_assoc]

theorem cacheFill_spec (size : Nat) (c : Cache) (m : Memory) {s w : Nat} (a : Word) (hw : w < (c.ways s).length) :
    (c.fill size m s w a).1.line s w =
      { valid := true, dirty := false, tag := c.cfg.tag a, ts := c.clk
        data := (c.fill size m s w a).2.readBlock size (c.cfg.base a).toNat c.cfg.blockSize } ∧
    (∀ s' v, ¬ (s' = s ∧ v = w) → (c.fill size m s w a).1.line s' v = c.line s' v) ∧
    (NeedsFlush c.cfg (c.line s w) →
      (c.fill size m s w a).1.stats.writebacks = c.stats.writebacks + 1 ∧
      (c.fill size m s w a).2 = flushLine size c.cfg m s (c.line s w)) ∧
    (¬ NeedsFlush c.cfg (c.line s w) →
      (c.fill size m s w a).1.stats.writebacks = c.stats.writebacks ∧ (c.fill size m s w a).2 = m) := by
  simp only [← mustFlush_iff, Cache.fill]
  by_cases hf : mustFlush c.cfg (c.line s w) = true
  · simp only [hf, if_true]
    refine ⟨Cache.line_setLine_same (c := c.countWriteback) hw _,
      fun s' v h => Cache.line_setLine_other (c := c.countWriteback) h _, fun _ => ⟨by trivial, by trivial⟩, fun h => absurd (by trivial) h⟩
  · simp only [hf, Bool.false_eq_true, if_false]
    refine ⟨Cache.line_setLine_same hw _, fun s' v h => Cache.line_setLine_other h _,
      fun h => absurd h (by simp), fun _ => ⟨by trivial, by trivial⟩⟩

theorem oldest_spec (ws : List Line) (h : ws ≠ []) : ∃ v, ∃ hv : v < ws.length, oldest ws = some (v, ws[v].ts) ∧ ∀ u (hu : u < ws.length), ws[v].ts.toNat ≤ ws[u].ts.toNat ∧ (u < v → ws[v].ts.toNat < ws[u].ts.toNat) := by
  induction ws with
  | nil => exact absurd rfl h
  | cons L ws ih => 
    simp only [oldest]
    cases ws with
    | nil => 
      refine ⟨0, by simp, rfl, ?_⟩
      intro u hu
      obtain rfl : u = 0 := by simpa using hu
      simp
    | cons K ws => 
      obtain ⟨v, hv, e, p⟩ := ih (by simp)
      rw [e]
      simp only
      split
      · rename_i hlt
        refine ⟨v + 1, by simpa using hv, rfl, ?_⟩
        intro u hu
        cases u with
        | zero => 
          have := BitVec.lt_def.mp hlt
          simp only [List.getElem_cons_succ, List.getElem_cons_zero]
          omega
        | succ u => 
          have := p u (by simpa using hu)
          simp only [List.getElem_cons_succ]
          omega
      · rename_i hlt
        refine ⟨0, by simp, rfl, ?_⟩
        intro u hu
        have hle : L.ts.toNat ≤ (K :: ws)[v].ts.toNat := by rw [BitVec.lt_def] at hlt; omega
        cases u with
        | zero => simp
        | succ u => 
          have := p u (by simpa using hu)
          simp only [List.getElem_cons_succ, List.getElem_cons_zero]
          omega

theorem nearestLabel_spec (line : Nat) (ls : List Label) (i : Nat) : 
   (∀ j st, nearestLabel line ls i = some (j, st) → i ≤ j ∧ ∃ l, ls[j - i]? = some l ∧ l.start = st ∧ st ≤ line ∧ ∀ k ∈ ls, k.start ≤ line → k.start ≤ st) ∧
   (nearestLabel line ls i = none ↔ ∀ k ∈ ls, line < k.start) := by
  induction ls generalizing i with
  | nil => simp [nearestLabel]
  | cons l ls ih => 
    obtain ⟨i1, i2⟩ := ih (i + 1)
    cases hn : nearestLabel line ls (i + 1) with
    | none => 
      have hall := i2.mp hn
      simp only [nearestLabel, hn]
      constructor
      · intro j st h
        split at h
        · rename_i hle
          cases h
          refine ⟨Nat.le_refl _, l, by simp, rfl, hle, ?_⟩
          intro k hk hkl
          rcases List.mem_cons.mp hk with rfl | hk
          · exact Nat.le_refl _
          · have := hall k hk; omega
        · cases h
      · split
        · rename_i hle; simp; omega
        · rename_i hle; simp; exact ⟨by omega, hall⟩
    | some p => 
      obtain ⟨j0, st0⟩ := p
      obtain ⟨a1, l0, a2, a3, a4, a5⟩ := i1 j0 st0 hn
      simp only [nearestLabel, hn]
      constructor
      · intro j st h
        split at h
        · rename_i hle
          cases h
          refine ⟨Nat.le_refl _, l, by simp, rfl, hle.1, ?_⟩
          intro k hk hkl
          rcases List.mem_cons.mp hk with rfl | hk
          · exact Nat.le_refl _
          · have := a5 k hk hkl; omega
        · rename_i hle
          cases h
          refine ⟨by omega, l0, ?_, a3, a4, ?_⟩
          · rw [show j0 - i = (j0 - (i + 1)) + 1 by omega]; simpa using a2
          · intro k hk hkl
            rcases List.mem_cons.mp hk with rfl | hk
            · by_contra hc; exact hle ⟨hkl, by omega⟩
            · exact a5 k hk hkl
      · have : ¬ ∀ k ∈ l :: ls, line < k.start := by
          intro h
          have := h l0 (List.mem_cons_of_mem _ (List.mem_of_getElem? a2))
          omega
        split <;> simp [-List.mem_cons, -List.forall_mem_cons, this]

theorem mem_of_mem_dedupLabels (ls : List Label) : ∀ k ∈ dedupLabels ls, k ∈ ls := by
  induction ls with
  | nil => intro k hk; cases hk
  | cons l ls ih => 
    intro k hk
    rw [dedupLabels] at hk
    rcases List.mem_cons.mp hk with rfl | hk
    · simp
    · exact List.mem_cons_of_mem _ (ih k (List.mem_filter.mp hk).1)

theorem dedupLabels_find (ls : List Label) : ∀ l ∈ ls, ∃ k ∈ dedupLabels ls, k.start = l.start ∧ ls.find? (fun j => j.start = l.start) = some k := by
  induction ls with
  | nil => intro k hk; cases hk
  | cons a ls ih => 
    intro l hl
    by_cases h : a.start = l.start
    · exact ⟨a, by simp [dedupLabels], h, by simp [h]⟩
    · rcases List.mem_cons.mp hl with rfl | hl
      · exact absurd rfl h
      · obtain ⟨k, h1, h2, h3⟩ := ih l hl
        refine ⟨k, ?_, h2, ?_⟩
        · rw [dedupLabels]
          refine List.mem_cons_of_mem _ (List.mem_filter.mpr ⟨h1, ?_⟩)
          simp; rw [h2]; exact fun h' => h h'.symm
        · rw [List.find?_cons_of_neg (by simpa using h)]; exact h3

theorem byteRead_of_cache {size : Nat} {x : MemSystem} {c : Cache} (hc : x.cache = some c) (a : Word) : 
   (x.byteRead size a).2 = 
     { store := (c.lookup size x.store x.draws a true).store
       cache := some (c.lookup size x.store x.draws a true).cache.refreshRate
       draws := (c.lookup size x.store x.draws a true).draws
       trace := appendTrace (c.lookup size x.store x.draws a true).cache.refreshRate x.trace
          (traceRecord .read a (c.lookup size x.store x.draws a true).hit (c.lookup size x.store x.draws a true).cache.refreshRate (c.lookup size x.store x.draws a true).way) } := by
  rw [MemSystem.byteRead, hc]; rfl

theorem byteWrite_of_cache {size : Nat} {x : MemSystem} {c : Cache} (hc : x.cache = some c) (a : Word) (b : Byte) (r) (hr : r = c.lookup size x.store x.draws a c.cfg.writeAllocate) : 
   (x.byteWrite size a b).store = (match c.cfg.writePolicy, r.way with
      | .writeThrough, _ => r.store.write a.toNat b
      | .writeBack, none => r.store.write a.toNat b
      | .writeBack, some _ => r.store) ∧ 
   ∃ c', (x.byteWrite size a b).cache = some c' ∧ c'.cfg = (r.cache.updateLine r.way a b).cfg ∧ c'.sets = (r.cache.updateLine r.way a b).sets ∧
     c'.traceEnable = r.cache.traceEnable ∧
     c'.stats.writebacks = (match c.cfg.writePolicy with | .writeThrough => r.cache.stats.writebacks + 1 | .writeBack => r.cache.stats.writebacks) ∧
     c'.stats.hitRate = c'.stats.exactRate ∧ 
     (x.byteWrite size a b).trace = appendTrace c' x.trace (traceRecord .write a r.hit c' r.way) := by
  subst hr
  rw [MemSystem.byteWrite, hc]
  obtain ⟨u1, u2, u3, u4⟩ := Cache.updateLine_fields (c.lookup size x.store x.draws a c.cfg.writeAllocate).cache (c.lookup size x.store x.draws a c.cfg.writeAllocate).way a b
  refine ⟨?_, _, rfl, ?_, ?_, ?_, ?_, ?_, ?_⟩
  · simp only [cacheWriteByte] <;> rfl
  · cases h : c.cfg.writePolicy <;> rfl
  · cases h : c.cfg.writePolicy <;> rfl
  · rw [← u3]; cases h : c.cfg.writePolicy <;> rfl
  · cases h : c.cfg.writePolicy 
    · simp only; rw [← u2]; rfl
    · simp only; rw [← u2]; rfl
  · cases h : c.cfg.writePolicy <;> rfl
  · simp only [cacheWriteByte]

theorem exactRate_eq_div (t : CacheStats) : t.exactRate = (t.hitCount.toNat : Rat) / (t.accessCount.toNat : Rat) := by
  rw [CacheStats.exactRate, Rat.mkRat_eq_div]; simp

theorem lookup_of_resident {size : Nat} {c : Cache} {m : Memory} {d : Nat} {a : Word} {al : Bool} (h : Resident c a) : ∃ w, (c.lookup size m d a al).way = some w ∧ 
   (c.lookup size m d a al).store = m ∧ (c.lookup size m d a al).cache.stats.writebacks = c.stats.writebacks := by
  obtain ⟨w, hw⟩ := hitWay_of_resident h
  have e : c.lookup size m d a al = { way := some w, hit := true, store := m, draws := d, cache := c.beginLookup.countHit.setLine (c.cfg.index a) w (touchLine c.beginLookup (c.line (c.cfg.index a) w)) } := by
      rw [Cache.lookup]; simp only [Cache.cfg_beginLookup, Cache.ways_beginLookup, hw]; rfl
  rw [e]; exact ⟨w, rfl, rfl, rfl⟩

theorem lookup_bypass_of_not_resident {size : Nat} {c : Cache} {m : Memory} {d : Nat} {a : Word} (h : ¬ Resident c a) : c.lookup size m d a false = { way := none, hit := false, cache := c.beginLookup.countMiss, store := m, draws := d } := by
  have hn := hitWay_of_not_resident h
  rw [Cache.lookup]; simp only [Cache.cfg_beginLookup, Cache.ways_beginLookup, hn]; rfl

theorem lookup_fill_of_not_resident {size : Nat} {c : Cache} {m : Memory} {d : Nat} {a : Word} (h : ¬ Resident c a) : ∃ v, (c.lookup size m d a true).way = some v ∧ v = victimWay c.cfg (c.ways (c.cfg.index a)) (Config.randomDraw d) ∧ 
    (c.lookup size m d a true).cache = (c.beginLookup.countMiss.fill size m (c.cfg.index a) v a).1 ∧ (c.lookup size m d a true).store = (c.beginLookup.countMiss.fill size m (c.cfg.index a) v a).2 := by
  have hn := hitWay_of_not_resident h
  refine ⟨_, ?_, rfl, ?_⟩
  all_goals rw [Cache.lookup]; simp only [Cache.cfg_beginLookup, Cache.ways_beginLookup, hn]
  · rfl
  · exact ⟨rfl, rfl⟩

theorem hitWay_updateLine {c : Cache} {w : Option Nat} {a : Word} {b : Byte} : hitWay ((c.updateLine w a b).ways ((c.updateLine w a b).cfg.index a)) ((c.updateLine w a b).cfg.tag a) = hitWay (c.ways (c.cfg.index a)) (c.cfg.tag a) := by
  unfold Cache.updateLine
  split
  · rename_i w
    exact Cache.hitWay_setLine (c := c) (s := c.cfg.index a) (w := w) (L := putByte c.cfg (c.line (c.cfg.index a) w) (c.cfg.offset a) b) rfl rfl _ _
  · rfl

theorem resident_congr {c c' : Cache} {a : Word} (h1 : c'.cfg = c.cfg) (h2 : c'.sets = c.sets) : Resident c' a ↔ Resident c a := by
  rw [resident_iff_hitWay, resident_iff_hitWay, h1]
  have : c'.ways = c.ways := by funext s; simp [Cache.ways, h2]
  rw [this]

theorem lineDirty_iff {size : Nat} {m : Memory} {c : Cache} {a : Word} (h : c.Coherent size m) {way : Option Nat}
    (hw : hitWay (c.ways (c.cfg.index a)) (c.cfg.tag a) = way) :
    LineDirty c a ↔ ∃ w, way = some w ∧ (c.line (c.cfg.index a) w).dirty = true := by
  subst hw
  constructor
  · rintro ⟨w, h1, h2, h3, h4⟩
    exact ⟨w, h.hitWay_eq h1 h2 h3, h4⟩
  · rintro ⟨w, h1, h2⟩
    obtain ⟨k1, k2, k3⟩ := Cache.hitWay_some h1
    exact ⟨w, k1, k2, k3, h2⟩

theorem traceRecord_dirty {size : Nat} {m : Memory} {c : Cache} {a : Word} (h : c.Coherent size m) {way : Option Nat}
    (hw : hitWay (c.ways (c.cfg.index a)) (c.cfg.tag a) = way) (dir : Direction) (hit : Bool) :
    (traceRecord dir a hit c way).dirty = true ↔ LineDirty c a := by
  rw [lineDirty_iff h hw]
  cases way <;> simp [traceRecord]

end Sys2Proof.Claims
end

