-- ==== Sys2Proof/Tests/Slice0.lean ====
section
/-! SUPPORT. The model's own tests. Every expected result is the spec's: the encodings of 30_encoding.md and
the vectors of 95_test_vectors.md, whose section each test names. The last part holds, for every statement
with hypotheses, a witness that meets them. -/

namespace Sys2Proof.Tests

open Sys2Proof.Machine Sys2Proof.Claims

/-! ## Well-formedness: each check refuses an ill-formed term (R143, R145) -/

theorem test_wf_beq : (Instr.beq 1 2 3#13).wf = false := by decide
theorem test_wf_bne : (Instr.bne 1 2 1#13).wf = false := by decide
theorem test_wf_blt : (Instr.blt 1 2 0x1FFF#13).wf = false := by decide
theorem test_wf_bge : (Instr.bge 1 2 5#13).wf = false := by decide
theorem test_wf_bltu : (Instr.bltu 1 2 7#13).wf = false := by decide
theorem test_wf_bgeu : (Instr.bgeu 1 2 9#13).wf = false := by decide
theorem test_wf_jal : (Instr.jal 1 3#21).wf = false := by decide
theorem test_wf_even : (Instr.beq 1 2 0x1FFE#13).wf = true ∧ (Instr.jal 1 0x1FFFFE#21).wf = true := by decide

/-! ## Decoding: words written out bit by bit from the formats of R133 to R140 and the key values of R150 -/

/-- R format: funct7, rs2, rs1, funct3, rd, opcode 0x33; registers 31, 17 and 2 (R133). -/
theorem test_decode_alu :
    decodeWord 0b0000000_00010_10001_000_11111_0110011#32 = .ok (.add 31 17 2) ∧
    decodeWord 0b0100000_00010_10001_000_11111_0110011#32 = .ok (.sub 31 17 2) ∧
    decodeWord 0b0000000_00010_10001_001_11111_0110011#32 = .ok (.sll 31 17 2) ∧
    decodeWord 0b0000000_00010_10001_010_11111_0110011#32 = .ok (.slt 31 17 2) ∧
    decodeWord 0b0000000_00010_10001_011_11111_0110011#32 = .ok (.sltu 31 17 2) ∧
    decodeWord 0b0000000_00010_10001_100_11111_0110011#32 = .ok (.xor 31 17 2) ∧
    decodeWord 0b0000000_00010_10001_101_11111_0110011#32 = .ok (.srl 31 17 2) ∧
    decodeWord 0b0100000_00010_10001_101_11111_0110011#32 = .ok (.sra 31 17 2) ∧
    decodeWord 0b0000000_00010_10001_110_11111_0110011#32 = .ok (.or 31 17 2) ∧
    decodeWord 0b0000000_00010_10001_111_11111_0110011#32 = .ok (.and 31 17 2) := by decide

/-- R format with funct7 = 1 (R133). -/
theorem test_decode_muldiv :
    decodeWord 0b0000001_11110_01001_000_00100_0110011#32 = .ok (.mul 4 9 30) ∧
    decodeWord 0b0000001_11110_01001_001_00100_0110011#32 = .ok (.mulh 4 9 30) ∧
    decodeWord 0b0000001_11110_01001_010_00100_0110011#32 = .ok (.mulhsu 4 9 30) ∧
    decodeWord 0b0000001_11110_01001_011_00100_0110011#32 = .ok (.mulhu 4 9 30) ∧
    decodeWord 0b0000001_11110_01001_100_00100_0110011#32 = .ok (.div 4 9 30) ∧
    decodeWord 0b0000001_11110_01001_101_00100_0110011#32 = .ok (.divu 4 9 30) ∧
    decodeWord 0b0000001_11110_01001_110_00100_0110011#32 = .ok (.rem 4 9 30) ∧
    decodeWord 0b0000001_11110_01001_111_00100_0110011#32 = .ok (.remu 4 9 30) := by decide

/-- I format: imm[11:0], rs1, funct3, rd, opcode 0x13 (R134). -/
theorem test_decode_imm :
    decodeWord 0b100110100101_00111_000_11100_0010011#32 = .ok (.addi 28 7 0x9A5#12) ∧
    decodeWord 0b100110100101_00111_010_11100_0010011#32 = .ok (.slti 28 7 0x9A5#12) ∧
    decodeWord 0b100110100101_00111_011_11100_0010011#32 = .ok (.sltiu 28 7 0x9A5#12) ∧
    decodeWord 0b100110100101_00111_100_11100_0010011#32 = .ok (.xori 28 7 0x9A5#12) ∧
    decodeWord 0b100110100101_00111_110_11100_0010011#32 = .ok (.ori 28 7 0x9A5#12) ∧
    decodeWord 0b100110100101_00111_111_11100_0010011#32 = .ok (.andi 28 7 0x9A5#12) := by decide

/-- I-shift format: funct6, shamt, rs1, funct3, rd; an amount above 31 sets word bit 25 (R135). -/
theorem test_decode_shift :
    decodeWord 0b000000_100001_01100_001_00101_0010011#32 = .ok (.slli 5 12 33#6) ∧
    decodeWord 0b000000_111111_01100_101_00101_0010011#32 = .ok (.srli 5 12 63#6) ∧
    decodeWord 0b010000_100001_01100_101_00101_0010011#32 = .ok (.srai 5 12 33#6) := by decide

/-- I format, opcode 0x03 (R134). -/
theorem test_decode_load :
    decodeWord 0b011111111110_10100_000_01011_0000011#32 = .ok (.lb 11 20 0x7FE#12) ∧
    decodeWord 0b011111111110_10100_001_01011_0000011#32 = .ok (.lh 11 20 0x7FE#12) ∧
    decodeWord 0b011111111110_10100_010_01011_0000011#32 = .ok (.lw 11 20 0x7FE#12) ∧
    decodeWord 0b011111111110_10100_011_01011_0000011#32 = .ok (.ld 11 20 0x7FE#12) ∧
    decodeWord 0b011111111110_10100_100_01011_0000011#32 = .ok (.lbu 11 20 0x7FE#12) ∧
    decodeWord 0b011111111110_10100_101_01011_0000011#32 = .ok (.lhu 11 20 0x7FE#12) ∧
    decodeWord 0b011111111110_10100_110_01011_0000011#32 = .ok (.lwu 11 20 0x7FE#12) := by decide

/-- S format: imm[11:5], rs2, rs1, funct3, imm[4:0], opcode 0x23 (R136). -/
theorem test_decode_store :
    decodeWord 0b1010110_00110_10011_000_10011_0100011#32 = .ok (.sb 19 0xAD3#12 6) ∧
    decodeWord 0b1010110_00110_10011_001_10011_0100011#32 = .ok (.sh 19 0xAD3#12 6) ∧
    decodeWord 0b1010110_00110_10011_010_10011_0100011#32 = .ok (.sw 19 0xAD3#12 6) ∧
    decodeWord 0b1010110_00110_10011_011_10011_0100011#32 = .ok (.sd 19 0xAD3#12 6) := by decide

/-- B format: imm[12], imm[10:5], rs2, rs1, funct3, imm[4:1], imm[11], opcode 0x63 (R137). -/
theorem test_decode_branch :
    decodeWord 0b1_000000_10111_00011_000_0000_0_1100011#32 = .ok (.beq 3 23 0x1000#13) ∧
    decodeWord 0b0_000000_10111_00011_001_0000_1_1100011#32 = .ok (.bne 3 23 0x800#13) ∧
    decodeWord 0b0_100000_10111_00011_100_0000_0_1100011#32 = .ok (.blt 3 23 0x400#13) ∧
    decodeWord 0b0_000000_10111_00011_101_1111_0_1100011#32 = .ok (.bge 3 23 0x1E#13) ∧
    decodeWord 0b1_101010_10111_00011_110_1010_0_1100011#32 = .ok (.bltu 3 23 0x1554#13) ∧
    decodeWord 0b0_010101_10111_00011_111_0101_1_1100011#32 = .ok (.bgeu 3 23 0xAAA#13) := by decide

/-- J format: imm[20], imm[10:1], imm[11], imm[19:12], rd (R139); jalr in I format (R134). -/
theorem test_decode_jump :
    decodeWord 0b1_1011010011_0_01011010_00001_1101111#32 = .ok (.jal 1 0x15A5A6#21) ∧
    decodeWord 0b100000000001_00101_000_00001_1100111#32 = .ok (.jalr 1 5 0x801#12) := by decide

/-- U format: imm[31:12], rd, opcode (R138). -/
theorem test_decode_upper :
    decodeWord 0b10011010101111001101_10110_0110111#32 = .ok (.lui 22 0x9ABCD#20) ∧
    decodeWord 0b01100111100010011010_01101_0010111#32 = .ok (.auipc 13 0x6789A#20) := by decide

/-- The whole words (R140) and the sentinel (R148). -/
theorem test_decode_system :
    decodeWord 0b000000000000_00000_000_00000_1110011#32 = .ok .ecall ∧
    decodeWord 0b000000000001_00000_000_00000_1110011#32 = .ok .ebreak ∧
    decodeWord 0b00000000000000000000000000000000#32 = .ok .sentinel := by decide

/-- Words that are no instruction, by class (section 2.8, R151). -/
theorem test_decode_unhandled :
    decodeWord 0x0000001B#32 = .error (.unhandledOpcode 0x0000001B#32) ∧
    decodeWord 0xFFFFFFFF#32 = .error (.unhandledOpcode 0xFFFFFFFF#32) ∧
    decodeWord 0x00000001#32 = .error (.unhandledOpcode 0x00000001#32) ∧
    decodeWord 0x30200073#32 = .error (.unhandledFunct 0x30200073#32) ∧
    decodeWord 0x400011B3#32 = .error (.unhandledFunct 0x400011B3#32) ∧
    decodeWord 0x06009093#32 = .error (.unhandledFunct 0x06009093#32) ∧
    decodeWord 0x00002063#32 = .error (.unhandledFunct 0x00002063#32) ∧
    decodeWord 0x000010E7#32 = .error (.unhandledFunct 0x000010E7#32) := by decide

theorem test_decode_truncated : decode [0x33, 0, 0] = .error .truncated := by decide

/-- The byte decoder reads the word least significant byte first (R52, R130): `addi x1,x0,5`, section 1.3. -/
theorem test_decode_bytes :
    decode [0x93, 0x00, 0x50, 0x00, 0xAA] = .ok (.addi 1 0 5#12, [0xAA]) ∧
    bytesOfWord (encode (.addi 1 0 5#12)) = [0x93, 0x00, 0x50, 0x00] ∧
    decodeTableWord 32 0x00500093 = some (.addi 1 0 5#12) := by decide

/-! ## One step on a small state -/

/-- A machine with the default parameters, at `pc`, with these registers, the bytes `data` at `DATA_BASE`
and the word `w` where the next step fetches it. -/
def start (pc : Word) (regs : List (Reg × Word)) (data : List Byte) (w : Nat) : State :=
  let s := { State.powerOn Params.default with
    pc := pc
    memSys :=
      { store := Memory.writeBlock 0x50000 [] 0x10000 data, cache := none, draws := 0, trace := [] } }
  State.withFetchWord (regs.foldl (fun t p => { t.writeReg p.1 p.2 with wb := none }) s) 32 w

/-- The state after one step meets `p`. -/
def after (s : State) (p : State → Bool) : Bool :=
  match step s with
  | .next t => p t
  | .fault _ => false
  | .refused _ => false

/-- A step of status 0 that writes `v` to `rd` and goes on to the next word. -/
def gives (s : State) (rd : Reg) (v : Word) : Bool :=
  after s fun t => t.readReg rd == v && t.pc == s.pc + 4 && t.wb == some rd &&
    t.lastStatus == some .normal && t.runState == .running

/-- A step of status 0 that writes no register and leaves `pc` at `target`. -/
def goes (s : State) (target : Word) : Bool :=
  after s fun t => t.pc == target && t.wb == none && t.regs == s.regs && t.lastStatus == some .normal

/-- A step that takes the fault `c`: status 3, `pc` and registers as they were. -/
def faults (s : State) (c : Fault) : Bool :=
  after s fun t => t.faultCause == some c && t.runState == .faulted && t.lastStatus == some .fault &&
    t.pc == s.pc && t.regs == s.regs

/-- The bytes of memory from `a` on. -/
def bytesAt (t : State) (a n : Nat) : List Byte := (List.range n).map fun k => t.memSys.store.read (a + k)

/-! Section 2.1: register-register ALU. -/

theorem test_add_wraps :
    gives (start 0 [(1, 0x7FFFFFFFFFFFFFFF), (2, 1)] [] 0x002081B3) 3 0x8000000000000000 = true := by decide
theorem test_add_carry_lost :
    gives (start 0 [(1, 0xFFFFFFFFFFFFFFFF), (2, 1)] [] 0x002081B3) 3 0 = true := by decide
theorem test_sub_borrow :
    gives (start 0 [(1, 0), (2, 1)] [] 0x402081B3) 3 0xFFFFFFFFFFFFFFFF = true := by decide
theorem test_sll_largest :
    gives (start 0 [(1, 1), (2, 0x3F)] [] 0x002091B3) 3 0x8000000000000000 = true := by decide
theorem test_sll_low_six_bits :
    gives (start 0 [(1, 3), (2, 0xFFFFFFFFFFFFFFC1)] [] 0x002091B3) 3 6 = true := by decide
theorem test_srl_zero_fill :
    gives (start 0 [(1, 0x8000000000000000), (2, 0x3F)] [] 0x0020D1B3) 3 1 = true := by decide
theorem test_sra_sign_fill :
    gives (start 0 [(1, 0x8000000000000000), (2, 0x3F)] [] 0x4020D1B3) 3 0xFFFFFFFFFFFFFFFF = true := by decide
theorem test_sra_low_six_bits :
    gives (start 0 [(1, 0xFFFFFFFFFFFFFFF0), (2, 0x44)] [] 0x4020D1B3) 3 0xFFFFFFFFFFFFFFFF = true := by decide
theorem test_slt_signed :
    gives (start 0 [(1, 0xFFFFFFFFFFFFFFFF), (2, 1)] [] 0x0020A1B3) 3 1 = true := by decide
theorem test_slt_equal :
    gives (start 0 [(1, 5), (2, 5)] [] 0x0020A1B3) 3 0 = true := by decide
theorem test_sltu_unsigned :
    gives (start 0 [(1, 0xFFFFFFFFFFFFFFFF), (2, 1)] [] 0x0020B1B3) 3 0 = true := by decide
theorem test_sltu_less :
    gives (start 0 [(1, 1), (2, 0xFFFFFFFFFFFFFFFF)] [] 0x0020B1B3) 3 1 = true := by decide
theorem test_xor :
    gives (start 0 [(1, 0xFF00FF00FF00FF00), (2, 0xFF00FF00FF00FF0)] [] 0x0020C1B3) 3 0xF0F0F0F0F0F0F0F0 = true := by decide
theorem test_or :
    gives (start 0 [(1, 0xFF00FF00FF00FF00), (2, 0xFF00FF00FF00FF0)] [] 0x0020E1B3) 3 0xFFF0FFF0FFF0FFF0 = true := by decide
theorem test_and :
    gives (start 0 [(1, 0xFF00FF00FF00FF00), (2, 0xFF00FF00FF00FF0)] [] 0x0020F1B3) 3 0xF000F000F000F00 = true := by decide
theorem test_add_same_register : gives (start 0 [(1, 0x15)] [] 0x001080B3) 1 0x2A = true := by decide
theorem test_write_x0 : gives (start 0 [(1, 5), (2, 6)] [] 0x00208033) 0 0 = true := by decide

/-! Section 2.2: register-immediate ALU. -/

theorem test_addi_sign : gives (start 0 [(1, 0)] [] 0xFFF08193) 3 0xFFFFFFFFFFFFFFFF = true := by decide
theorem test_addi_smallest : gives (start 0 [(1, 0)] [] 0x80008193) 3 0xFFFFFFFFFFFFF800 = true := by decide
theorem test_slti_signed : gives (start 0 [(1, 0xFFFFFFFFFFFFFFFE)] [] 0xFFF0A193) 3 1 = true := by decide
theorem test_sltiu_of_minus_one : gives (start 0 [(1, 5)] [] 0xFFF0B193) 3 1 = true := by decide
theorem test_sltiu_largest : gives (start 0 [(1, 0xFFFFFFFFFFFFFFFF)] [] 0xFFF0B193) 3 0 = true := by decide
theorem test_xori_not : gives (start 0 [(1, 0xFF00FF00FF00FF)] [] 0xFFF0C193) 3 0xFF00FF00FF00FF00 = true := by decide
theorem test_ori_smallest : gives (start 0 [(1, 1)] [] 0x8000E193) 3 0xFFFFFFFFFFFFF801 = true := by decide
theorem test_andi_sign : gives (start 0 [(1, 0x123456789ABCDEFF)] [] 0xFF00F193) 3 0x123456789ABCDEF0 = true := by decide
theorem test_slli_32 : gives (start 0 [(1, 0x1FFFFFFFF)] [] 0x02009193) 3 0xFFFFFFFF00000000 = true := by decide
theorem test_srli_32 : gives (start 0 [(1, 0xFFFFFFFF00000000)] [] 0x0200D193) 3 0xFFFFFFFF = true := by decide
theorem test_srai_63 : gives (start 0 [(1, 0x8000000000000000)] [] 0x43F0D193) 3 0xFFFFFFFFFFFFFFFF = true := by decide
theorem test_srai_33 : gives (start 0 [(1, 0x4000000000000000)] [] 0x4210D193) 3 0x20000000 = true := by decide

/-! Section 2.3: loads. -/

def snapshot : List Byte :=
  [0x80, 0x81, 0x82, 0x83, 0x84, 0x85, 0x86, 0x87, 0x01, 0x02, 0x03, 0x04, 0x05, 0x06, 0x07, 0x08]

theorem test_lb : gives (start 0 [(2, 0x10000)] snapshot 0x00010183) 3 0xFFFFFFFFFFFFFF80 = true := by decide
theorem test_lbu : gives (start 0 [(2, 0x10000)] snapshot 0x00014183) 3 0x80 = true := by decide
theorem test_lh : gives (start 0 [(2, 0x10000)] snapshot 0x00011183) 3 0xFFFFFFFFFFFF8180 = true := by decide
theorem test_lhu : gives (start 0 [(2, 0x10000)] snapshot 0x00015183) 3 0x8180 = true := by decide
theorem test_lw : gives (start 0 [(2, 0x10000)] snapshot 0x00012183) 3 0xFFFFFFFF83828180 = true := by decide
theorem test_lw_misaligned : gives (start 0 [(2, 0x10000)] snapshot 0x00312183) 3 0xFFFFFFFF86858483 = true := by decide
theorem test_lwu : gives (start 0 [(2, 0x10000)] snapshot 0x00016183) 3 0x83828180 = true := by decide
theorem test_ld : gives (start 0 [(2, 0x10000)] snapshot 0x00013183) 3 0x8786858483828180 = true := by decide
theorem test_ld_misaligned : gives (start 0 [(2, 0x10000)] snapshot 0x00513183) 3 0x504030201878685 = true := by decide
theorem test_lb_negative_offset : gives (start 0 [(2, 0x10009)] snapshot 0xFFF10183) 3 1 = true := by decide
theorem test_ld_last : gives (start 0 [(2, 0x4FFF8)] snapshot 0x00013183) 3 0 = true := by decide
theorem test_ld_rd_is_rs1 :
    gives (start 0 [(2, 0x10000)] snapshot 0x00013103) 2 0x8786858483828180 = true := by decide
theorem test_lw_own_word : gives (start 0 [] [] 0x00002183) 3 0x2183 = true := by decide
theorem test_ld_past_end : faults (start 0 [(2, 0x4FFF9)] [] 0x00013183) .oob = true := by decide
theorem test_lw_no_wrap : faults (start 0 [(2, 2)] [] 0xFFC12183) .oob = true := by decide

/-! Section 2.4: stores. -/

def stores (x2 : Word) (w : Nat) (a : Nat) (bs : List Byte) : Bool :=
  after (start 0 [(2, x2), (3, 0x1122334455667788)] (List.replicate 16 0xAA) w) fun t =>
    bytesAt t a bs.length == bs && t.lastStatus == some .normal && t.wb == none && t.pc == 4

theorem test_sb :
    stores 0x10000 0x00310023 0x10000 [0x88, 0xAA, 0xAA, 0xAA, 0xAA, 0xAA, 0xAA, 0xAA] = true := by decide
theorem test_sh :
    stores 0x10000 0x00311023 0x10000 [0x88, 0x77, 0xAA, 0xAA, 0xAA, 0xAA, 0xAA, 0xAA] = true := by decide
theorem test_sw :
    stores 0x10000 0x00312023 0x10000 [0x88, 0x77, 0x66, 0x55, 0xAA, 0xAA, 0xAA, 0xAA] = true := by decide
theorem test_sd :
    stores 0x10000 0x00313023 0x10000 [0x88, 0x77, 0x66, 0x55, 0x44, 0x33, 0x22, 0x11] = true := by decide
theorem test_sd_negative_offset :
    stores 0x10008 0xFE313C23 0x10000 [0x88, 0x77, 0x66, 0x55, 0x44, 0x33, 0x22, 0x11] = true := by decide
theorem test_sw_misaligned :
    stores 0x10000 0x003122A3 0x10005 [0x88, 0x77, 0x66, 0x55, 0xAA, 0xAA, 0xAA, 0xAA] = true := by decide
theorem test_sd_last :
    stores 0x4FFF8 0x00313023 0x4FFF8 [0x88, 0x77, 0x66, 0x55, 0x44, 0x33, 0x22, 0x11] = true := by decide
theorem test_sd_x0 :
    stores 0x10000 0x00013023 0x10000 [0x00, 0x00, 0x00, 0x00, 0x00, 0x00, 0x00, 0x00] = true := by decide
theorem test_sd_past_end :
    faults (start 0 [(2, 0x4FFF9), (3, 0x1122334455667788)] [] 0x00313023) .oob = true := by decide
theorem test_sb_last_code_byte : faults (start 0 [(2, 0x10000), (3, 0x88)] [] 0xFE310FA3) .textWrite = true := by decide
theorem test_sd_straddles_data_base :
    faults (start 0 [(2, 0x10000), (3, 0x88)] [] 0xFE313E23) .textWrite = true := by decide
/-- The same store with `SMC_ENABLE` true. -/
theorem test_sw_smc : (after { start 0 [(2, 0x100), (3, 0x1122334455667788)] [] 0x00312023 with
    params := { Params.default with smcEnable := true } } fun t =>
      bytesAt t 0x100 4 == [0x88, 0x77, 0x66, 0x55] && t.lastStatus == some .normal) = true := by decide

/-! Section 2.5: branches, at 0x100. -/

theorem test_beq_taken : goes (start 0x100 [(1, 5), (2, 5)] [] 0x00208463) 0x108 = true := by decide
theorem test_beq_not_taken : goes (start 0x100 [(1, 5), (2, 6)] [] 0x00208463) 0x104 = true := by decide
theorem test_bne_backward : goes (start 0x100 [(1, 5), (2, 6)] [] 0xFE209EE3) 0xFC = true := by decide
theorem test_bne_not_taken : goes (start 0x100 [(1, 5), (2, 5)] [] 0xFE209EE3) 0x104 = true := by decide
theorem test_blt_signed : goes (start 0x100 [(1, 0xFFFFFFFFFFFFFFFF), (2, 1)] [] 0x0020C863) 0x110 = true := by decide
theorem test_blt_equal : goes (start 0x100 [(1, 3), (2, 3)] [] 0x0020C863) 0x104 = true := by decide
theorem test_bge_equal : goes (start 0x100 [(1, 3), (2, 3)] [] 0x0020D863) 0x110 = true := by decide
theorem test_bge_less : goes (start 0x100 [(1, 0xFFFFFFFFFFFFFFFF), (2, 1)] [] 0x0020D863) 0x104 = true := by decide
theorem test_bltu_unsigned : goes (start 0x100 [(1, 0xFFFFFFFFFFFFFFFF), (2, 1)] [] 0x0020E863) 0x104 = true := by decide
theorem test_bltu_less : goes (start 0x100 [(1, 1), (2, 0xFFFFFFFFFFFFFFFF)] [] 0x0020E863) 0x110 = true := by decide
theorem test_bgeu_greater : goes (start 0x100 [(1, 0xFFFFFFFFFFFFFFFF), (2, 1)] [] 0xFE20F8E3) 0xF0 = true := by decide
theorem test_bgeu_less : goes (start 0x100 [(1, 1), (2, 0xFFFFFFFFFFFFFFFF)] [] 0xFE20F8E3) 0x104 = true := by decide
theorem test_beq_largest_offset : goes (start 0x100 [] [] 0x7E000FE3) 0x10FE = true := by decide
theorem test_beq_smallest_offset : goes (start 0x100 [] [] 0x80000063) 0xFFFFFFFFFFFFF100 = true := by decide

/-! Section 2.6: jumps. -/

def jumps (s : State) (rd : Reg) (link target : Word) (depth : Nat) : Bool :=
  after s fun t => t.readReg rd == link && t.pc == target && t.callStack.length == depth &&
    t.lastStatus == some .normal && t.wb == some rd

theorem test_jal_bit_11 : jumps (start 0x10 [] [] 0x001000EF) 1 0x14 0x810 1 = true := by decide
theorem test_jal_smallest : jumps (start 0x10 [] [] 0x800000EF) 1 0x14 0xFFFFFFFFFFF00010 1 = true := by decide
theorem test_jal_x0_pushes : jumps (start 0x10 [] [] 0xFF9FF06F) 0 0 8 1 = true := by decide
theorem test_jalr_clears_bit_0 : jumps (start 0x40 [(5, 0x105)] [] 0xFFC280E7) 1 0x44 0x100 0 = true := by decide
theorem test_jalr_old_rs1 : jumps (start 0x20 [(1, 0x80)] [] 0x000080E7) 1 0x24 0x80 0 = true := by decide

/-! Section 2.7: upper immediates. -/

theorem test_lui_positive : gives (start 0 [] [] 0x123452B7) 5 0x12345000 = true := by decide
theorem test_lui_negative : gives (start 0 [] [] 0x800002B7) 5 0xFFFFFFFF80000000 = true := by decide
theorem test_auipc : gives (start 8 [] [] 0x00001297) 5 0x1008 = true := by decide
theorem test_auipc_negative : gives (start 8 [] [] 0x80000297) 5 0xFFFFFFFF80000008 = true := by decide

/-! Sections 2.8 and 1.6: system words, unhandled words, the sentinel. -/

theorem test_ecall : goes (start 0x20 [(1, 11)] [] 0x00000073) 0x24 = true := by decide
theorem test_ebreak_executed : goes (start 0x20 [(1, 11)] [] 0x00100073) 0x24 = true := by decide
theorem test_unhandled_opcode : goes (start 0x20 [(1, 11)] [] 0x0000100F) 0x24 = true := by decide
theorem test_unhandled_funct : goes (start 0x20 [(1, 11)] [] 0x04000033) 0x24 = true := by decide
theorem test_nop_writes_back : gives (start 0x20 [(1, 11)] [] 0x00000013) 0 0 = true := by decide
theorem test_sentinel : (after { start 0x20 [(1, 11)] [] 0 with
    callStack := [⟨2, none⟩, ⟨1, some 0⟩], wb := some 3 } fun t =>
      t.lastStatus == some .ended && t.pc == 0x20 && t.readReg 1 == 11 && t.runState == .halted &&
        t.callStack == [] && t.wb == some 3) = true := by decide

/-! Sections 2.9 and 2.10: multiply, divide, remainder. -/

theorem test_mul :
    gives (start 0 [(1, 0x123456789ABCDEF0), (2, 0xFEDCBA9876543210)] [] 0x022081B3) 3 0x236D88FE5618CF00 = true := by decide
theorem test_mulh :
    gives (start 0 [(1, 0x123456789ABCDEF0), (2, 0xFEDCBA9876543210)] [] 0x022091B3) 3 0xFFEB49923CC09532 = true := by decide
theorem test_mulhsu :
    gives (start 0 [(1, 0x123456789ABCDEF0), (2, 0xFEDCBA9876543210)] [] 0x0220A1B3) 3 0x121FA00AD77D7422 = true := by decide
theorem test_mulhu :
    gives (start 0 [(1, 0x123456789ABCDEF0), (2, 0xFEDCBA9876543210)] [] 0x0220B1B3) 3 0x121FA00AD77D7422 = true := by decide
theorem test_mulh_negative :
    gives (start 0 [(1, 0xFFFFFFFFFFFFFFF9), (2, 0xFFFFFFFFFFFFFFFD)] [] 0x022091B3) 3 0 = true := by decide
theorem test_mulhsu_negative :
    gives (start 0 [(1, 0xFFFFFFFFFFFFFFF9), (2, 0xFFFFFFFFFFFFFFFD)] [] 0x0220A1B3) 3 0xFFFFFFFFFFFFFFF9 = true := by decide
theorem test_mulhu_negative :
    gives (start 0 [(1, 0xFFFFFFFFFFFFFFF9), (2, 0xFFFFFFFFFFFFFFFD)] [] 0x0220B1B3) 3 0xFFFFFFFFFFFFFFF6 = true := by decide
theorem test_div_rounds_to_zero :
    gives (start 0 [(1, 0xFFFFFFFFFFFFFFF9), (2, 2)] [] 0x0220C1B3) 3 0xFFFFFFFFFFFFFFFD = true := by decide
theorem test_div_overflow :
    gives (start 0 [(1, 0x8000000000000000), (2, 0xFFFFFFFFFFFFFFFF)] [] 0x0220C1B3) 3 0x8000000000000000 = true := by decide
theorem test_divu :
    gives (start 0 [(1, 0xFFFFFFFFFFFFFFF9), (2, 2)] [] 0x0220D1B3) 3 0x7FFFFFFFFFFFFFFC = true := by decide
theorem test_divu_by_zero :
    gives (start 0 [(1, 7), (2, 0)] [] 0x0220D1B3) 3 0 = true := by decide
theorem test_rem_sign_of_dividend :
    gives (start 0 [(1, 0xFFFFFFFFFFFFFFF9), (2, 2)] [] 0x0220E1B3) 3 0xFFFFFFFFFFFFFFFF = true := by decide
theorem test_rem_overflow :
    gives (start 0 [(1, 0x8000000000000000), (2, 0xFFFFFFFFFFFFFFFF)] [] 0x0220E1B3) 3 0 = true := by decide
theorem test_remu :
    gives (start 0 [(1, 0xFFFFFFFFFFFFFFF9), (2, 2)] [] 0x0220F1B3) 3 1 = true := by decide
theorem test_remu_by_zero :
    gives (start 0 [(1, 7), (2, 0)] [] 0x0220F1B3) 3 0 = true := by decide
/-- P9 of the source, section 1.5. -/
theorem test_div_by_zero :
    gives (start 0 [(1, 7), (2, 0), (3, 0x1234)] [] 0x0220C1B3) 3 0 = true := by decide

/-! Sections 2.11 and 2.12: faults, the look-ahead, breakpoints. -/

theorem test_pc_data : faults { start 0 [] [] 0 with pc := 0x10000 } .pcData = true := by decide
/-- SV2: the word at the new `pc` is ebreak. -/
theorem test_halts_before_ebreak : (after { start 0 [] [] 0x00500093 with
    memSys := { (start 0 [] [] 0x00500093).memSys with
      store := Memory.writeBlock 64 [] 0 [0x93, 0x00, 0x50, 0x00, 0x73, 0x00, 0x10, 0x00] } } fun t =>
      t.lastStatus == some .halted && t.runState == .halted && t.pc == 4 && t.readReg 1 == 5) = true := by
  decide
/-- SV3: a breakpoint on the current instruction does not stop it; one on the next does. -/
theorem test_breakpoint : (after { start 0 [] [] 0x00108093 with breakpoints := [0, 2] } fun t =>
      t.lastStatus == some .normal && t.readReg 1 == 1) = true ∧
    (after { start 4 [] [] 0x00108093 with breakpoints := [0, 2] } fun t =>
      t.lastStatus == some .halted && t.pc == 8) = true := by decide
theorem test_breakpoint_set :
    insertIndex 5 (insertIndex 9 (insertIndex 5 [2])) = [2, 5, 9] ∧ removeIndex 5 [2, 5, 9] = [2, 9] := by
  decide
/-- D45: the look-ahead beyond the end of memory finds no word. -/
theorem test_peek_beyond_end :
    ({ start 0 [] [] 0 with params := ⟨16, 16, false, false⟩ } : State).peek32 0x14 = none := by decide

/-! Section 3.3: lines, labels, push, pop and refresh. -/

theorem test_labels : dedupLabels [⟨"main", 0⟩, ⟨"start", 0⟩, ⟨"double", 4⟩] = [⟨"main", 0⟩, ⟨"double", 4⟩] ∧
    ownerOf [⟨"main", 0⟩, ⟨"double", 4⟩] 2 = some 0 ∧ ownerOf [⟨"main", 0⟩, ⟨"double", 4⟩] 5 = some 1 ∧
    ownerOf [⟨"double", 4⟩] 3 = none := by decide
/-- Step 2 of the program: the pushed frame names the return line and its owner. -/
theorem test_push : (after { start 4 [] [] 0x00C000EF with labels := [⟨"main", 0⟩, ⟨"double", 4⟩] } fun t =>
    t.callStack == [⟨2, some 0⟩] && t.pc == 0x10 && t.readReg 1 == 8) = true := by decide
/-- Step 3: the top frame's line is refreshed to the executing line and keeps its owner. -/
theorem test_refresh : (after { start 0x10 [(10, 5)] [] 0x00A50533 with callStack := [⟨2, some 0⟩] } fun t =>
    t.callStack == [⟨4, some 0⟩] && t.readReg 10 == 10) = true := by decide

/-! Section 2.13: the cache. -/

def request (size block assoc : Nat) (r : Replacement) (w : WritePolicy) (alloc : Bool) : CacheRequest :=
  { size := size, blockSize := block, associativity := assoc, replacement := r, writePolicy := w
    writeAllocate := alloc, traceEnable := true }

/-- CV6: the number of lines and the masks, or ConfigError. -/
def geometry (size block assoc : Nat) : Option (Nat × Word × Word) :=
  (request size block assoc .fifo .writeBack true).config.map fun g => (g.nLines, g.offsetMask, g.indexMask)

theorem test_config_valid : geometry 64 16 1 = some (4, 0xF, 0x30) ∧ geometry 64 16 2 = some (2, 0xF, 0x10) ∧
    geometry 64 16 4 = some (1, 0xF, 0) ∧ geometry 16 16 1 = some (1, 0xF, 0) ∧
    geometry 1024 64 4 = some (4, 0x3F, 0xC0) ∧ geometry 64 1 1 = some (64, 0, 0x3F) ∧
    geometry 1 1 1 = some (1, 0, 0) := by decide
theorem test_config_error : geometry 64 16 8 = none ∧ geometry 64 16 3 = none ∧ geometry 48 16 1 = none ∧
    geometry 64 24 1 = none ∧ geometry 0 16 1 = none ∧ geometry 64 0 1 = none ∧ geometry 8 16 1 = none ∧
    geometry 64 16 0 = none := by decide

/-- CV7. -/
def parts (block nLines : Nat) (a : Word) : Nat × Nat × Word :=
  let g : CacheConfig := ⟨block, nLines, 1, .fifo, .writeBack, true⟩
  (g.offset a, g.index a, g.tag a)

theorem test_decomposition : parts 64 4 0x12345 = (5, 1, 0x12300) ∧ parts 64 4 0x100FF = (0x3F, 3, 0x10000) ∧
    parts 64 4 0x4FFFF = (0x3F, 3, 0x4FF00) ∧ parts 16 4 0x12345 = (5, 0, 0x12340) ∧
    parts 16 4 0x10040 = (0, 0, 0x10040) := by decide

/-- The memory of CV1 to CV4, as far as they touch it, behind a fresh cache. -/
def cached (r : CacheRequest) : MemSystem :=
  (MemSystem.enable 0x50000
    { store := Memory.writeBlock 0x50000 [] 0x10000 ((List.range 0x50).map (BitVec.ofNat 8))
      cache := none, draws := 0, trace := [] } r).2

def readAt (a : Word) (x : MemSystem) : MemSystem := (x.byteRead 0x50000 a).2
def writeAt (a : Word) (b : Byte) (x : MemSystem) : MemSystem := x.byteWrite 0x50000 a b

/-- Access, hit, miss and write-back counts, `hit_rate` and the dump. -/
def figures (x : MemSystem) : Option (List Nat × Rat × List String) :=
  x.cache.map fun c => ([c.stats.accessCount.toNat, c.stats.hitCount.toNat, c.stats.missCount.toNat,
    c.stats.writebacks.toNat], c.stats.hitRate, c.dump)

/-- CV1 up to access 5. -/
def cv1 : MemSystem := readAt 0x10040 (readAt 0x10004 (writeAt 0x10004 0xEE
  (readAt 0x10001 (readAt 0x10000 (cached (request 64 16 1 .lru .writeBack true))))))

theorem test_cv1_trace : cv1.trace =
    [⟨.read, 0x10000, 0, false, 0x10000, false⟩, ⟨.read, 0x10001, 0, true, 0x10000, false⟩,
     ⟨.write, 0x10004, 0, true, 0x10000, true⟩, ⟨.read, 0x10004, 0, true, 0x10000, true⟩,
     ⟨.read, 0x10040, 0, false, 0x10040, false⟩] := by decide
/-- The text of R104, in lower-case hex: access 3 of CV1, and a clean miss. -/
theorem test_trace_text :
    TraceRecord.text ⟨.write, 0x10004, 0, true, 0x10000, true⟩ =
      "W: Address: 0x10004, Set: 0x0, Hit, Tag: 0x10000, Dirty" := by decide
theorem test_trace_text_clean :
    TraceRecord.text ⟨.read, 0xC, 0, false, 0, false⟩ =
      "R: Address: 0xc, Set: 0x0, Miss, Tag: 0x0, Clean" := by decide
theorem test_cv1_figures : figures cv1 = some ([5, 3, 2, 1], mkRat 3 5,
    ["Set: 0x0, Tag: 0x10040, Clean"]) ∧ cv1.store.read 0x10004 = 0xEE := by decide
/-- P3: an invalidate flushes the dirty byte, counts it and leaves no line. -/
theorem test_cv1_invalidate :
    figures ((writeAt 0x10011 0x77 cv1).invalidate 0x50000) = some ([6, 3, 3, 2], mkRat 3 6, []) := by decide
theorem test_cv1_flushed :
    ((writeAt 0x10004 0xEE (cached (request 64 16 1 .lru .writeBack true))).invalidate 0x50000).store.read
      0x10004 = 0xEE := by decide

/-- CV2: A B A C A B. -/
def cv2 (r : Replacement) : MemSystem :=
  [0x10000, 0x10020, 0x10000, 0x10040, 0x10000, 0x10020].foldl (fun x a => readAt a x)
    (cached (request 64 16 2 r .writeBack true))

theorem test_cv2_fifo : figures (cv2 .fifo) = some ([6, 1, 5, 0], mkRat 1 6,
    ["Set: 0x0, Tag: 0x10020, Clean", "Set: 0x0, Tag: 0x10000, Clean"]) := by decide
theorem test_cv2_lru : figures (cv2 .lru) = some ([6, 2, 4, 0], mkRat 2 6,
    ["Set: 0x0, Tag: 0x10000, Clean", "Set: 0x0, Tag: 0x10020, Clean"]) := by decide

/-- CV4: the first write, the read, the second write. -/
def cv4 (w : WritePolicy) (alloc : Bool) : MemSystem × Byte × MemSystem :=
  let x := writeAt 0x10008 0xAB (cached (request 64 16 1 .fifo w alloc))
  (x, (x.byteRead 0x50000 0x10008).1, writeAt 0x10008 0xCD (readAt 0x10008 x))

/-- The byte of `M` after the first write and after the second, the value read, the figures. -/
def cv4Is (w : WritePolicy) (alloc : Bool) (m1 m2 : Byte) (counts : List Nat) (rate : Rat) (line : String) : Bool :=
  let r := cv4 w alloc
  r.1.store.read 0x10008 == m1 && r.2.1 == 0xAB && r.2.2.store.read 0x10008 == m2 &&
    figures r.2.2 == some (counts, rate, [line])

theorem test_cv4_write_through_allocate : cv4Is .writeThrough true 0xAB 0xCD [3, 2, 1, 2] (mkRat 2 3)
    "Set: 0x0, Tag: 0x10000, Clean" = true := by decide
theorem test_cv4_write_through_bypass : cv4Is .writeThrough false 0xAB 0xCD [3, 1, 2, 2] (mkRat 1 3)
    "Set: 0x0, Tag: 0x10000, Clean" = true := by decide
theorem test_cv4_write_back_allocate : cv4Is .writeBack true 0x08 0x08 [3, 2, 1, 0] (mkRat 2 3)
    "Set: 0x0, Tag: 0x10000, Dirty" = true := by decide
theorem test_cv4_write_back_bypass : cv4Is .writeBack false 0xAB 0xAB [3, 1, 2, 0] (mkRat 1 3)
    "Set: 0x0, Tag: 0x10000, Dirty" = true := by decide

/-- CV3: under RANDOM the first two fills take the invalid ways and draw nothing; the third draws. -/
theorem test_cv3_draws :
    let x := readAt 0x10020 (readAt 0x10000 (cached (request 64 16 2 .random .writeBack true)))
    x.draws = 0 ∧ (readAt 0x10040 x).draws = 1 := by decide

/-! Section 2.14: resets and load. -/

/-- A machine of four words of code and a few bytes of data, with an image `addi x1,x0,5` and one data byte. -/
def loaded : Option State :=
  State.load (State.powerOn ⟨32, 16, false, false⟩) ⟨[0x00500093#32], [0xA0]⟩ none none

theorem test_load : (loaded.map fun s => bytesAt s 0 4 ++ bytesAt s 16 2) =
    some [0x93, 0x00, 0x50, 0x00, 0xA0, 0x00] := by decide
theorem test_load_refused :
    State.load (State.powerOn ⟨32, 16, false, false⟩) ⟨List.replicate 5 0x13#32, []⟩ none none = none ∧
    State.load (State.powerOn ⟨32, 16, false, false⟩) ⟨[], List.replicate 17 1⟩ none none = none := by decide
theorem test_resets : (match loaded with
    | none => false
    | some s =>
      let t := { s.bpSet 3 with
        pc := 8, runState := .faulted, faultCause := some .oob, callStack := [⟨1, none⟩] }
      t.hardReset.breakpoints == [] && t.softReset.breakpoints == [3] && t.hardReset.pc == (0 : Word) &&
        t.softReset.pc == (0 : Word) && t.hardReset.runState == .running && t.softReset.faultCause == none &&
        t.softReset.callStack == [] && bytesAt t.softReset 16 2 == [0xA0, 0x00]) = true := by decide
/-- A stopped poll is asked before any step (R311, D34). -/
theorem test_run_poll_stop : (match runLoop [.stop] State.reset with
    | .next (t, st) => t == State.reset && st == some .normal
    | .fault _ => false
    | .refused _ => false) = true := by decide

/-! ## Witnesses: for every statement with hypotheses, a state and operands that meet them

A statement whose hypotheses are the masks of its encodings has the word with every operand bit set. -/

theorem witness_RegisterArithmetic :
    0x01FF8FB3#32 &&& 0xFE00707F#32 = 0x00000033#32 ∧ 0x41FF8FB3#32 &&& 0xFE00707F#32 = 0x40000033#32 ∧
    0x01FFAFB3#32 &&& 0xFE00707F#32 = 0x00002033#32 ∧ 0x01FFBFB3#32 &&& 0xFE00707F#32 = 0x00003033#32 := by decide
theorem witness_RegisterLogic :
    0x01FFCFB3#32 &&& 0xFE00707F#32 = 0x00004033#32 ∧ 0x01FFEFB3#32 &&& 0xFE00707F#32 = 0x00006033#32 ∧
    0x01FFFFB3#32 &&& 0xFE00707F#32 = 0x00007033#32 := by decide
theorem witness_RegisterShifts :
    0x01FF9FB3#32 &&& 0xFE00707F#32 = 0x00001033#32 ∧ 0x01FFDFB3#32 &&& 0xFE00707F#32 = 0x00005033#32 ∧
    0x41FFDFB3#32 &&& 0xFE00707F#32 = 0x40005033#32 := by decide
theorem witness_ImmediateOperations :
    0xFFFF8F93#32 &&& 0x0000707F#32 = 0x00000013#32 ∧ 0xFFFFAF93#32 &&& 0x0000707F#32 = 0x00002013#32 ∧
    0xFFFFCF93#32 &&& 0x0000707F#32 = 0x00004013#32 ∧ 0xFFFFEF93#32 &&& 0x0000707F#32 = 0x00006013#32 ∧
    0xFFFFFF93#32 &&& 0x0000707F#32 = 0x00007013#32 := by decide
theorem witness_UnsignedImmediateCompare :
    0xFFFFBF93#32 &&& 0x0000707F#32 = 0x00003013#32 := by decide
theorem witness_ImmediateShifts :
    0x03FF9F93#32 &&& 0xFC00707F#32 = 0x00001013#32 ∧ 0x03FFDF93#32 &&& 0xFC00707F#32 = 0x00005013#32 ∧
    0x43FFDF93#32 &&& 0xFC00707F#32 = 0x40005013#32 := by decide
theorem witness_BranchInstructions :
    0xFFFF8FE3#32 &&& 0x0000707F#32 = 0x00000063#32 ∧ 0xFFFF9FE3#32 &&& 0x0000707F#32 = 0x00001063#32 ∧
    0xFFFFCFE3#32 &&& 0x0000707F#32 = 0x00004063#32 ∧ 0xFFFFDFE3#32 &&& 0x0000707F#32 = 0x00005063#32 ∧
    0xFFFFEFE3#32 &&& 0x0000707F#32 = 0x00006063#32 ∧ 0xFFFFFFE3#32 &&& 0x0000707F#32 = 0x00007063#32 := by decide
theorem witness_JalEffect :
    0xFFFFFFEF#32 &&& 0x0000007F#32 = 0x0000006F#32 := by decide
theorem witness_JalrEffect :
    0xFFFF8FE7#32 &&& 0x0000707F#32 = 0x00000067#32 := by decide
theorem witness_UpperImmediates :
    0xFFFFFFB7#32 &&& 0x0000007F#32 = 0x00000037#32 ∧ 0xFFFFFF97#32 &&& 0x0000007F#32 = 0x00000017#32 := by decide
theorem witness_Multiplication :
    0x03FF8FB3#32 &&& 0xFE00707F#32 = 0x02000033#32 ∧ 0x03FF9FB3#32 &&& 0xFE00707F#32 = 0x02001033#32 ∧
    0x03FFBFB3#32 &&& 0xFE00707F#32 = 0x02003033#32 := by decide
theorem witness_MixedMultiplyHigh :
    0x03FFAFB3#32 &&& 0xFE00707F#32 = 0x02002033#32 := by decide
theorem witness_DivisionAndRemainder :
    0x03FFCFB3#32 &&& 0xFE00707F#32 = 0x02004033#32 ∧ 0x03FFDFB3#32 &&& 0xFE00707F#32 = 0x02005033#32 ∧
    0x03FFEFB3#32 &&& 0xFE00707F#32 = 0x02006033#32 ∧ 0x03FFFFB3#32 &&& 0xFE00707F#32 = 0x02007033#32 := by decide

theorem witness_ImmediateAssembly : 0 < 64 ∧ 63 < 64 := by decide

/-- Registers with an address at each edge of a memory of 64 bytes whose data region begins at 32. -/
def edges : Vector Word 32 :=
  (((((Vector.replicate 32 (0 : Word)).set 1 60).set 2 32).set 3 31).set 4 63).set 5 0xFFFFFFFFFFFFFFFC

theorem edges_zero : edges[0] = 0 := by decide

/-- A small machine. `geometry` gives it a fresh cache. -/
def small (p : Params) (pc : Word) (store : Memory) (geometry : Option CacheConfig) : State :=
  { State.powerOn p with
    regs := edges
    pc := pc
    memSys := { store := store, cache := geometry.map fun g => Cache.new g true, draws := 0, trace := [] } }

/-- What makes a small machine meet the invariant. -/
def smallOk (p : Params) (pc : Word) (store : Memory) (geometry : Option CacheConfig) : Bool :=
  decide (0 < p.memorySize ∧ p.memorySize < 2 ^ 64 ∧ p.dataBase % 4 = 0 ∧ 4 ≤ p.dataBase ∧
    p.dataBase ≤ p.memorySize) && store.wf && store.within p.memorySize && pc.toNat % 2 == 0 &&
  geometry.all fun g => isPow2 g.blockSize && isPow2 g.nLines && isPow2 g.associativity

theorem small_inv {p : Params} {pc : Word} {store : Memory} {geometry : Option CacheConfig}
    (h : smallOk p pc store geometry = true) : (small p pc store geometry).Inv := by
  simp only [smallOk, Bool.and_eq_true, decide_eq_true_eq, beq_iff_eq] at h
  obtain ⟨⟨⟨⟨hp, hwf⟩, hin⟩, hpc⟩, hg⟩ := h
  refine ⟨hp, ⟨hwf, hin, ?_, ?_⟩, edges_zero, hpc, ?_, rfl, List.Pairwise.nil, List.Pairwise.nil, ?_⟩
  · intro c hc
    cases geometry with
    | none => cases hc
    | some g =>
      cases hc
      simp only [Option.all_some, Bool.and_eq_true] at hg
      exact Cache.new_coherent hg.1.1 hg.1.2 hg.2 _ _
  · intro c hc
    cases geometry with
    | none => cases hc
    | some g =>
      cases hc
      exact Cache.new_statsOk _ _
  · exact ⟨fun h => absurd h Bool.false_ne_true, fun h => nomatch h⟩
  · show (decide (4 * 0 ≤ p.dataBase) && decide (p.dataBase + 0 ≤ p.memorySize)) = true
    simpa using hp.2.2.2.2

/-- What `after` says of a step. -/
theorem after_spec {s : State} {p : State → Bool} (h : after s p = true) : ∃ t, step s = .next t ∧ p t = true := by
  unfold after at h
  cases hs : step s with
  | next t => exact ⟨t, rfl, by rwa [hs] at h⟩
  | fault c => rw [hs] at h; cases h
  | refused q => rw [hs] at h; cases h

def plain : Params := ⟨64, 32, false, false⟩
def writable : Params := ⟨64, 32, true, false⟩
def strict : Params := ⟨64, 32, false, true⟩
/-- The two bounds equal and the smallest: a word at 6 is not backed. -/
def tight : Params := ⟨8, 8, false, false⟩
def lruBack : CacheConfig := ⟨4, 2, 2, .lru, .writeBack, true⟩

/-- A memory of 64 bytes with one word. -/
def code (w : InstrWord) (a : Nat) : Memory := Memory.writeBlock 64 [] a (bytesOfWord w)
/-- `addi x1,x0,5`. -/
def addiWord : InstrWord := 0x00500093#32
/-- `sd x2,0(x2)`. -/
def sdWord : InstrWord := 0x00213023#32

/-! Loads, stores and accesses: the last byte of memory, and one byte more. -/

theorem witness_SignedLoads :
    0xFFFF8F83#32 &&& 0x0000707F#32 = 0x00000003#32 ∧ 0xFFFF9F83#32 &&& 0x0000707F#32 = 0x00001003#32 ∧
    0xFFFFAF83#32 &&& 0x0000707F#32 = 0x00002003#32 ∧
    smallOk plain 0 [] (some lruBack) = true ∧
    (addressOf (small plain 0 [] (some lruBack)) 4 0).toNat + 1 = 64 ∧
    (addressOf (small plain 0 [] (some lruBack)) 4 1).toNat + 1 = 65 ∧
    (addressOf (small plain 0 [] (some lruBack)) 1 2).toNat + 2 = 64 ∧
    (addressOf (small plain 0 [] (some lruBack)) 1 3).toNat + 2 = 65 ∧
    (addressOf (small plain 0 [] (some lruBack)) 1 0).toNat + 4 = 64 ∧
    (addressOf (small plain 0 [] (some lruBack)) 1 1).toNat + 4 = 65 := by decide
theorem witness_SignedLoads_inv : (small plain 0 [] (some lruBack)).Inv := small_inv (by decide)
theorem witness_UnsignedLoads :
    0xFFFFBF83#32 &&& 0x0000707F#32 = 0x00003003#32 ∧ 0xFFFFCF83#32 &&& 0x0000707F#32 = 0x00004003#32 ∧
    0xFFFFDF83#32 &&& 0x0000707F#32 = 0x00005003#32 ∧ 0xFFFFEF83#32 &&& 0x0000707F#32 = 0x00006003#32 ∧
    smallOk plain 0 [] none = true ∧
    (addressOf (small plain 0 [] none) 1 0xFFC#12).toNat + 8 = 64 ∧
    (addressOf (small plain 0 [] none) 1 0xFFD#12).toNat + 8 = 65 ∧
    (addressOf (small plain 0 [] none) 4 0).toNat + 1 = 64 ∧
    (addressOf (small plain 0 [] none) 4 1).toNat + 1 = 65 ∧
    (addressOf (small plain 0 [] none) 1 2).toNat + 2 = 64 ∧
    (addressOf (small plain 0 [] none) 1 3).toNat + 2 = 65 ∧
    (addressOf (small plain 0 [] none) 1 0).toNat + 4 = 64 ∧
    (addressOf (small plain 0 [] none) 1 1).toNat + 4 = 65 ∧
    64 < (addressOf (small plain 0 [] none) 5 0).toNat + 8 := by decide
theorem witness_UnsignedLoads_inv : (small plain 0 [] none).Inv := small_inv (by decide)
/-- In bounds at `DATA_BASE` and at the end; below `DATA_BASE` with and without `SMC_ENABLE`; beyond. -/
theorem witness_StoreInstructions :
    0xFFFF8FA3#32 &&& 0x0000707F#32 = 0x00000023#32 ∧ 0xFFFF9FA3#32 &&& 0x0000707F#32 = 0x00001023#32 ∧
    0xFFFFAFA3#32 &&& 0x0000707F#32 = 0x00002023#32 ∧ 0xFFFFBFA3#32 &&& 0x0000707F#32 = 0x00003023#32 ∧
    smallOk plain 0 [] (some lruBack) = true ∧ smallOk writable 0 [] none = true ∧
    (addressOf (small plain 0 [] (some lruBack)) 2 0).toNat = plain.dataBase ∧
    (addressOf (small plain 0 [] (some lruBack)) 2 24).toNat + 8 = 64 ∧
    (addressOf (small plain 0 [] (some lruBack)) 2 25).toNat + 8 = 65 ∧
    (addressOf (small plain 0 [] (some lruBack)) 3 0).toNat + 1 = plain.dataBase ∧
    (addressOf (small writable 0 [] none) 0 0).toNat = 0 ∧ writable.smcEnable = true := by decide
theorem witness_StoreInstructions_inv :
    (small plain 0 [] (some lruBack)).Inv ∧ (small writable 0 [] none).Inv :=
  ⟨small_inv (by decide), small_inv (by decide)⟩
theorem witness_AddressAndByteOrder : (small plain 0 [] (some lruBack)).Inv ∧ (small plain 0 [] none).Inv ∧
    8 ≤ 8 ∧ (56 : Word).toNat + 8 = (small plain 0 [] none).params.memorySize ∧
    (60 : Word).toNat + 4 = (small plain 0 [] none).params.memorySize ∧
    (64 : Word).toNat + 0 ≤ (small plain 0 [] none).params.memorySize :=
  ⟨small_inv (by decide), small_inv (by decide), by decide, by decide, by decide, by decide⟩
theorem witness_StoreThenLoad : (small plain 0 [] (some lruBack)).Inv ∧ 8 ≤ 8 ∧
    (∃ t, (small plain 0 [] (some lruBack)).memWrite 56 8 0x1122334455667788 = .ok t) ∧
    ∃ t, (small writable 0 [] none).memWrite 0 1 0x88 = .ok t :=
  ⟨small_inv (by decide), by decide, ⟨_, rfl⟩, ⟨_, rfl⟩⟩

/-! Control transfer and the system words. -/

/-- The callee may be nothing at all. -/
theorem witness_CallAndReturn : (small plain 0 [] none).Inv ∧
    ∃ t u : State, exec (.jal 1 8) (small plain 0 [] none) = .next t ∧ u.readReg 1 = t.readReg 1 ∧
      u.callStack.length = t.callStack.length :=
  ⟨small_inv (by decide), _, _, rfl, rfl, rfl⟩
/-- A third word of the SYSTEM opcode, and a machine it runs on. -/
theorem witness_SystemWords : opcodeNat 0x30200073#32 = 0x73 ∧ 0x30200073#32 ≠ 0x00000073#32 ∧
    0x30200073#32 ≠ 0x00100073#32 ∧ (small plain 0 [] none).params.strictDecode = false ∧
    (small plain 0 [] none).runState ≠ .faulted := by decide
/-- The last word of the code region, and a cached fetch. -/
theorem witness_SentinelStop :
    (small plain 28 [] none).Inv ∧ (small plain 28 [] (some lruBack)).Inv ∧
    (small plain 28 [] none).runState ≠ .faulted ∧ (28 : Word).toNat < plain.dataBase ∧
    (28 : Word).toNat + 4 ≤ plain.memorySize ∧ wordAt (small plain 28 [] none) 28 = 0 ∧
    wordAt (small plain 28 [] (some lruBack)) 28 = 0 :=
  ⟨small_inv (by decide), small_inv (by decide), by decide, by decide, by decide, by decide, by decide⟩

/-- The word a fetch answers, if it answers one. -/
def fetched (s : State) : Option InstrWord :=
  match s.fetch with
  | .ok (w, _) => some w
  | .error _ => none

theorem fetched_spec {s : State} {w : InstrWord} (h : fetched s = some w) : ∃ u, s.fetch = .ok (w, u) := by
  unfold fetched at h
  cases hf : s.fetch with
  | ok x => rw [hf] at h; cases h; exact ⟨x.2, rfl⟩
  | error c => rw [hf] at h; cases h

theorem witness_UnhandledWordIsNop :
    (∃ u, (small plain 28 (code 0xFFFFFFFF#32 28) none).fetch = .ok (0xFFFFFFFF#32, u)) ∧
    (∃ u, (small strict 28 (code 0x04000033#32 28) (some lruBack)).fetch = .ok (0x04000033#32, u)) ∧
    (small plain 28 (code 0xFFFFFFFF#32 28) none).runState ≠ .faulted ∧ (28 : Word).toNat < plain.dataBase ∧
    decodeWord 0xFFFFFFFF#32 = .error (.unhandledOpcode 0xFFFFFFFF#32) ∧
    decodeWord 0x04000033#32 = .error (.unhandledFunct 0x04000033#32) ∧
    plain.strictDecode = false ∧ strict.strictDecode = true :=
  ⟨fetched_spec (by decide), fetched_spec (by decide), by decide, by decide, by decide, by decide, by decide,
    by decide⟩
/-- The keys next to each row, and a state for the no-op. -/
theorem witness_UnhandledKeys :
    (opcodeNat 0x04000033#32 = 0x33 ∧ funct7Nat 0x04000033#32 = 2 ∧ funct3Nat 0x04000033#32 = 0) ∧
    (opcodeNat 0x40001033#32 = 0x33 ∧ funct7Nat 0x40001033#32 = 0x20 ∧ funct3Nat 0x40001033#32 = 1) ∧
    (opcodeNat 0x04001013#32 = 0x13 ∧ funct3Nat 0x04001013#32 = 1 ∧ funct6Nat 0x04001013#32 = 1) ∧
    (opcodeNat 0x44005013#32 = 0x13 ∧ funct3Nat 0x44005013#32 = 5 ∧ funct6Nat 0x44005013#32 = 0x11) ∧
    (opcodeNat 0x43F05013#32 = 0x13 ∧ funct3Nat 0x43F05013#32 = 5 ∧ funct6Nat 0x43F05013#32 = 0x10) ∧
    (opcodeNat 0x00007003#32 = 0x03 ∧ funct3Nat 0x00007003#32 = 7) ∧
    (opcodeNat 0x00004023#32 = 0x23 ∧ funct3Nat 0x00004023#32 = 4) ∧
    (opcodeNat 0x00002063#32 = 0x63 ∧ funct3Nat 0x00002063#32 = 2) ∧
    (opcodeNat 0x00003063#32 = 0x63 ∧ funct3Nat 0x00003063#32 = 3) ∧
    (opcodeNat 0x00001067#32 = 0x67 ∧ funct3Nat 0x00001067#32 = 1) ∧
    (small plain 0 [] none).params.strictDecode = false ∧ (small plain 0 [] none).runState ≠ .faulted := by
  decide

/-! Registers and faults. -/

theorem witness_RegisterFile : (31 : Reg) ≠ 0 ∧ (0 : Reg) ≠ 31 ∧
    (Instr.add 3 1 2).wf = true ∧ ∃ t, exec (.add 3 1 2) (small plain 0 [] none) = .next t :=
  ⟨by decide, by decide, rfl, _, rfl⟩
theorem witness_PcDataFault : (small plain 32 [] none).runState ≠ .faulted ∧
    (small plain 32 [] none).params.dataBase ≤ (small plain 32 [] none).pc.toNat ∧
    (small plain 0xFFFFFFFFFFFFFFFE [] none).params.dataBase ≤
      (small plain 0xFFFFFFFFFFFFFFFE [] none).pc.toNat := by decide

def failed (c : Fault) (t : State) : Bool := t.lastStatus == some .fault && t.faultCause == some c
def went (t : State) : Bool := t.lastStatus == some .normal

theorem after_failed {s : State} {c : Fault} (h : after s (failed c) = true) :
    ∃ t, step s = .next t ∧ t.lastStatus = some .fault := by
  obtain ⟨t, ht, hp⟩ := after_spec h
  simp only [failed, Bool.and_eq_true, beq_iff_eq] at hp
  exact ⟨t, ht, hp.1⟩
theorem after_went {s : State} (h : after s went = true) : ∃ t, step s = .next t ∧ t.lastStatus = some .normal := by
  obtain ⟨t, ht, hp⟩ := after_spec h
  exact ⟨t, ht, by simpa [went] using hp⟩

/-- `sd` of `x2` at `0(x3)` is below `DATA_BASE` and at `0(x1)` beyond the end. -/
def sdBelow : State := small plain 0 (code 0x0021B023#32 0) (some lruBack)
def sdBeyond : State := small plain 28 (code 0x0020B023#32 28) none
def goesOn : State := small plain 0 (code addiWord 0) (some lruBack)

/-- Every fault, and no fault. -/
theorem witness_FaultPriority : sdBelow.Inv ∧ sdBeyond.Inv ∧ goesOn.Inv ∧ (small plain 32 [] none).Inv ∧
    (small tight 6 [] none).Inv ∧ sdBelow.runState ≠ .faulted ∧ sdBeyond.runState ≠ .faulted ∧
    goesOn.runState ≠ .faulted ∧ (∃ t, step goesOn = .next t ∧ t.lastStatus = some .normal) ∧
    (∃ t, step sdBelow = .next t ∧ t.lastStatus = some .fault) ∧
    (∃ t, step sdBeyond = .next t ∧ t.lastStatus = some .fault) ∧
    (∃ t, step (small tight 6 [] none) = .next t ∧ t.lastStatus = some .fault) ∧
    ∃ t, step (small plain 32 [] none) = .next t ∧ t.lastStatus = some .fault :=
  ⟨small_inv (by decide), small_inv (by decide), small_inv (by decide), small_inv (by decide),
    small_inv (by decide), by decide, by decide, by decide, after_went (by decide),
    after_failed (c := .textWrite) (by decide), after_failed (c := .oob) (by decide),
    after_failed (c := .oob) (by decide), after_failed (c := .pcData) (by decide)⟩
/-- A fault of the fetch guard, of the fetch and of each store check. -/
theorem witness_FaultEntry : sdBelow.Inv ∧ sdBelow.runState ≠ .faulted ∧
    (∃ t, step sdBelow = .next t ∧ t.lastStatus = some .fault) ∧
    ¬ (sdBelow.params.dataBase ≤ sdBelow.pc.toNat) ∧
    (small tight 6 [] none).Inv ∧ (small tight 6 [] none).runState ≠ .faulted ∧
    (∃ t, step (small tight 6 [] none) = .next t ∧ t.lastStatus = some .fault) ∧
    tight.memorySize < (6 : Word).toNat + 4 :=
  ⟨small_inv (by decide), by decide, after_failed (c := .textWrite) (by decide), by decide,
    small_inv (by decide), by decide, after_failed (c := .oob) (by decide), by decide⟩

/-- A small machine that has taken a fault. -/
theorem faulted_inv {p : Params} {pc : Word} {store : Memory} {geometry : Option CacheConfig}
    (h : smallOk p pc store geometry = true) (c : Fault) : ((small p pc store geometry).takeFault c).Inv :=
  let k := small_inv h
  ⟨k.params, k.mem, k.zero, k.pc_even, ⟨fun _ => rfl, fun _ => rfl⟩, rfl, k.breakpoints, k.labels, k.image⟩

theorem witness_FaultedStepDoesNothing : ((small plain 0 [] none).takeFault .oob).Inv ∧
    ((small plain 0 [] none).takeFault .oob).runState = .faulted :=
  ⟨faulted_inv (by decide) _, rfl⟩

/-! The step. -/

theorem witness_StepRunsDecoded : goesOn.Inv ∧ goesOn.runState ≠ .faulted ∧
    goesOn.pc.toNat < goesOn.params.dataBase ∧ goesOn.pc.toNat + 4 ≤ goesOn.params.memorySize ∧
    decode [goesOn.peekByte goesOn.pc, goesOn.peekByte (goesOn.pc + 1), goesOn.peekByte (goesOn.pc + 2),
      goesOn.peekByte (goesOn.pc + 3)] = .ok (.addi 1 0 5, []) ∧
    (small plain 28 [] none).Inv ∧
    decode [0, 0, 0, 0] = .ok (.sentinel, []) :=
  ⟨small_inv (by decide), by decide, by decide, by decide, by decide, small_inv (by decide), by decide⟩

/-- `addi` before `ebreak`. -/
def haltsNext : State := small plain 0
  (Memory.writeBlock 64 (code addiWord 0) 4 (bytesOfWord 0x00100073#32)) none
/-- `addi` before a breakpoint on the word after it. -/
def breaksNext : State := { goesOn with breakpoints := [0, 1] }

theorem breaksNext_inv : breaksNext.Inv :=
  let k : goesOn.Inv := small_inv (by decide)
  ⟨k.params, k.mem, k.zero, k.pc_even, k.cause, k.status, by decide, k.labels, k.image⟩

/-- A step of each status. -/
theorem witness_StatusSetsRunState :
    (∃ t, step goesOn = .next t ∧ t.lastStatus = some .normal) ∧
    (∃ t, step (small plain 0 [] none) = .next t ∧ (t.lastStatus == some .ended) = true) ∧
    (∃ t, step haltsNext = .next t ∧ (t.lastStatus == some .halted) = true) ∧
    ∃ t, step sdBelow = .next t ∧ t.lastStatus = some .fault :=
  ⟨after_went (by decide), after_spec (p := fun t => t.lastStatus == some .ended) (by decide),
    after_spec (p := fun t => t.lastStatus == some .halted) (by decide),
    after_failed (c := .textWrite) (by decide)⟩
/-- Status 0, and status 2 for each of the two reasons. -/
theorem witness_LookAheadHalts : goesOn.Inv ∧ haltsNext.Inv ∧ breaksNext.Inv ∧
    (∃ t, step goesOn = .next t ∧ t.lastStatus = some .normal) ∧
    (∃ t, step haltsNext = .next t ∧ (t.lastStatus == some .halted && wordAt t t.pc == 0x00100073#32) = true) ∧
    ∃ t, step breaksNext = .next t ∧ (t.lastStatus == some .halted && t.pc == 4) = true :=
  ⟨small_inv (by decide), small_inv (by decide), breaksNext_inv, after_went (by decide),
    after_spec (p := fun t => t.lastStatus == some .halted && wordAt t t.pc == 0x00100073#32) (by decide),
    after_spec (p := fun t => t.lastStatus == some .halted && t.pc == 4) (by decide)⟩
theorem witness_BreakpointCommands : breaksNext.breakpoints.Pairwise (· < ·) ∧
    (∃ t, step breaksNext = .next t ∧ (t.lastStatus == some .halted && t.pc.toNat == 4 * 1) = true) ∧
    1 ∈ breaksNext.breakpoints :=
  ⟨by decide, after_spec (p := fun t => t.lastStatus == some .halted && t.pc.toNat == 4 * 1) (by decide),
    by decide⟩
/-- The refusal that totality leaves. -/
theorem witness_StepIsTotal :
    (match step (small strict 0 (code 0xFFFFFFFF#32 0) none) with
      | .next _ => false
      | .fault _ => false
      | .refused q => q == .unhandledWord 0xFFFFFFFF#32) = true := by decide
/-- Status 0 with a register written, status 1 and status 3. -/
theorem witness_OneRegisterWrite : (∃ t, step goesOn = .next t ∧ (went t && t.wb == some 1) = true) ∧
    (∃ t, step (small plain 0 [] none) = .next t ∧ (t.lastStatus == some .ended) = true) ∧
    ∃ t, step sdBelow = .next t ∧ t.lastStatus = some .fault :=
  ⟨after_spec (p := fun t => went t && t.wb == some 1) (by decide),
    after_spec (p := fun t => t.lastStatus == some .ended) (by decide),
    after_failed (c := .textWrite) (by decide)⟩
theorem witness_OnlyStoresChangeMemory : goesOn.Inv ∧ sdBelow.Inv ∧
    (∃ t, step goesOn = .next t ∧ t.lastStatus = some .normal) ∧
    decodeWord (wordAt goesOn goesOn.pc) = .ok (.addi 1 0 5) ∧ isStore (.addi 1 0 5) = false ∧
    decodeWord (wordAt sdBelow sdBelow.pc) = .ok (.sd 3 0 2) ∧
    ∃ t, step sdBelow = .next t ∧ t.lastStatus = some .fault :=
  ⟨small_inv (by decide), small_inv (by decide), after_went (by decide), by decide, rfl, by decide,
    after_failed (c := .textWrite) (by decide)⟩
/-- A store into the data region that completes, at the word before it. -/
theorem witness_CodeRegionFixed : (small plain 0 (code sdWord 0) (some lruBack)).Inv ∧
    (small plain 0 (code sdWord 0) (some lruBack)).params.smcEnable = false ∧
    (∃ t, step (small plain 0 (code sdWord 0) (some lruBack)) = .next t ∧
      (went t && t.peekByte 32 == 32) = true) ∧
    (31 : Word).toNat < plain.dataBase ∧ (28 : Word).toNat + 4 ≤ plain.dataBase :=
  ⟨small_inv (by decide), by decide, after_spec (p := fun t => went t && t.peekByte 32 == 32) (by decide),
    by decide, by decide⟩

/-- With a fresh cache and without one, a small machine shows the same bytes. -/
theorem small_same (p : Params) (pc : Word) (store : Memory) (g : CacheConfig) :
    SameButCache (small p pc store (some g)) (small p pc store none) :=
  ⟨⟨rfl, rfl, rfl, rfl⟩, rfl, rfl, rfl, rfl, rfl, rfl, rfl, rfl, rfl, fun a _ =>
    (Cache.peek_of_invalid (fun _ _ h => (Cache.mem_ways_new h).symm ▸ rfl) store a).symm⟩

/-- A step that goes on, and one that is refused. -/
theorem witness_CacheIsTransparent :
    goesOn.Inv ∧ (small plain 0 (code addiWord 0) none).Inv ∧
    SameButCache goesOn (small plain 0 (code addiWord 0) none) ∧
    (∃ t, step goesOn = .next t ∧ t.lastStatus = some .normal) ∧
    (small strict 0 (code 0xFFFFFFFF#32 0) (some lruBack)).Inv ∧
    (small strict 0 (code 0xFFFFFFFF#32 0) none).Inv ∧
    SameButCache (small strict 0 (code 0xFFFFFFFF#32 0) (some lruBack))
      (small strict 0 (code 0xFFFFFFFF#32 0) none) ∧
    (match step (small strict 0 (code 0xFFFFFFFF#32 0) (some lruBack)) with
      | .next _ => false
      | .fault _ => false
      | .refused q => q == .unhandledWord 0xFFFFFFFF#32) = true :=
  ⟨small_inv (by decide), small_inv (by decide), small_same _ _ _ _, after_went (by decide),
    small_inv (by decide), small_inv (by decide), small_same _ _ _ _, by decide⟩

/-! Encoding. -/

theorem witness_DecodeOfEncode : (Instr.bgeu 31 31 0x1FFE#13).wf = true ∧ (Instr.jal 31 0x1FFFFE#21).wf = true ∧
    (Instr.sd 31 0xFFF#12 31).wf = true ∧ (Instr.srai 31 31 63#6).wf = true := by decide
theorem witness_EncodeOfDecode : decodeWord 0xFFFFF06F#32 = .ok (.jal 0 0x1FFFFE#21) ∧
    decodeWord 0xFFFFFFE3#32 = .ok (.bgeu 31 31 0x1FFE#13) := by decide
theorem witness_TableDispatch : (Instr.bgeu 31 31 0x1FFE#13).row ∈ opcodeTable ∧
    0xFFFFFFE3#32 &&& (Instr.bgeu 31 31 0x1FFE#13).row.mask = (Instr.bgeu 31 31 0x1FFE#13).row.pattern ∧
    decodeWord 0xFFFFFFE3#32 = .ok (.bgeu 31 31 0x1FFE#13) := by decide

/-! Invariants, resets and commands. -/

theorem witness_StepKeepsInv : goesOn.Inv ∧ (∃ t, step goesOn = .next t ∧ t.lastStatus = some .normal) ∧
    sdBelow.Inv ∧ ∃ t, step sdBelow = .next t ∧ t.lastStatus = some .fault :=
  ⟨small_inv (by decide), after_went (by decide), small_inv (by decide),
    after_failed (c := .textWrite) (by decide)⟩
/-- The smallest bounds. -/
theorem witness_ResetMeetsInv : Params.Valid ⟨4, 4, true, true⟩ ∧ Params.Valid ⟨2 ^ 64 - 1, 4, false, false⟩ :=
  ⟨⟨by decide, by decide, by decide, by decide, by decide⟩, ⟨by decide, by decide, by decide, by decide, by decide⟩⟩
theorem witness_PowerOnValues : Params.Valid ⟨4, 4, false, false⟩ :=
  ⟨by decide, by decide, by decide, by decide, by decide⟩
theorem witness_CommandsKeepInv : goesOn.Inv ∧ (∃ t r, issue .cacheInvalidate goesOn = .next (t, r)) ∧
    (∃ t r, issue (.reset .soft) goesOn = .next (t, r)) ∧
    ∃ t r, issue (.run [.stop]) goesOn = .next (t, r) :=
  ⟨small_inv (by decide), ⟨_, _, rfl⟩, ⟨_, _, rfl⟩, ⟨_, _, rfl⟩⟩
/-- With a cache, without one, and FAULTED. -/
theorem witness_ResetEffects : goesOn.Inv ∧ (∃ c, goesOn.memSys.cache = some c) ∧
    haltsNext.Inv ∧ haltsNext.memSys.cache = none ∧ ((small plain 0 [] none).takeFault .oob).Inv :=
  ⟨small_inv (by decide), ⟨_, rfl⟩, small_inv (by decide), rfl, faulted_inv (by decide) _⟩
/-- One word and one byte too many. -/
theorem witness_HardResetOfEmptyImage : goesOn.image.words = [] ∧ goesOn.image.data = [] ∧
    goesOn.lineTable = none ∧ goesOn.labels = [] ∧
    ∃ t, issue (.load ⟨List.replicate 9 addiWord, []⟩ none none) goesOn = .next (t, .loadRefused) :=
  ⟨rfl, rfl, rfl, rfl, _, rfl⟩
/-- An image that fills both regions exactly, and one that exceeds each by one. -/
theorem witness_LoadEffect : goesOn.Inv ∧
    (4 * (List.replicate 8 addiWord).length = plain.dataBase ∧
      plain.dataBase + (List.replicate 32 (1 : Byte)).length = plain.memorySize) ∧
    ¬ (4 * (List.replicate 9 addiWord).length ≤ plain.dataBase) ∧
    ¬ (plain.dataBase + (List.replicate 33 (1 : Byte)).length ≤ plain.memorySize) :=
  ⟨small_inv (by decide), by decide, by decide, by decide⟩

/-! The cache. -/

/-- Accepted with one line in all, and turned away for the associativity. -/
theorem witness_CacheConfigValidity : (request 16 16 1 .fifo .writeBack true).config.isSome = true ∧
    (request 64 16 8 .fifo .writeBack true).config = none ∧
    (request 64 16 0 .fifo .writeBack true).config = none := by decide
theorem witness_AddressDecomposition :
    (request 1 1 1 .random .writeThrough false).config = some ⟨1, 1, 1, .random, .writeThrough, false⟩ ∧
    (request 64 16 2 .lru .writeBack true).config = some ⟨16, 2, 2, .lru, .writeBack, true⟩ := by decide

/-- The memory system of a small machine, and the same once address 32 has been read through its cache. -/
def fresh (g : CacheConfig) : MemSystem := (small plain 0 (code addiWord 32) (some g)).memSys
def warm (g : CacheConfig) : MemSystem := ((fresh g).byteRead 64 32).2

theorem fresh_ok {g : CacheConfig} (h : smallOk plain 0 (code addiWord 32) (some g) = true) : (fresh g).Ok 64 :=
  (small_inv h).mem
theorem warm_ok {g : CacheConfig} (h : smallOk plain 0 (code addiWord 32) (some g) = true) : (warm g).Ok 64 :=
  ((fresh_ok h).byteRead (by decide) (show (32 : Word).toNat < 64 by decide)).2.1

/-- Whether an address is resident, computed. -/
def resident (x : MemSystem) (a : Word) : Bool :=
  x.cache.any fun c => (c.ways (c.cfg.index a)).any fun L => L.valid && L.tag == c.cfg.tag a

theorem resident_iff {x : MemSystem} {c : Cache} (hc : x.cache = some c) (a : Word) :
    resident x a = true ↔ Resident c a := by
  simp only [resident, hc, Option.any_some, Resident, Cache.line, List.any_eq_true, Bool.and_eq_true,
    beq_iff_eq, List.mem_iff_getElem]
  constructor
  · rintro ⟨L, ⟨w, hw, rfl⟩, hv, ht⟩
    exact ⟨w, hw, by simpa [hw] using hv, by simpa [hw] using ht⟩
  · rintro ⟨w, hw, hv, ht⟩
    exact ⟨_, ⟨w, hw, rfl⟩, by simpa [hw] using hv, by simpa [hw] using ht⟩

/-- The cache of the warm memory system: 32 is resident, 33 of the same block too, 36 and 40 are not. -/
theorem warm_resident {x : MemSystem} {g : CacheConfig} (h : (x.cache.map Cache.cfg == some g && resident x 32 &&
      resident x 33 && !resident x 40) = true) :
    ∃ c, x.cache = some c ∧ c.cfg = g ∧ Resident c 32 ∧ Resident c 33 ∧ ¬ Resident c 40 := by
  simp only [Bool.and_eq_true, beq_iff_eq, Bool.not_eq_true'] at h
  obtain ⟨⟨⟨hg, h1⟩, h2⟩, h3⟩ := h
  cases hc : x.cache with
  | none => rw [hc] at hg; cases hg
  | some c =>
    rw [hc] at hg
    refine ⟨c, rfl, Option.some.inj hg, (resident_iff hc _).mp h1, (resident_iff hc _).mp h2, fun hr => ?_⟩
    rw [← resident_iff hc, h3] at hr
    cases hr

def randomThrough : CacheConfig := ⟨4, 2, 1, .random, .writeThrough, false⟩
def directBack : CacheConfig := ⟨4, 2, 1, .fifo, .writeBack, false⟩

/-- The block of 32 written in a direct-mapped write-back cache, and whether the victim of a miss at an address
needs a flush, computed. -/
def written : MemSystem := (warm directBack).byteWrite 64 32 7
def evicts (x : MemSystem) (a : Word) : Bool :=
  x.cache.any fun c => mustFlush c.cfg (c.line (c.cfg.index a)
    (victimWay c.cfg (c.ways (c.cfg.index a)) (Config.randomDraw x.draws)))

theorem evicts_iff {x : MemSystem} {c : Cache} (hc : x.cache = some c) (a : Word) : evicts x a = true ↔
    NeedsFlush c.cfg (c.line (c.cfg.index a) (victimWay c.cfg (c.ways (c.cfg.index a)) (Config.randomDraw x.draws))) := by
  simp only [evicts, hc, Option.any_some, mustFlush, NeedsFlush, Bool.and_eq_true, decide_eq_true_eq, and_assoc]

/-- A hit and a miss, under a policy that touches the line and one that does not; a victim that needs a flush,
and one that does not. -/
theorem witness_LookupRule :
    (∃ c, (warm lruBack).cache = some c ∧ c.Coherent 64 (warm lruBack).store ∧ Resident c 32 ∧ ¬ Resident c 40 ∧
      c.cfg.replacement = .lru ∧ ¬ NeedsFlush c.cfg (c.line (c.cfg.index 40)
        (victimWay c.cfg (c.ways (c.cfg.index 40)) (Config.randomDraw (warm lruBack).draws)))) ∧
    (∃ c, (warm randomThrough).cache = some c ∧ c.Coherent 64 (warm randomThrough).store ∧ Resident c 32 ∧
      ¬ Resident c 40 ∧ c.cfg.replacement ≠ .lru) ∧
    ∃ c, written.cache = some c ∧ c.Coherent 64 written.store ∧ written.store.wf = true ∧ ¬ Resident c 40 ∧
      NeedsFlush c.cfg (c.line (c.cfg.index 40)
        (victimWay c.cfg (c.ways (c.cfg.index 40)) (Config.randomDraw written.draws))) := by
  obtain ⟨c, hc, gc, h1, -, h2⟩ := warm_resident (x := warm lruBack) (g := lruBack) (by decide)
  obtain ⟨d, hd, gd, k1, -, k2⟩ := warm_resident (x := warm randomThrough) (g := randomThrough) (by decide)
  obtain ⟨e, he, -, -, -, l2⟩ := warm_resident (x := written) (g := directBack) (by decide)
  have ok : written.Ok 64 := ((warm_ok (by decide)).byteWrite (by decide) (by decide) 7).1
  refine ⟨⟨c, hc, (warm_ok (by decide)).coherent c hc, h1, h2, by rw [gc]; rfl, ?_⟩,
    ⟨d, hd, (warm_ok (by decide)).coherent d hd, k1, k2, by rw [gd]; decide⟩,
    e, he, ok.coherent e he, ok.store_wf, l2, (evicts_iff he 40).mp (by decide)⟩
  rw [← evicts_iff hc]
  decide

def wayAt (valid : Bool) (ts : Word) : Line := ⟨valid, false, ts, [0, 0, 0, 0], ts⟩
/-- An invalid way; all valid, with equal timestamps; RANDOM. -/
theorem witness_VictimSelection : [wayAt true 1, wayAt false 0].length = lruBack.associativity ∧
    0 < lruBack.associativity ∧ (∃ L ∈ [wayAt true 1, wayAt false 0], L.valid = false) ∧
    (∀ L ∈ [wayAt true 1, wayAt true 1], L.valid = true) ∧ lruBack.replacement ≠ .random ∧
    [wayAt true 1].length = randomThrough.associativity ∧ randomThrough.replacement = .random := by decide
/-- Resident and bypassed. -/
theorem witness_WriteThroughRule : (warm randomThrough).Ok 64 ∧ (64 < 2 ^ 64) ∧ (63 : Word).toNat < 64 ∧
    (∃ c, (warm randomThrough).cache = some c ∧ c.cfg = randomThrough ∧ Resident c 32 ∧ Resident c 33 ∧
      ¬ Resident c 40) ∧
    randomThrough.writePolicy = .writeThrough ∧ randomThrough.writeAllocate = false :=
  ⟨warm_ok (by decide), by decide, by decide, warm_resident (by decide), rfl, rfl⟩
/-- Resident, allocated and bypassed. -/
theorem witness_WriteBackRule : (warm lruBack).Ok 64 ∧ (warm directBack).Ok 64 ∧ (64 < 2 ^ 64) ∧
    (63 : Word).toNat < 64 ∧
    (∃ c, (warm lruBack).cache = some c ∧ c.cfg = lruBack ∧ Resident c 32 ∧ Resident c 33 ∧ ¬ Resident c 40) ∧
    (∃ c, (warm directBack).cache = some c ∧ c.cfg = directBack ∧ Resident c 32 ∧ Resident c 33 ∧
      ¬ Resident c 40) ∧
    lruBack.writePolicy = .writeBack ∧ lruBack.writeAllocate = true ∧
    directBack.writePolicy = .writeBack ∧ directBack.writeAllocate = false :=
  ⟨warm_ok (by decide), warm_ok (by decide), by decide, by decide, warm_resident (by decide),
    warm_resident (by decide), rfl, rfl, rfl, rfl⟩
/-- 32 and 40 share a set of a direct-mapped cache. -/
theorem witness_ExactRateAndDirectMapping : (warm directBack).Ok 64 ∧ (64 < 2 ^ 64) ∧ (32 : Word).toNat < 64 ∧
    (40 : Word).toNat < 64 ∧ (∃ c, (warm directBack).cache = some c ∧ c.cfg = directBack ∧ Resident c 32 ∧
      Resident c 33 ∧ ¬ Resident c 40) ∧
    directBack.associativity = 1 ∧ directBack.index 32 = directBack.index 40 ∧
    directBack.tag 32 ≠ directBack.tag 40 :=
  ⟨warm_ok (by decide), by decide, by decide, by decide, warm_resident (by decide), rfl, by decide, by decide⟩
/-- A dirty line, and a valid and an invalid request. -/
theorem witness_MaintenanceKeepsView : ((warm lruBack).byteWrite 64 33 7).Ok 64 ∧ (64 < 2 ^ 64) ∧
    (∃ c, (warm lruBack).cache = some c ∧ c.cfg = lruBack ∧ Resident c 32 ∧ Resident c 33 ∧ ¬ Resident c 40) ∧
    (request 64 16 2 .lru .writeBack true).config = some ⟨16, 2, 2, .lru, .writeBack, true⟩ ∧
    (63 : Word).toNat < 64 :=
  ⟨((warm_ok (by decide)).byteWrite (by decide) (by decide) 7).1, by decide, warm_resident (by decide),
    by decide, by decide⟩
/-- R391: while the written line is dirty the dump of `M` shows the old byte, and after an invalidate the new. -/
theorem test_memory_dump_lags : (written.store.dump 64).getD 32 0 = 0x93 ∧ written.peekByte 32 = 7 ∧
    ((written.invalidate 64).store.dump 64).getD 32 0 = 7 := by decide
/-- Tracing on with a hit and a miss, tracing off, and no cache. -/
theorem witness_TraceRecords : (warm lruBack).Ok 64 ∧ (64 < 2 ^ 64) ∧ (63 : Word).toNat < 64 ∧
    (∃ c, (warm lruBack).cache = some c ∧ c.cfg = lruBack ∧ Resident c 32 ∧ Resident c 33 ∧ ¬ Resident c 40) ∧
    ((warm lruBack).cache.any fun c => c.traceEnable) = true ∧
    (small plain 0 [] none).memSys.Ok 64 ∧ (small plain 0 [] none).memSys.cache = none :=
  ⟨warm_ok (by decide), by decide, by decide, warm_resident (by decide), by decide,
    (small_inv (by decide : smallOk plain 0 [] none = true)).mem, rfl⟩

/-! The run loops and the tracker. -/

/-- The three ways a run can end. -/
theorem witness_RunLoopSteps : runLoop [.stop] goesOn = .next (goesOn, some .normal) ∧
    runLoop [] goesOn = .next (goesOn, none) ∧
    (match runLoop [.proceed, .proceed] goesOn with
      | .next (_, st) => st == some .ended
      | .fault _ => false
      | .refused _ => false) = true := ⟨rfl, rfl, by decide⟩
/-- Without a table, within a table and at its end; two labels with one start, and lines before, at and after a
start. -/
theorem witness_OwnerOfLine : goesOn.lineTable = none ∧
    ({ goesOn with lineTable := some [7] } : State).lineTable = some [7] ∧
    [7][(3 : Word).toNat / 4]? = some 7 ∧ [7][(4 : Word).toNat / 4]? = none ∧
    (⟨"b", 4⟩ : Label) ∈ [(⟨"a", 4⟩ : Label), ⟨"b", 4⟩] ∧
    dedupLabels [⟨"a", 4⟩, ⟨"b", 4⟩] = [⟨"a", 4⟩] ∧ ownerOf [⟨"a", 4⟩] 3 = none ∧ ownerOf [⟨"a", 4⟩] 4 = some 0 := by
  decide
end Sys2Proof.Tests
end

section
/-! PROOF. The register file (10_state.md R21, R22). -/

namespace Sys2Proof.Machine

open Sys2Proof.Claims

variable {s t : State}

theorem State.readReg_writeReg_same (s : State) {r : Reg} (h : r ≠ 0) (v : Word) :
    (s.writeReg r v).readReg r = v := by
  rw [State.readReg_writeReg, if_pos ⟨rfl, h⟩]

theorem State.readReg_writeReg_other (s : State) {r r' : Reg} (h : r' ≠ r) (v : Word) :
    (s.writeReg r v).readReg r' = s.readReg r' := by
  rw [State.readReg_writeReg, if_neg fun hr => h hr.1]

theorem State.writeReg_sameControl (s : State) (r : Reg) (v : Word) : SameControl s (s.writeReg r v) :=
  ⟨rfl, rfl, rfl, rfl⟩

theorem State.writeReg_sameSetup (s : State) (r : Reg) (v : Word) : SameSetup s (s.writeReg r v) :=
  ⟨rfl, rfl, rfl, rfl, rfl, rfl⟩

/-- A state whose register array is that of one write keeps every other register. -/
theorem State.readReg_of_regs_writeReg {rd : Reg} {v : Word} (h : t.regs = (s.writeReg rd v).regs) :
    ∀ r, r ≠ rd → t.readReg r = s.readReg r := fun r hr => by
  rw [State.readReg_congr h, State.readReg_writeReg_other s hr]

/-- The cases of `Effect` that write a register write it once; the others leave the array alone, for which any
index serves. -/
theorem Effect.writes_at_most_one (h : Effect s t) : ∃ rd, ∀ r, r ≠ rd → t.readReg r = s.readReg r := by
  cases h with
  | result rd v => exact ⟨rd, State.readReg_of_regs_writeReg (State.advance_regs _)⟩
  | jumped rd | returned rd => exact ⟨rd, State.readReg_of_regs_writeReg rfl⟩
  | loaded n a v v' rd u hu =>
    have hregs : u.regs = s.regs := by rw [(State.memRead_fields hu).2]
    refine ⟨rd, fun r hr => ?_⟩
    rw [State.readReg_of_regs_writeReg (State.advance_regs _) r hr, State.readReg_congr hregs]
  | stored n a v u hu =>
    have hregs : u.regs = s.regs := by rw [(State.memWrite_fields hu).2]
    exact ⟨0, fun r _ => State.readReg_congr hregs r⟩
  | faulted | advanced | branched | ended => exact ⟨0, fun r _ => State.readReg_congr rfl r⟩

/-- Settles O25: the first half by the inversion of the meanings, the second by the laws of `writeReg`. -/
theorem registerFile : Obligations.RegisterFile := by
  refine ⟨fun i s t hi ht => ?_, fun s r v => ?_⟩
  · obtain ⟨t', ht', heff⟩ := exec_effect i hi s
    obtain rfl : t' = t := Host.Outcome.next.inj (ht'.symm.trans ht)
    exact heff.writes_at_most_one
  · exact ⟨s.readReg_zero, (s.writeReg r v).readReg_zero, fun h => s.readReg_writeReg_same h v,
      fun r' h => s.readReg_writeReg_other h v, s.writeReg_wb r v, s.writeReg_pc r v, s.writeReg_memSys r v,
      s.writeReg_callStack r v, s.writeReg_sameControl r v, s.writeReg_sameSetup r v⟩

end Sys2Proof.Machine
end

section
/-! PROOF. The write policies and the exact hit rate (21_cache.md R97, R100, R111). -/

namespace Sys2Proof.Machine

open Sys2Proof.Claims

variable {size draws : Nat} {m : Memory} {c : Cache} {a b : Word} {x : MemSystem} {allocate : Bool}

/-! ## What a lookup leaves resident -/

/-- A read leaves the block resident, and so does a write that hits or allocates (R89). -/
theorem lookup_way_isSome_iff :
    (c.lookup size m draws a allocate).way.isSome = true ↔ Resident c a ∨ allocate = true := by
  by_cases hres : Resident c a
  · obtain ⟨w, hw, -⟩ := lookup_of_resident (size := size) (m := m) (d := draws) (al := allocate) hres
    simp [hw, hres]
  · cases allocate with
    | false => simp [lookup_bypass_of_not_resident hres, hres]
    | true =>
      obtain ⟨v, hv, -⟩ := lookup_fill_of_not_resident (size := size) (m := m) (d := draws) hres
      simp [hv]

/-- The way a lookup answers is the way its cache hits in. -/
theorem LookupResult.Good.resident_iff {r : LookupResult} (g : r.Good size c m a allocate) :
    Resident r.cache a ↔ r.way.isSome = true := by
  rw [resident_iff_hitWay, g.cfg, g.way]

theorem resident_updateLine (w : Option Nat) (b : Byte) : Resident (c.updateLine w a b) a ↔ Resident c a := by
  rw [resident_iff_hitWay, resident_iff_hitWay, hitWay_updateLine]

/-! ## WriteThrough (R97) -/

/-- Under WriteThrough no line needs a flush, so that a lookup writes nothing to the store. -/
theorem Cache.Coherent.lookup_writeThrough (h : c.Coherent size m) (hp : c.cfg.writePolicy = .writeThrough) :
    (c.lookup size m draws a allocate).store = m ∧
      (c.lookup size m draws a allocate).cache.stats.writebacks = c.stats.writebacks := by
  by_cases hres : Resident c a
  · obtain ⟨w, -, hstore, hwb⟩ :=
      lookup_of_resident (size := size) (m := m) (d := draws) (al := allocate) hres
    exact ⟨hstore, hwb⟩
  · cases allocate with
    | false => rw [lookup_bypass_of_not_resident hres]; exact ⟨rfl, rfl⟩
    | true =>
      obtain ⟨v, -, hv, hcache, hstore⟩ :=
        lookup_fill_of_not_resident (size := size) (m := m) (d := draws) hres
      have hvlt : v < (c.beginLookup.countMiss.ways (c.cfg.index a)).length := by
        have hlen := h.ways_length a
        have := victimWay_lt hlen (isPow2_pos h.ways_pow2) (Config.randomDraw draws)
        rw [hv]; exact hlen ▸ this
      obtain ⟨-, -, -, hclean⟩ := cacheFill_spec size c.beginLookup.countMiss m a hvlt
      have hno : ¬ NeedsFlush c.cfg (c.beginLookup.countMiss.line (c.cfg.index a) v) :=
        fun ⟨_, _, hwb⟩ => by simp [hp] at hwb
      obtain ⟨hwb, hsame⟩ := hclean hno
      rw [hcache, hstore]
      exact ⟨hsame, hwb⟩

/-- A valid line that agrees with the store is clean under WriteThrough. -/
theorem Cache.Coherent.clean_of_writeThrough (h : c.Coherent size m) (hp : c.cfg.writePolicy = .writeThrough)
    {s : Nat} {L : Line} (hL : L ∈ c.ways s) (hv : L.valid = true) : L.dirty = false := by
  by_contra hd
  have := (h.agrees s L hL hv).dirty (by simpa using hd)
  simp [hp] at this

/-- A write that neither hits nor allocates leaves the lines alone (R97). -/
theorem sets_lookup_updateLine_of_bypass (hres : ¬ Resident c a) (b : Byte) :
    ((c.lookup size m draws a false).cache.updateLine (c.lookup size m draws a false).way a b).sets =
      c.sets := by
  rw [lookup_bypass_of_not_resident hres]; rfl

/-- Settles O54: the lookup flushes nothing, so that the store sees the written byte alone; the cache after is
coherent, so that it has no dirty line; and the address is resident after exactly if the lookup answers a way. -/
theorem writeThroughRule : Obligations.WriteThroughRule := by
  intro size x c a b hx hsize ha hc hp y
  have hco := hx.coherent c hc
  have g := hco.lookup hx.store_wf hx.store_within hsize x.draws a c.cfg.writeAllocate
  obtain ⟨hlstore, hlwb⟩ := hco.lookup_writeThrough (draws := x.draws) (a := a)
    (allocate := c.cfg.writeAllocate) hp
  obtain ⟨hstore, c', hc', hcfg, hsets, -, hwb, -⟩ := byteWrite_of_cache (size := size) hc a b _ rfl
  simp only [hp, hlstore] at hstore
  simp only [hp, hlwb] at hwb
  obtain ⟨hy, hpeek⟩ := hx.byteWrite hsize ha b
  have hcfg' : c'.cfg = c.cfg := by rw [hcfg, (Cache.updateLine_fields ..).1, g.cfg]
  have hres : Resident c' a ↔ Resident c a ∨ c.cfg.writeAllocate = true := by
    rw [resident_congr hcfg hsets, resident_updateLine, g.resident_iff, lookup_way_isSome_iff]
  refine ⟨?_, fun k hk => ?_, c', hc', hwb, fun s L => ?_, fun hin => ?_, fun hout hal => ?_⟩
  · rw [hstore, Memory.read_write_same hx.store_wf]
  · rw [hstore, Memory.read_write_other hk]
  · exact (hy.coherent c' hc').clean_of_writeThrough (by rw [hcfg', hp])
  · exact ⟨hres.mpr hin, by rw [hpeek a ha, if_pos rfl]⟩
  · refine ⟨?_, by simp [hres, hout, hal]⟩
    rw [hsets, hal, sets_lookup_updateLine_of_bypass hout]

/-! ## The exact rate and the direct-mapped cache (R100, R111) -/

/-- After a read the block of the address is resident, under the same configuration (R95). -/
theorem byteRead_cache_resident (hx : x.Ok size) (hsize : size < 2 ^ 64) (hc : x.cache = some c) (a : Word) :
    ∃ c', (x.byteRead size a).2.cache = some c' ∧ c'.cfg = c.cfg ∧ Resident c' a := by
  have g := (hx.coherent c hc).lookup hx.store_wf hx.store_within hsize x.draws a true
  have hres := g.resident_iff.mpr (lookup_way_isSome_iff.mpr (.inr rfl))
  exact ⟨_, congrArg MemSystem.cache (byteRead_of_cache hc a), g.cfg,
    (resident_congr rfl rfl).mpr hres⟩

/-- `hit_rate` is exact in every cache of a memory system that meets its invariant (the source's P4). -/
theorem MemSystem.Ok.hitRate (hx : x.Ok size) (hc : x.cache = some c) :
    c.stats.hitRate = (c.stats.hitCount.toNat : Rat) / (c.stats.accessCount.toNat : Rat) := by
  rw [(hx.stats c hc).2, exactRate_eq_div]

/-- A set of one way holds one block (the source's P5). -/
theorem Cache.Coherent.not_resident_of_directMapped (h : c.Coherent size m) (hone : c.cfg.associativity = 1)
    (hi : c.cfg.index a = c.cfg.index b) (ht : c.cfg.tag a ≠ c.cfg.tag b) (ha : Resident c a) :
    ¬ Resident c b := by
  rintro ⟨v, hv, -, hvt⟩
  obtain ⟨w, hw, -, hwt⟩ := ha
  rw [h.ways_length, hone] at hv hw
  obtain rfl : v = 0 := by omega
  obtain rfl : w = 0 := by omega
  exact ht (by rw [← hwt, ← hvt, hi])

/-- Settles O56: P4 is part of the invariant that a byte access keeps, and for P5 each read leaves its own
block resident, in a set that has room for one. -/
theorem exactRateAndDirectMapping : Obligations.ExactRateAndDirectMapping := by
  intro size x c a b v hx hsize ha hb hc
  obtain ⟨-, hx₁, -⟩ := hx.byteRead hsize ha
  obtain ⟨hxw, -⟩ := hx.byteWrite hsize ha v
  obtain ⟨c₁, hc₁, hcfg₁, hres₁⟩ := byteRead_cache_resident hx hsize hc a
  obtain ⟨-, cw, hcw, -⟩ := byteWrite_of_cache (size := size) hc a v _ rfl
  refine ⟨⟨c₁, hc₁, hx₁.hitRate hc₁⟩, ⟨cw, hcw, hxw.hitRate hcw⟩, fun hone hi ht => ?_⟩
  obtain ⟨-, hx₂, -⟩ := hx₁.byteRead hsize hb
  obtain ⟨c₂, hc₂, hcfg₂, hres₂⟩ := byteRead_cache_resident hx₁ hsize hc₁ b
  rw [hcfg₁] at hcfg₂
  refine ⟨c₁, c₂, hc₁, hres₁, ?_, hc₂, hres₂, ?_⟩
  · exact (hx₁.coherent c₁ hc₁).not_resident_of_directMapped (by rwa [hcfg₁]) (by rwa [hcfg₁])
      (by rwa [hcfg₁]) hres₁
  · exact (hx₂.coherent c₂ hc₂).not_resident_of_directMapped (by rwa [hcfg₂]) (by rw [hcfg₂, hi])
      (by rw [hcfg₂]; exact ht.symm) hres₂

end Sys2Proof.Machine
end

section
/-! PROOF. The immediates of the I, S and B formats and the shift amount (30_encoding.md R141 to R146). -/

namespace Sys2Proof.Machine

open Sys2Proof.Claims

/-! ## The bits of the fields, before sign extension -/

theorem immIOf_getLsbD (w : InstrWord) {i : Nat} (hi : i < 12) :
    (immIOf w).getLsbD i = w.getLsbD (20 + i) := by
  simp [immIOf, hi]

theorem immSOf_getLsbD (w : InstrWord) {i : Nat} (hi : i < 12) :
    (immSOf w).getLsbD i = w.getLsbD (if i < 5 then 7 + i else 20 + i) := by
  simp only [immSOf, BitVec.getLsbD_or, BitVec.getLsbD_shiftLeft, BitVec.getLsbD_setWidth,
    BitVec.getLsbD_extractLsb']
  interval_cases i <;> simp

theorem immBOf_getLsbD (w : InstrWord) {i : Nat} (hi : i < 13) :
    (immBOf w).getLsbD i = (decide (i ≠ 0) &&
      w.getLsbD (if i < 5 then 7 + i else if i < 11 then 20 + i else if i = 11 then 7 else 31)) := by
  simp only [immBOf, BitVec.getLsbD_or, BitVec.getLsbD_shiftLeft, BitVec.getLsbD_setWidth,
    BitVec.getLsbD_extractLsb']
  interval_cases i <;> simp

theorem immB_getLsbD (o : BitVec 13) {k : Nat} (hk : k < 64) :
    (immB o).getLsbD k = o.getLsbD (min k 12) := by
  rw [immB, BitVec.getLsbD_signExtend]
  by_cases h : k < 13
  · rw [min_eq_left (by omega)]; simp [h, hk]
  · rw [min_eq_right (by omega)]; simp [h, hk, BitVec.msb_eq_getLsbD_last]

/-! ## Bit by bit, sign-extended (R141 to R143) -/

theorem imm12_immIOf_getLsbD (w : InstrWord) {k : Nat} (hk : k < 64) :
    (imm12 (immIOf w)).getLsbD k = w.getLsbD (if k < 11 then 20 + k else 31) := by
  rw [imm12_getLsbD _ _ hk, immIOf_getLsbD _ (by omega)]
  congr 1
  split <;> omega

theorem imm12_immSOf_getLsbD (w : InstrWord) {k : Nat} (hk : k < 64) :
    (imm12 (immSOf w)).getLsbD k =
      w.getLsbD (if k < 5 then 7 + k else if k < 11 then 20 + k else 31) := by
  rw [imm12_getLsbD _ _ hk, immSOf_getLsbD _ (by omega)]
  congr 1
  split_ifs <;> omega

theorem immB_immBOf_getLsbD (w : InstrWord) {k : Nat} (hk : k < 64) :
    (immB (immBOf w)).getLsbD k = (decide (k ≠ 0) &&
      w.getLsbD (if k < 5 then 7 + k else if k < 11 then 20 + k else if k = 11 then 7 else 31)) := by
  rw [immB_getLsbD _ hk, immBOf_getLsbD _ (by omega)]
  congr 2
  · simp
  · split_ifs <;> omega

/-! ## Ranges -/

/-- A sign-extended 12-bit field keeps the range of 12 bits (R141, R142). -/
theorem imm12_range (imm : BitVec 12) : -2048 ≤ (imm12 imm).toInt ∧ (imm12 imm).toInt ≤ 2047 := by
  have hle := BitVec.le_toInt imm
  have hlt := BitVec.toInt_lt (x := imm)
  rw [imm12_toInt]
  omega

/-- Bit 0 of a branch offset is 0, so that the largest is 4094 and not 4095 (R143). -/
theorem immB_range_of_even {o : BitVec 13} (h : o.getLsbD 0 = false) :
    -4096 ≤ (immB o).toInt ∧ (immB o).toInt ≤ 4094 ∧ (immB o).toInt % 2 = 0 := by
  have heven : (immB o).toInt % 2 = 0 := by
    have hnat := immB_even o h
    rw [BitVec.toInt_eq_toNat_cond]
    split <;> omega
  have hle := BitVec.le_toInt o
  have hlt := BitVec.toInt_lt (x := o)
  rw [← immB_toInt] at hle hlt
  omega

theorem shamtOf_toNat (w : InstrWord) : (shamtOf w).toNat = w.toNat / 2 ^ 20 % 2 ^ 6 := by
  rw [shamtOf_eq, BitVec.toNat_ofNat]

/-- Settles O7: sign extension repeats the top bit of a field whose bits the format names, keeps its value as
an integer, and the branch offset is even by its bit 0. -/
theorem immediateAssembly : Obligations.ImmediateAssembly := fun w =>
  ⟨fun _ hk => imm12_immIOf_getLsbD w hk, fun _ hk => imm12_immSOf_getLsbD w hk,
    fun _ hk => immB_immBOf_getLsbD w hk, imm12_range _, imm12_range _,
    immB_range_of_even (by simpa using immBOf_even w), shamtOf_toNat w⟩

end Sys2Proof.Machine
end

section
/-! PROOF. The register-register instructions of 40_alu_register.md: arithmetic, comparison and logic. -/

namespace Sys2Proof.Machine

open Sys2Proof.Claims

theorem add_eq_u64 (x y : Word) : x + y = u64 (x.toNat + y.toNat) := by
  simp [u64, BitVec.ofNat_add]

/-- An instruction whose meaning is the register-register form on `f` produces the value of `f` (R170). -/
theorem produces_of_aluReg {i : Instr} {s : State} {f : Word → Word → Word} {rd rs1 rs2 : Reg} {v : Word}
    (he : exec i s = s.aluReg f rd rs1 rs2) (hv : f (s.readReg rs1) (s.readReg rs2) = v) :
    Produces i s rd v := by
  rw [Produces, he]
  exact produces_result s rd _ v hv

/-- Settles O1: the keys select the instructions, and each operation is the integer one modulo 2^64. -/
theorem registerArithmetic : Obligations.RegisterArithmetic :=
  ⟨encodedR_of _ _ rfl fun w h7 h3 => by rw [decodeOp, h7, h3]; rfl,
    encodedR_of _ _ rfl fun w h7 h3 => by rw [decodeOp, h7, h3]; rfl,
    encodedR_of _ _ rfl fun w h7 h3 => by rw [decodeOp, h7, h3]; rfl,
    encodedR_of _ _ rfl fun w h7 h3 => by rw [decodeOp, h7, h3]; rfl,
    fun _ _ _ _ => ⟨produces_of_aluReg rfl (add_eq_u64 _ _), produces_of_aluReg rfl (sub_eq_u64i _ _),
      produces_of_aluReg rfl (setLessSigned_eq _ _), produces_of_aluReg rfl (setLessUnsigned_eq _ _)⟩⟩

/-- Settles O2: the keys select the instructions, and bit `k` of each result is the operation on the bits `k`. -/
theorem registerLogic : Obligations.RegisterLogic :=
  ⟨encodedR_of _ _ rfl fun w h7 h3 => by rw [decodeOp, h7, h3]; rfl,
    encodedR_of _ _ rfl fun w h7 h3 => by rw [decodeOp, h7, h3]; rfl,
    encodedR_of _ _ rfl fun w h7 h3 => by rw [decodeOp, h7, h3]; rfl,
    fun _ _ _ _ => ⟨producesBits_of rfl fun _ _ => BitVec.getLsbD_xor,
      producesBits_of rfl fun _ _ => BitVec.getLsbD_or, producesBits_of rfl fun _ _ => BitVec.getLsbD_and⟩⟩

end Sys2Proof.Machine
end

section
/-! PROOF. The words that match no row of their opcode (R181, R200, R219, R232, R243, R254) run as no-ops. -/

namespace Sys2Proof.Machine

open Sys2Proof.Claims

variable {w : InstrWord}

/-! ## The dispatch on the opcode (R148) -/

theorem ne_zero_of_opcodeOf {op : BitVec 7} (h : opcodeOf w = op) (hop : op ≠ 0#7) : w ≠ 0#32 := by
  rintro rfl
  exact hop (h.symm.trans (by decide))

theorem decodeWord_op (h : opcodeOf w = 0x33#7) : decodeWord w = orUnhandled w (decodeOp w) := by
  simp [decodeWord, ne_zero_of_opcodeOf h, h]

theorem decodeWord_opImm (h : opcodeOf w = 0x13#7) : decodeWord w = orUnhandled w (decodeOpImm w) := by
  simp [decodeWord, ne_zero_of_opcodeOf h, h]

theorem decodeWord_load (h : opcodeOf w = 0x03#7) : decodeWord w = orUnhandled w (decodeLoad w) := by
  simp [decodeWord, ne_zero_of_opcodeOf h, h]

theorem decodeWord_store (h : opcodeOf w = 0x23#7) : decodeWord w = orUnhandled w (decodeStore w) := by
  simp [decodeWord, ne_zero_of_opcodeOf h, h]

theorem decodeWord_branch (h : opcodeOf w = 0x63#7) : decodeWord w = orUnhandled w (decodeBranch w) := by
  simp [decodeWord, ne_zero_of_opcodeOf h, h]

theorem decodeWord_jalr (h : opcodeOf w = 0x67#7) : decodeWord w = orUnhandled w (decodeJalr w) := by
  simp [decodeWord, ne_zero_of_opcodeOf h, h]

/-! ## The keys that match no row

Each decoder is a chain of tests on the function fields. It answers `none` exactly if every test fails
(`ite_eq_iff`); which keys those are is arithmetic, since funct3 has eight values. -/

theorem funct3Nat_lt (w : InstrWord) : funct3Nat w < 8 := Nat.mod_lt _ (by decide)

theorem decodeOp_eq_none_iff : decodeOp w = none ↔ ¬ (funct7Nat w = 0x00 ∨ funct7Nat w = 0x01 ∨
    (funct7Nat w = 0x20 ∧ (funct3Nat w = 0 ∨ funct3Nat w = 5))) := by
  have := funct3Nat_lt w
  simp only [decodeOp, ite_eq_iff, funct3Of_eq_iff, funct7Of_eq_iff, BitVec.reduceToNat, reduceCtorEq,
    and_false, false_or, and_true]
  omega

theorem decodeOpImm_eq_none_iff : decodeOpImm w = none ↔ (funct3Nat w = 1 ∧ funct6Nat w ≠ 0x00) ∨
    (funct3Nat w = 5 ∧ funct6Nat w ≠ 0x00 ∧ funct6Nat w ≠ 0x10) := by
  have := funct3Nat_lt w
  simp only [decodeOpImm, ite_eq_iff, funct3Of_eq_iff, funct6Of_eq_iff, BitVec.reduceToNat, reduceCtorEq,
    and_false, false_or, and_true]
  omega

theorem decodeLoad_eq_none_iff : decodeLoad w = none ↔ funct3Nat w = 7 := by
  have := funct3Nat_lt w
  simp only [decodeLoad, ite_eq_iff, funct3Of_eq_iff, BitVec.reduceToNat, reduceCtorEq,
    and_false, false_or, and_true]
  omega

theorem decodeStore_eq_none_iff : decodeStore w = none ↔ 4 ≤ funct3Nat w := by
  have := funct3Nat_lt w
  simp only [decodeStore, ite_eq_iff, funct3Of_eq_iff, BitVec.reduceToNat, reduceCtorEq,
    and_false, false_or, and_true]
  omega

theorem decodeBranch_eq_none_iff : decodeBranch w = none ↔ funct3Nat w = 2 ∨ funct3Nat w = 3 := by
  have := funct3Nat_lt w
  simp only [decodeBranch, ite_eq_iff, funct3Of_eq_iff, BitVec.reduceToNat, reduceCtorEq,
    and_false, false_or, and_true]
  omega

theorem decodeJalr_eq_none_iff : decodeJalr w = none ↔ funct3Nat w ≠ 0 := by
  simp [decodeJalr, funct3Of_eq_iff]

/-- What the decoder answers under opcode 0x13 is one of its nine instructions (R200). -/
theorem row_mem_of_decodeOpImm {i : Instr} (h : decodeOpImm w = some i) : i.row ∈ opcodeRowsImm := by
  unfold decodeOpImm at h
  split_ifs at h <;> cases h <;> simp [Instr.row, opcodeRowsImm]

/-! ## What such a word does (R272) -/

theorem runsAsNop_of_decodeWord_error {r : DecodeReject} (h : decodeWord w = .error r) : RunsAsNop w := by
  intro s hstrict hrun
  obtain ⟨t, ht, hnop⟩ := nopResult_finishStep s hrun
  exact ⟨t, by simpa [runWord, h, runUnhandled, hstrict] using ht, hnop⟩

theorem runsAsNop_of_no_row {o : Option Instr} (h : decodeWord w = orUnhandled w o) (ho : o = none) :
    RunsAsNop w :=
  runsAsNop_of_decodeWord_error (h.trans (congrArg (orUnhandled w) ho))

/-- Settles O21: under each opcode the decoder finds no row for exactly the keys of its rule, and a word that it
rejects runs as a no-op. -/
theorem unhandledKeys : Obligations.UnhandledKeys := by
  intro w
  have opcode {v : BitVec 7} (h : opcodeNat w = v.toNat) : opcodeOf w = v := (opcodeOf_eq_iff w v).mpr h
  refine ⟨fun h hk => runsAsNop_of_no_row (decodeWord_op (opcode h)) (decodeOp_eq_none_iff.mpr hk),
    fun h hk => runsAsNop_of_no_row (decodeWord_opImm (opcode h)) (decodeOpImm_eq_none_iff.mpr hk),
    fun h hk => ?_,
    fun h hk => runsAsNop_of_no_row (decodeWord_load (opcode h)) (decodeLoad_eq_none_iff.mpr hk),
    fun h hk => runsAsNop_of_no_row (decodeWord_store (opcode h)) (decodeStore_eq_none_iff.mpr hk),
    fun h hk => runsAsNop_of_no_row (decodeWord_branch (opcode h)) (decodeBranch_eq_none_iff.mpr hk),
    fun h hk => runsAsNop_of_no_row (decodeWord_jalr (opcode h)) (decodeJalr_eq_none_iff.mpr hk)⟩
  obtain ⟨i, hi⟩ := Option.ne_none_iff_exists'.mp (mt decodeOpImm_eq_none_iff.mp hk)
  exact ⟨i, by rw [decodeWord_opImm (opcode h), hi]; rfl, row_mem_of_decodeOpImm hi⟩

end Sys2Proof.Machine
end

section
/-! PROOF. The register-immediate instructions of 41_alu_immediate.md: arithmetic, comparison, logic and shifts. -/

namespace Sys2Proof.Machine

open Sys2Proof.Claims

/-- An I-format row of OP-IMM: its key selects the instruction that the decoder's row names (R134, R147). -/
theorem encodedI_of_opImm {p : InstrWord} {mk : Reg → Reg → BitVec 12 → Instr} (hop : opcodeOf p = 0x13#7)
    (hd : ∀ w, funct3Of w = funct3Of p → decodeOpImm w = some (mk (rdOf w) (rs1Of w) (immIOf w))) :
    EncodedI p mk :=
  encodedI_of p mk (.inl (ne_zero_of_opcodeOf hop (by decide))) decodeOpImm
    (fun _ _ ho => decodeWord_opImm (ho.trans hop)) hd

/-- An instruction whose meaning is a register result produces its value, in any form equal to it (R190). -/
theorem produces_of_result {i : Instr} {s : State} {rd : Reg} {v v' : Word} (he : exec i s = s.result rd v)
    (hv : v = v') : Produces i s rd v' := by
  rw [Produces, he]
  exact produces_result s rd v v' hv

/-- Addition of the sign-extended immediate is integer addition modulo 2^64 (R191). -/
theorem add_imm12_eq_u64i (x : Word) (imm : BitVec 12) : x + imm12 imm = u64i (x.toNat + imm.toInt) := by
  rw [add_eq_u64i, imm12_toInt]

/-- Sign extension keeps the order of the immediates (R192). -/
theorem setLessSigned_imm12 (x : Word) (imm : BitVec 12) :
    setLessSigned x (imm12 imm) = if x.toInt < imm.toInt then 1 else 0 := by
  rw [setLessSigned_eq, imm12_toInt]

/-- Settles O6: funct6 selects between the two right shifts, and each shift is the integer operation modulo
2^64. -/
theorem immediateShifts : Obligations.ImmediateShifts :=
  ⟨encodedShift_of _ _ rfl fun w h3 h6 => by rw [decodeOpImm, h3, h6]; rfl,
    encodedShift_of _ _ rfl fun w h3 h6 => by rw [decodeOpImm, h3, h6]; rfl,
    encodedShift_of _ _ rfl fun w h3 h6 => by rw [decodeOpImm, h3, h6]; rfl,
    fun _ _ _ _ => ⟨produces_of_result rfl (shiftLeft_eq _ _), produces_of_result rfl (shiftRightLogical_eq _ _),
      produces_of_result rfl (shiftRightArith_eq _ _)⟩⟩

/-- Settles O4: funct3 selects the instruction, and the operand is the sign-extended immediate, whose value is
the field's and whose bits from 11 on are the field's top bit. -/
theorem immediateOperations : Obligations.ImmediateOperations :=
  ⟨encodedI_of_opImm rfl fun w h3 => by rw [decodeOpImm, h3]; rfl,
    encodedI_of_opImm rfl fun w h3 => by rw [decodeOpImm, h3]; rfl,
    encodedI_of_opImm rfl fun w h3 => by rw [decodeOpImm, h3]; rfl,
    encodedI_of_opImm rfl fun w h3 => by rw [decodeOpImm, h3]; rfl,
    encodedI_of_opImm rfl fun w h3 => by rw [decodeOpImm, h3]; rfl,
    fun _ _ _ _ => ⟨produces_of_result rfl (add_imm12_eq_u64i _ _),
      produces_of_result rfl (setLessSigned_imm12 _ _),
      producesBits_of rfl fun k hk => by rw [BitVec.getLsbD_xor, imm12_getLsbD _ k hk],
      producesBits_of rfl fun k hk => by rw [BitVec.getLsbD_or, imm12_getLsbD _ k hk],
      producesBits_of rfl fun k hk => by rw [BitVec.getLsbD_and, imm12_getLsbD _ k hk]⟩⟩

end Sys2Proof.Machine
end

section
/-! PROOF. The load instructions of 42_loads.md: encoding, width, extension, frame and fault. -/

namespace Sys2Proof.Machine

open Sys2Proof.Claims

/-- A row of LOAD: its key selects the instruction that the decoder's row names (R134, R147). -/
theorem encodedI_of_load {p : InstrWord} {mk : Reg → Reg → BitVec 12 → Instr} (hop : opcodeOf p = 0x03#7)
    (hd : ∀ w, funct3Of w = funct3Of p → decodeLoad w = some (mk (rdOf w) (rs1Of w) (immIOf w))) :
    EncodedI p mk :=
  encodedI_of p mk (.inr hop) decodeLoad (fun _ _ ho => decodeWord_load (ho.trans hop)) hd

variable {i : Instr} {s : State} {n : Nat} {rd rs1 : Reg} {imm : BitVec 12}

/-- A load that sign-extends its `n` bytes results in their two's complement value (R12, R210). -/
theorem loads_of_sext (hinv : s.Inv) (hpos : 0 < n) (hn : n ≤ 8)
    (he : exec i s = s.loadFrom n (sext (8 * n)) rd rs1 imm) :
    Loads i s rd (addressOf s rs1 imm) n (u64i (signedBytes n (valueAt s (addressOf s rs1 imm) n))) :=
  loads_of hinv he hn fun w hw => by rw [sext_eq_u64i n w ⟨hpos, hn⟩, hw]

/-- A load that zero-extends its `n` bytes results in their unsigned value: `n` bytes fit in `8n` bits
(R12, R210). -/
theorem loads_of_zext (hinv : s.Inv) (hn : n ≤ 8)
    (he : exec i s = s.loadFrom n (zext (8 * n)) rd rs1 imm) :
    Loads i s rd (addressOf s rs1 imm) n (u64 (valueAt s (addressOf s rs1 imm) n)) :=
  loads_of hinv he hn fun w hw => by
    have hfits : w.toNat < 2 ^ (8 * n) := hw ▸ valueAt_lt s _ n hn
    rw [zext_eq_u64 n w hfits, hw]

/-- Settles O8: funct3 selects the instruction, whose meaning is the load form with sign extension from the
width read. -/
theorem signedLoads : Obligations.SignedLoads :=
  ⟨encodedI_of_load rfl fun w h3 => by rw [decodeLoad, h3]; rfl,
    encodedI_of_load rfl fun w h3 => by rw [decodeLoad, h3]; rfl,
    encodedI_of_load rfl fun w h3 => by rw [decodeLoad, h3]; rfl,
    fun _ _ _ _ hinv => ⟨loads_of_sext hinv (by decide) (by decide) rfl,
      loads_of_sext hinv (by decide) (by decide) rfl, loads_of_sext hinv (by decide) (by decide) rfl⟩⟩

/-- Settles O9: funct3 selects the instruction, whose meaning is the load form with zero extension from the
width read. -/
theorem unsignedLoads : Obligations.UnsignedLoads :=
  ⟨encodedI_of_load rfl fun w h3 => by rw [decodeLoad, h3]; rfl,
    encodedI_of_load rfl fun w h3 => by rw [decodeLoad, h3]; rfl,
    encodedI_of_load rfl fun w h3 => by rw [decodeLoad, h3]; rfl,
    encodedI_of_load rfl fun w h3 => by rw [decodeLoad, h3]; rfl,
    fun _ _ _ _ hinv => ⟨loads_of_zext hinv (by decide) rfl, loads_of_zext hinv (by decide) rfl,
      loads_of_zext hinv (by decide) rfl, loads_of_zext hinv (by decide) rfl⟩⟩

end Sys2Proof.Machine
end

section
/-! PROOF. The conditional branches of 44_branches.md: encoding, condition, target and frame. -/

namespace Sys2Proof.Machine

open Sys2Proof.Claims

/-! ## What each condition decides (R236 to R241) -/

section
variable (x y : Word)

theorem condEq_eq_decide : condEq x y = decide (x = y) := rfl

theorem condNe_eq_not_decide : condNe x y = !decide (x = y) := rfl

theorem condLt_eq_decide : condLt x y = decide (x.toInt < y.toInt) := rfl

theorem condGe_eq_not_decide : condGe x y = !decide (x.toInt < y.toInt) := rfl

theorem condLtu_eq_decide : condLtu x y = decide (x.toNat < y.toNat) := rfl

theorem condGeu_eq_not_decide : condGeu x y = !decide (x.toNat < y.toNat) := rfl

end

/-- A branch on a negated condition falls through exactly if the condition holds: `bne`, `bge` and `bgeu` are
`beq`, `blt` and `bltu` with the two outcomes exchanged. -/
theorem moves_branchUnless {i : Instr} {s : State} {c : Word → Word → Bool} {rs1 rs2 : Reg} {o : BitVec 13}
    {P : Prop} [Decidable P] (he : exec i s = s.branchIf c rs1 rs2 o)
    (hP : c (s.readReg rs1) (s.readReg rs2) = !decide P) :
    Moves i s (if P then nextPc s else u64i (s.pc.toNat + o.toInt)) := by
  rw [← ite_not]
  exact moves_branchIf he (hP.trans decide_not.symm)

/-- Settles O13: funct3 selects the instruction, and each moves the pc as its condition on the two registers
decides. -/
theorem branchInstructions : Obligations.BranchInstructions :=
  ⟨encodedB_of _ _ rfl fun w h3 => by rw [decodeBranch, h3]; rfl,
    encodedB_of _ _ rfl fun w h3 => by rw [decodeBranch, h3]; rfl,
    encodedB_of _ _ rfl fun w h3 => by rw [decodeBranch, h3]; rfl,
    encodedB_of _ _ rfl fun w h3 => by rw [decodeBranch, h3]; rfl,
    encodedB_of _ _ rfl fun w h3 => by rw [decodeBranch, h3]; rfl,
    encodedB_of _ _ rfl fun w h3 => by rw [decodeBranch, h3]; rfl,
    fun _ _ _ _ => ⟨moves_branchIf rfl (condEq_eq_decide _ _), moves_branchUnless rfl (condNe_eq_not_decide _ _),
      moves_branchIf rfl (condLt_eq_decide _ _), moves_branchUnless rfl (condGe_eq_not_decide _ _),
      moves_branchIf rfl (condLtu_eq_decide _ _), moves_branchUnless rfl (condGeu_eq_not_decide _ _)⟩⟩

end Sys2Proof.Machine
end

section
/-! PROOF. The jump and link `jal` of 45_jumps.md: encoding, target, link, pushed frame and frame condition. -/

namespace Sys2Proof.Machine

open Sys2Proof.Claims

/-- Opcode JAL has no further key (R139, R148). -/
theorem decodeWord_jal {w : InstrWord} (h : opcodeOf w = 0x6F#7) :
    decodeWord w = .ok (.jal (rdOf w) (immJOf w)) := by
  simp [decodeWord, ne_zero_of_opcodeOf h, h]

theorem encodedJ_of_jal {p : InstrWord} (hop : opcodeOf p = 0x6F#7) : EncodedJ p .jal := by
  intro w hw
  have ho : opcodeOf w = 0x6F#7 := (opcodeOf_of_key (by decide) hw).trans hop
  rw [decodeWord_jal ho, rdOf_eq, immJOf_eq]

/-- Addition of the sign-extended jump offset is integer addition modulo 2^64 (R145, R251). -/
theorem add_immJ_eq_u64i (x : Word) (offset : BitVec 21) :
    x + immJ offset = u64i (x.toNat + offset.toInt) := by
  rw [add_eq_u64i, immJ_toInt]

section
variable (s : State) (rd : Reg)

/-- What the destination reads after a write to it, `x0` included (R21, R22). -/
theorem State.readReg_writeReg_dest (v : Word) :
    (s.writeReg rd v).readReg rd = if rd = 0 then 0 else v := by
  by_cases h : rd = 0
  · rw [if_pos h, h, State.readReg_zero]
  · rw [if_neg h, s.readReg_writeReg_same h]

/-- A jump writes the link, the call stack and the pc, and nothing else (R250), whatever the stack and the
target are. -/
theorem jumpResult_link (target : Word) (stack : List Frame) :
    JumpResult s { s.writeReg rd (s.pc + 4) with callStack := stack, pc := target } rd target stack where
  link := by rw [← pc_add_four]; exact s.readReg_writeReg_dest rd (s.pc + 4)
  others := State.readReg_of_regs_writeReg (v := s.pc + 4) rfl
  wb := s.writeReg_wb rd (s.pc + 4)
  pc := rfl
  callStack := rfl
  memSys := s.writeReg_memSys rd (s.pc + 4)
  bytes _ := rfl
  control := { s.writeReg_sameControl rd (s.pc + 4) with }
  setup := { s.writeReg_sameSetup rd (s.pc + 4) with }

end

/-- Settles O14: the opcode alone selects `jal`, and the frame it pushes is that of the link, since the write of
`rd` leaves the line table and the labels alone. -/
theorem jalEffect : Obligations.JalEffect := by
  refine ⟨encodedJ_of_jal rfl, fun s rd offset => ⟨_, rfl, ?_⟩⟩
  rw [← add_immJ_eq_u64i, ← pc_add_four]
  exact jumpResult_link s rd _ _

end Sys2Proof.Machine
end

section
/-! PROOF. The sentinel word (47_system.md R270, 50_step_and_run.md R304). -/

namespace Sys2Proof.Machine

open Sys2Proof.Claims

/-- The fetch of the next step is checked and answers the sentinel word. -/
structure State.AtSentinel (s : State) : Prop where
  mem : s.memSys.Ok s.params.memorySize
  size_lt : s.params.memorySize < 2 ^ 64
  unfaulted : s.runState ≠ .faulted
  code : s.pc.toNat < s.params.dataBase
  backed : s.pc.toNat + 4 ≤ s.params.memorySize
  word : wordAt s s.pc = 0

/-- The word at an address depends on its four backed bytes alone. -/
theorem wordAt_of_sameBytes {s t : State} {a : Word} (h : SameBytes s t)
    (ha : a.toNat + 4 ≤ s.params.memorySize) (hsize : s.params.memorySize < 2 ^ 64) :
    wordAt t a = wordAt s a :=
  congrArg (BitVec.ofNat 32) (peek_congr_add h ha hsize)

/-- A step that fetches the zero word is the meaning of the sentinel on the state after the fetch (R304). -/
theorem step_eq_exec_sentinel {s u : State} (hrun : s.runState ≠ .faulted)
    (hpc : s.pc.toNat < s.params.dataBase) (hf : s.fetch = .ok (0, u)) : step s = exec .sentinel u := by
  rw [step, cycle, if_neg hrun, if_neg (Nat.not_le.mpr hpc), hf]
  rfl

/-- The sentinel leaves the coherent bytes and the pc as they were and the core not FAULTED, so that the state
after it is again at the sentinel. -/
theorem State.AtSentinel.of_sentinelResult {s t : State} (h : s.AtSentinel) (hres : SentinelResult s t)
    (hm : t.memSys.Ok s.params.memorySize) : t.AtSentinel where
  mem := by rwa [hres.setup.params]
  size_lt := by rw [hres.setup.params]; exact h.size_lt
  unfaulted := by simp [hres.runState]
  code := by rw [hres.pc, hres.setup.params]; exact h.code
  backed := by rw [hres.pc, hres.setup.params]; exact h.backed
  word := by rw [hres.pc, wordAt_of_sameBytes hres.bytes h.backed h.size_lt, h.word]

/-- The fetch changes the memory system alone and no coherent byte, so that the step keeps what the meaning of
the sentinel keeps. -/
theorem State.AtSentinel.step_sentinelResult {s : State} (h : s.AtSentinel) :
    ∃ t, step s = .next t ∧ SentinelResult s t ∧ (∃ u, s.fetch = .ok (0, u) ∧ t.memSys = u.memSys) ∧
      t.AtSentinel := by
  obtain ⟨x, hf, hx, hbytes⟩ := fetch_answers h.mem h.size_lt h.backed
  rw [h.word] at hf
  have hexec := sentinelResult_of { s with memSys := x }
  have hres := { hexec with bytes := hbytes, setup := (fetch_setup hf).trans hexec.setup : SentinelResult s _ }
  exact ⟨_, step_eq_exec_sentinel h.unfaulted h.code hf, hres, ⟨_, hf, rfl⟩, h.of_sentinelResult hres hx⟩

/-- Settles O19: the meaning changes what `SentinelResult` names and no more, and the step from a state at the
sentinel leads to another such state, whose step does the same. -/
theorem sentinelStop : Obligations.SentinelStop := by
  refine ⟨fun s => ⟨_, rfl, sentinelResult_of s, rfl⟩, fun s hinv hrun hpc hbacked hword => ?_⟩
  obtain ⟨-, hsize, -⟩ := hinv.params
  have hs : s.AtSentinel := ⟨hinv.mem, hsize, hrun, hpc, hbacked, hword⟩
  obtain ⟨t, ht, hres, hfetch, hagain⟩ := hs.step_sentinelResult
  obtain ⟨t', ht', hres', -, -⟩ := hagain.step_sentinelResult
  exact ⟨t, ht, hres, hfetch, t', ht', hres'⟩

end Sys2Proof.Machine
end

section
/-! PROOF. The integer multiplications of 48_muldiv.md: `mul`, `mulh`, `mulhu`. -/

namespace Sys2Proof.Machine

open Sys2Proof.Claims

theorem mulLow_eq_u64 (x y : Word) : mulLow x y = u64 (x.toNat * y.toNat) := by
  simp [mulLow, u64, BitVec.ofNat_mul]

/-- Bits 127:64 of an integer, with no bound on it: reduction modulo 2^128 leaves them alone (R289). -/
theorem upperHalf_ofInt (z : Int) : upperHalf (BitVec.ofInt 128 z) = u64i (Int.fdiv z (2 ^ 64)) := by
  apply BitVec.eq_of_toNat_eq
  rw [Int.fdiv_eq_ediv_of_nonneg _ (by decide), upperHalf, u64i, BitVec.extractLsb'_toNat, BitVec.toNat_ofInt,
    BitVec.toNat_ofInt, Nat.shiftRight_eq_div_pow]
  omega

theorem upperHalf_ofNat (n : Nat) : upperHalf (BitVec.ofNat 128 n) = u64 (n / 2 ^ 64) := by
  apply BitVec.eq_of_toNat_eq
  rw [upperHalf, u64, BitVec.extractLsb'_toNat, BitVec.toNat_ofNat, BitVec.toNat_ofNat, Nat.shiftRight_eq_div_pow]
  omega

/-- The product of the sign-extended operands is the integer product modulo 2^128 (R282). -/
theorem mulHighSigned_eq (x y : Word) :
    mulHighSigned x y = u64i (Int.fdiv (x.toInt * y.toInt) (2 ^ 64)) := by
  rw [← upperHalf_ofInt, BitVec.ofInt_mul]
  rfl

/-- The product of the zero-extended operands is the natural product modulo 2^128 (R284). -/
theorem mulHighUnsigned_eq (x y : Word) : mulHighUnsigned x y = u64 (x.toNat * y.toNat / 2 ^ 64) := by
  rw [← upperHalf_ofNat, BitVec.ofNat_mul, BitVec.ofNat_toNat, BitVec.ofNat_toNat]
  rfl

/-- Settles O22: the keys select the instructions, and each result is a half of the exact integer product. -/
theorem multiplication : Obligations.Multiplication :=
  ⟨encodedR_of _ _ rfl fun w h7 h3 => by rw [decodeOp, h7, h3]; rfl,
    encodedR_of _ _ rfl fun w h7 h3 => by rw [decodeOp, h7, h3]; rfl,
    encodedR_of _ _ rfl fun w h7 h3 => by rw [decodeOp, h7, h3]; rfl,
    fun _ _ _ _ => ⟨produces_of_aluReg rfl (mulLow_eq_u64 _ _), produces_of_aluReg rfl (mulHighSigned_eq _ _),
      produces_of_aluReg rfl (mulHighUnsigned_eq _ _)⟩⟩

end Sys2Proof.Machine
end

section
/-! PROOF. The fetch guard and the status of a step (50_step_and_run.md R302, R308). -/

namespace Sys2Proof.Machine

open Sys2Proof.Claims

variable {s t u v : State}

/-! ## The status and the run state (R308) -/

/-- `t` is what a step from `s` leaves: a status, the run state it sets, and the pc of `s` under status 1 or 3. -/
def State.EndsStep (s t : State) : Prop :=
  ∃ st, t.lastStatus = some st ∧ t.runState = st.runState ∧ ((st = .ended ∨ st = .fault) → t.pc = s.pc)

theorem endsStep_takeFault (h : u.pc = s.pc) (c : Fault) : s.EndsStep (u.takeFault c) :=
  ⟨.fault, rfl, rfl, fun _ => h⟩

/-- The look-ahead gives status 0 or 2, so that nothing is asked of the pc. -/
theorem endsStep_lookAhead (s v : State) : s.EndsStep v.lookAhead := by
  obtain ⟨st, hst, hrun, hended, hfault⟩ := lookAhead_status v
  exact ⟨st, hst, hrun, fun h => (h.elim hended hfault).elim⟩

/-- The one way in which a meaning leaves the core FAULTED is fault entry (R306, R343). -/
theorem exec_faulted_eq_takeFault {i : Instr} (hi : i ≠ .sentinel) (hs : s.runState ≠ .faulted)
    (he : exec i s = .next v) (hv : v.runState = .faulted) : ∃ c, v = s.takeFault c := by
  have hcases := exec_accessFault i s hi
  split at hcases
  next c _ => exact ⟨c, Host.Outcome.next.inj (he.symm.trans hcases)⟩
  next =>
    obtain ⟨v', he', hcontrol, -⟩ := hcases
    obtain rfl : v = v' := Host.Outcome.next.inj (he.symm.trans he')
    exact absurd (hcontrol.runState.symm.trans hv) hs

/-- What the step adds around a meaning: a fault is taken at the pc before the meaning and ends the step, and
anything else goes on to the look-ahead. -/
theorem endsStep_of_exec {i : Instr} (hi : i ≠ .sentinel) (hu : u.runState ≠ .faulted) (hpc : u.pc = s.pc)
    (he : exec i u = .next v) : s.EndsStep (if v.runState = .faulted then v else v.lookAhead) := by
  by_cases hv : v.runState = .faulted
  · obtain ⟨c, rfl⟩ := exec_faulted_eq_takeFault hi hu he hv
    rw [if_pos hv]
    exact endsStep_takeFault hpc c
  · rw [if_neg hv]
    exact endsStep_lookAhead s v

theorem step_endsStep (h : step s = .next t) : s.EndsStep t := by
  cases step_effect h with
  | stopped hrun => exact ⟨.fault, rfl, hrun, fun _ => rfl⟩
  | inData => exact endsStep_takeFault rfl _
  | fetchFault c => exact endsStep_takeFault rfl c
  | sentinel w u _ _ hf => exact ⟨.ended, rfl, rfl, fun _ => by rw [(State.fetch_fields hf).2]; rfl⟩
  | executed w u i v hrun _ hf _ hi he =>
    obtain ⟨-, hu⟩ := State.fetch_fields hf
    exact endsStep_of_exec hi (by rw [hu]; exact hrun) (by rw [hu]; rfl) he
  | unhandled => exact endsStep_lookAhead s _

/-- Settles O31: by the cases of a step, each of which gives its status and the run state of it together. -/
theorem statusSetsRunState : Obligations.StatusSetsRunState := by
  intro s t h
  obtain ⟨st, hst, hrun, hpc⟩ := step_endsStep h
  exact ⟨st, hst, hrun.trans (by cases st <;> rfl), hpc⟩

/-! ## The fetch guard (R302) -/

/-- The guard comes before the fetch, so that the step is fault entry on the state as it stands. -/
theorem step_eq_takeFault_of_dataBase_le (hrun : s.runState ≠ .faulted) (hpc : s.params.dataBase ≤ s.pc.toNat) :
    step s = .next (s.takeFault .pcData) := by
  rw [step, cycle, if_neg hrun, if_pos hpc]

/-- Settles O26: the guard is fault entry and nothing else. -/
theorem pcDataFault : Obligations.PcDataFault := fun s hrun hpc =>
  ⟨s.takeFault .pcData, step_eq_takeFault_of_dataBase_le hrun hpc, faultTaken_takeFault s .pcData⟩

end Sys2Proof.Machine
end

section
/-! PROOF. Encoding and decoding are inverse to each other, and both follow the opcode table (30_encoding.md). -/

namespace Sys2Proof.Machine

open Sys2Proof.Claims

variable {w : InstrWord} {i : Instr}

/-! ## The opcodes without a further key (R148) -/

theorem decodeWord_lui (h : opcodeOf w = 0x37#7) : decodeWord w = .ok (.lui (rdOf w) (immUOf w)) := by
  simp [decodeWord, ne_zero_of_opcodeOf h, h]

theorem decodeWord_auipc (h : opcodeOf w = 0x17#7) : decodeWord w = .ok (.auipc (rdOf w) (immUOf w)) := by
  simp [decodeWord, ne_zero_of_opcodeOf h, h]

theorem decodeWord_system (h : opcodeOf w = 0x73#7) : decodeWord w = orUnhandled w (decodeSystem w) := by
  simp [decodeWord, ne_zero_of_opcodeOf h, h]

@[simp] theorem orUnhandled_some (w : InstrWord) (i : Instr) : orUnhandled w (some i) = .ok i := rfl

theorem orUnhandled_eq_ok {o : Option Instr} (h : orUnhandled w o = .ok i) : o = some i := by
  cases o with
  | none => cases h
  | some j => cases h; rfl

/-! ## Decoding an encoding -/

/-- The decoder reads back every field of every format (R132 to R146); a branch or jump offset for its bit 0,
which is not encoded, only if that is clear. -/
theorem decodeWord_encode (h : i.wf = true) : decodeWord (encode i) = .ok i := by
  have even {n : Nat} {o : BitVec n} (ho : (!o.getLsbD 0) = true) : o.getLsbD 0 = false := by simpa using ho
  cases i with
  | add | sub | sll | slt | sltu | xor | srl | sra | or | and
  | mul | mulh | mulhsu | mulhu | div | divu | rem | remu =>
    rw [encode, decodeWord_op (opcodeOf_rWord ..)]; simp [decodeOp]
  | addi | slti | sltiu | xori | ori | andi =>
    rw [encode, decodeWord_opImm (opcodeOf_iWord ..)]; simp [decodeOpImm]
  | slli | srli | srai =>
    rw [encode, decodeWord_opImm (opcodeOf_shiftWord ..)]; simp [decodeOpImm]
  | lb | lh | lw | ld | lbu | lhu | lwu =>
    rw [encode, decodeWord_load (opcodeOf_iWord ..)]; simp [decodeLoad]
  | sb | sh | sw | sd =>
    rw [encode, decodeWord_store (opcodeOf_sWord ..)]; simp [decodeStore]
  | beq | bne | blt | bge | bltu | bgeu =>
    rw [encode, decodeWord_branch (opcodeOf_bWord ..)]; simp [decodeBranch, immBOf_bWord _ _ _ _ _ (even h)]
  | jal => rw [encode, decodeWord_jal (opcodeOf_jWord ..), rdOf_jWord, immJOf_jWord _ _ _ (even h)]
  | jalr => rw [encode, decodeWord_jalr (opcodeOf_iWord ..)]; simp [decodeJalr]
  | lui => rw [encode, decodeWord_lui (opcodeOf_uWord ..), rdOf_uWord, immUOf_uWord]
  | auipc => rw [encode, decodeWord_auipc (opcodeOf_uWord ..), rdOf_uWord, immUOf_uWord]
  | ecall | ebreak | sentinel => decide

/-- Settles O40: the four bytes assemble to the encoded word, which decodes to its instruction. -/
theorem decodeOfEncode : Obligations.DecodeOfEncode := by
  intro i rest h
  rw [decode_bytesOfWord, decodeWord_encode h]

/-! ## Encoding what was decoded

A word is put together from its own fields, so that the word of its format with the keys that the decoder tested
is the word itself. -/

section
variable {op : BitVec 7} {f3 : BitVec 3}

theorem rWord_of_fields {f7 : BitVec 7} (h7 : funct7Of w = f7) (h3 : funct3Of w = f3) (ho : opcodeOf w = op) :
    rWord f7 (rs2Of w) (rs1Of w) f3 (rdOf w) op = w := by
  rw [← h7, ← h3, ← ho, rWord_fields]

theorem iWord_of_fields (h3 : funct3Of w = f3) (ho : opcodeOf w = op) :
    iWord (immIOf w) (rs1Of w) f3 (rdOf w) op = w := by
  rw [← h3, ← ho, iWord_fields]

theorem shiftWord_of_fields {f6 : BitVec 6} (h : funct3Of w = f3 ∧ funct6Of w = f6) (ho : opcodeOf w = op) :
    shiftWord f6 (shamtOf w) (rs1Of w) f3 (rdOf w) op = w := by
  obtain ⟨h3, h6⟩ := h
  rw [← h6, ← h3, ← ho, shiftWord_fields]

theorem sWord_of_fields (h3 : funct3Of w = f3) (ho : opcodeOf w = op) :
    sWord (immSOf w) (rs2Of w) (rs1Of w) f3 op = w := by
  rw [← h3, ← ho, sWord_fields]

theorem bWord_of_fields (h3 : funct3Of w = f3) (ho : opcodeOf w = op) :
    bWord (immBOf w) (rs2Of w) (rs1Of w) f3 op = w := by
  rw [← h3, ← ho, bWord_fields]

theorem uWord_of_opcode (ho : opcodeOf w = op) : uWord (immUOf w) (rdOf w) op = w := by
  rw [← ho, uWord_fields]

theorem jWord_of_opcode (ho : opcodeOf w = op) : jWord (immJOf w) (rdOf w) op = w := by
  rw [← ho, jWord_fields]

end

/-- Whatever a decoder answers is well formed and encoded by `w`. -/
def EncodedBy (w : InstrWord) (o : Option Instr) : Prop := ∀ i, o = some i → i.wf = true ∧ encode i = w

theorem EncodedBy.none : EncodedBy w none := fun _ h => nomatch h

/-- A test of a decoder on the way to its rows. -/
theorem EncodedBy.test {c : Prop} [Decidable c] {o o' : Option Instr} (h : c → EncodedBy w o)
    (h' : EncodedBy w o') : EncodedBy w (if c then o else o') := by
  split
  · exact h ‹_›
  · exact h'

/-- A row of a decoder: what was tested makes the word of its format the decoded one. -/
theorem EncodedBy.row {c : Prop} [Decidable c] {v : InstrWord} {o : Option Instr} (h : c → v = w)
    (hwf : i.wf = true) (he : encode i = v) (h' : EncodedBy w o) : EncodedBy w (if c then some i else o) := by
  refine .test (fun hc j hj => ?_) h'
  obtain rfl := Option.some.inj hj
  exact ⟨hwf, he.trans (h hc)⟩

theorem encodedBy_decodeOp (ho : opcodeOf w = 0x33#7) : EncodedBy w (decodeOp w) := by
  refine .test (fun h7 => ?_) (.test (fun h7 => ?_) (.test (fun h7 => ?_) .none))
  · iterate 8 refine .row (fun h3 => rWord_of_fields h7 h3 ho) rfl rfl ?_
    exact .none
  · iterate 2 refine .row (fun h3 => rWord_of_fields h7 h3 ho) rfl rfl ?_
    exact .none
  · iterate 8 refine .row (fun h3 => rWord_of_fields h7 h3 ho) rfl rfl ?_
    exact .none

theorem encodedBy_decodeOpImm (ho : opcodeOf w = 0x13#7) : EncodedBy w (decodeOpImm w) := by
  unfold decodeOpImm
  iterate 6 refine .row (fun h3 => iWord_of_fields h3 ho) rfl rfl ?_
  iterate 3 refine .row (fun h => shiftWord_of_fields h ho) rfl rfl ?_
  exact .none

theorem encodedBy_decodeLoad (ho : opcodeOf w = 0x03#7) : EncodedBy w (decodeLoad w) := by
  unfold decodeLoad
  iterate 7 refine .row (fun h3 => iWord_of_fields h3 ho) rfl rfl ?_
  exact .none

theorem encodedBy_decodeStore (ho : opcodeOf w = 0x23#7) : EncodedBy w (decodeStore w) := by
  unfold decodeStore
  iterate 4 refine .row (fun h3 => sWord_of_fields h3 ho) rfl rfl ?_
  exact .none

theorem encodedBy_decodeBranch (ho : opcodeOf w = 0x63#7) : EncodedBy w (decodeBranch w) := by
  unfold decodeBranch
  iterate 6 refine .row (fun h3 => bWord_of_fields h3 ho) (immBOf_even w) rfl ?_
  exact .none

theorem encodedBy_decodeJalr (ho : opcodeOf w = 0x67#7) : EncodedBy w (decodeJalr w) :=
  .row (fun h3 => iWord_of_fields h3 ho) rfl rfl .none

theorem encodedBy_decodeSystem : EncodedBy w (decodeSystem w) :=
  .row (fun h => h.symm) rfl rfl (.row (fun h => h.symm) rfl rfl .none)

/-- Settles O41: the decoder tests the whole key of the row it answers, and its operands are the other fields. -/
theorem encodeOfDecode : Obligations.EncodeOfDecode := by
  intro w i h
  by_cases hsys : opcodeOf w = 0x73#7
  · rw [decodeWord_system hsys] at h; exact encodedBy_decodeSystem i (orUnhandled_eq_ok h)
  by_cases hauipc : opcodeOf w = 0x17#7
  · rw [decodeWord_auipc hauipc] at h; cases h; exact ⟨rfl, by rw [encode, uWord_of_opcode hauipc]⟩
  by_cases hlui : opcodeOf w = 0x37#7
  · rw [decodeWord_lui hlui] at h; cases h; exact ⟨rfl, by rw [encode, uWord_of_opcode hlui]⟩
  by_cases hjalr : opcodeOf w = 0x67#7
  · rw [decodeWord_jalr hjalr] at h; exact encodedBy_decodeJalr hjalr i (orUnhandled_eq_ok h)
  by_cases hjal : opcodeOf w = 0x6F#7
  · rw [decodeWord_jal hjal] at h; cases h; exact ⟨immJOf_even w, by rw [encode, jWord_of_opcode hjal]⟩
  by_cases hbranch : opcodeOf w = 0x63#7
  · rw [decodeWord_branch hbranch] at h; exact encodedBy_decodeBranch hbranch i (orUnhandled_eq_ok h)
  by_cases hstore : opcodeOf w = 0x23#7
  · rw [decodeWord_store hstore] at h; exact encodedBy_decodeStore hstore i (orUnhandled_eq_ok h)
  by_cases hload : opcodeOf w = 0x03#7
  · rw [decodeWord_load hload] at h; exact encodedBy_decodeLoad hload i (orUnhandled_eq_ok h)
  by_cases hopImm : opcodeOf w = 0x13#7
  · rw [decodeWord_opImm hopImm] at h; exact encodedBy_decodeOpImm hopImm i (orUnhandled_eq_ok h)
  by_cases hop : opcodeOf w = 0x33#7
  · rw [decodeWord_op hop] at h; exact encodedBy_decodeOp hop i (orUnhandled_eq_ok h)
  by_cases hzero : w = 0#32
  · subst hzero; cases h; exact ⟨rfl, rfl⟩
  rw [decodeWord, if_neg hzero, if_neg hop, if_neg hopImm, if_neg hload, if_neg hstore, if_neg hbranch,
    if_neg hjal, if_neg hjalr, if_neg hlui, if_neg hauipc, if_neg hsys] at h
  cases h

theorem wf_of_decodeWord (h : decodeWord w = .ok i) : i.wf = true := by
  obtain ⟨hwf, -⟩ := encodeOfDecode w i h
  exact hwf

/-- Settles O39: by running the decoder on each word. -/
theorem knownWords : Obligations.KnownWords := by
  unfold Obligations.KnownWords
  decide

end Sys2Proof.Machine
end

section
/-! PROOF. The register shifts, `sltiu`, `mulhsu` and the divisions (40_alu_register.md, 41_alu_immediate.md,
48_muldiv.md). -/

namespace Sys2Proof.Machine

open Sys2Proof.Claims

variable (x y : Word)

/-! ## Register shifts and `sltiu` -/

theorem shiftLeft_shiftAmount : shiftLeft x (shiftAmount y) = u64 (x.toNat * 2 ^ (y.toNat % 64)) := by
  rw [shiftLeft_eq, shiftAmount_eq]

theorem shiftRightLogical_shiftAmount :
    shiftRightLogical x (shiftAmount y) = u64 (x.toNat / 2 ^ (y.toNat % 64)) := by
  rw [shiftRightLogical_eq, shiftAmount_eq]

theorem shiftRightArith_shiftAmount :
    shiftRightArith x (shiftAmount y) = u64i (Int.fdiv x.toInt (2 ^ (y.toNat % 64))) := by
  rw [shiftRightArith_eq, shiftAmount_eq]

/-- A register shift is the register-register form on the shift by the amount in the second source (R170). -/
theorem produces_of_shift {i : Instr} {s : State} {f : Word → Nat → Word} {rd rs1 rs2 : Reg} {v : Word}
    (he : exec i s = s.aluReg (fun x y => f x (shiftAmount y)) rd rs1 rs2)
    (hv : f (s.readReg rs1) (shiftAmount (s.readReg rs2)) = v) : Produces i s rd v :=
  produces_of_aluReg he hv

/-- Settles O3: funct7 selects between the two right shifts, and the low six bits of the amount are its value
modulo 64. -/
theorem registerShifts : Obligations.RegisterShifts :=
  ⟨encodedR_of _ _ rfl fun w h7 h3 => by rw [decodeOp, h7, h3]; rfl,
    encodedR_of _ _ rfl fun w h7 h3 => by rw [decodeOp, h7, h3]; rfl,
    encodedR_of _ _ rfl fun w h7 h3 => by rw [decodeOp, h7, h3]; rfl,
    fun _ _ _ _ => ⟨produces_of_shift rfl (shiftLeft_shiftAmount _ _),
      produces_of_shift rfl (shiftRightLogical_shiftAmount _ _),
      produces_of_shift rfl (shiftRightArith_shiftAmount _ _)⟩⟩

/-- The unsigned value of a word is its signed value modulo 2^64 (R12). -/
theorem toNat_eq_toInt_emod : x.toNat = (x.toInt % 2 ^ 64).toNat := by
  have := x.isLt
  rw [BitVec.toInt_eq_toNat_cond]
  split <;> omega

theorem setLessUnsigned_imm12 (imm : BitVec 12) :
    setLessUnsigned x (imm12 imm) = if x.toNat < (imm.toInt % 2 ^ 64).toNat then 1 else 0 := by
  rw [setLessUnsigned_eq, toNat_eq_toInt_emod (imm12 imm), imm12_toInt]

/-- Settles O5: the immediate is extended by its sign and the result compared by its unsigned value. -/
theorem unsignedImmediateCompare : Obligations.UnsignedImmediateCompare :=
  ⟨encodedI_of_opImm rfl fun w h3 => by rw [decodeOpImm, h3]; rfl,
    fun _ _ _ _ => produces_of_result rfl (setLessUnsigned_imm12 _ _)⟩

/-! ## `mulhsu` and the divisions -/

/-- The product of the sign-extended and the zero-extended operand is the integer product modulo 2^128. -/
theorem mulHighSignedUnsigned_eq :
    mulHighSignedUnsigned x y = u64i (Int.fdiv (x.toInt * y.toNat) (2 ^ 64)) := by
  rw [← upperHalf_ofInt, BitVec.ofInt_mul, BitVec.ofInt_natCast, BitVec.ofNat_toNat]
  rfl

/-- Settles O23: the key selects the instruction, and the result is the upper half of the exact product. -/
theorem mixedMultiplyHigh : Obligations.MixedMultiplyHigh :=
  ⟨encodedR_of _ _ rfl fun w h7 h3 => by rw [decodeOp, h7, h3]; rfl,
    fun _ _ _ _ => produces_of_aluReg rfl (mulHighSignedUnsigned_eq _ _)⟩

theorem sdiv_eq_u64i : x.sdiv y = u64i (Int.tdiv x.toInt y.toInt) := by
  apply BitVec.eq_of_toInt_eq
  rw [u64i, BitVec.toInt_ofInt, BitVec.toInt_sdiv]

theorem srem_eq_u64i : x.srem y = u64i (x.toInt - y.toInt * Int.tdiv x.toInt y.toInt) := by
  rw [← Int.tmod_def, ← BitVec.toInt_srem, u64i, BitVec.ofInt_toInt]

theorem divOverflows_eq_decide : divOverflows x y = decide (x.toInt = -2 ^ 63 ∧ y.toInt = -1) := by
  have hx : x = 0x8000000000000000#64 ↔ x.toInt = -2 ^ 63 := BitVec.toInt_inj.symm
  have hy : y = 0xFFFFFFFFFFFFFFFF#64 ↔ y.toInt = -1 := BitVec.toInt_inj.symm
  rw [divOverflows, Bool.beq_eq_decide_eq, Bool.beq_eq_decide_eq, ← Bool.decide_and, decide_eq_decide, hx, hy]

theorem divSigned_eq : divSigned x y =
    if y.toInt = 0 then 0 else if x.toInt = -2 ^ 63 ∧ y.toInt = -1 then u64 (2 ^ 63)
    else u64i (Int.tdiv x.toInt y.toInt) := by
  have hy : y = 0 ↔ y.toInt = 0 := BitVec.toInt_inj.symm
  simp only [divSigned, hy, divOverflows_eq_decide, decide_eq_true_eq, sdiv_eq_u64i]
  rfl

theorem remSigned_eq : remSigned x y =
    if y.toInt = 0 then 0 else if x.toInt = -2 ^ 63 ∧ y.toInt = -1 then 0
    else u64i (x.toInt - y.toInt * Int.tdiv x.toInt y.toInt) := by
  have hy : y = 0 ↔ y.toInt = 0 := BitVec.toInt_inj.symm
  simp only [remSigned, hy, divOverflows_eq_decide, decide_eq_true_eq, srem_eq_u64i]
  rfl

theorem divUnsigned_eq : divUnsigned x y = if y.toNat = 0 then 0 else u64 (x.toNat / y.toNat) := by
  have hy : y = 0 ↔ y.toNat = 0 := BitVec.toNat_inj.symm
  simp only [divUnsigned, hy, BitVec.udiv_eq, BitVec.udiv_def, u64]

theorem remUnsigned_eq : remUnsigned x y = if y.toNat = 0 then 0 else u64 (x.toNat % y.toNat) := by
  have hy : y = 0 ↔ y.toNat = 0 := BitVec.toNat_inj.symm
  simp only [remUnsigned, hy, BitVec.umod_eq, BitVec.umod_def, u64]

/-- Settles O24: the keys select the instructions, and the two special cases are tested before the quotient or
the remainder is taken over the integers. -/
theorem divisionAndRemainder : Obligations.DivisionAndRemainder :=
  ⟨encodedR_of _ _ rfl fun w h7 h3 => by rw [decodeOp, h7, h3]; rfl,
    encodedR_of _ _ rfl fun w h7 h3 => by rw [decodeOp, h7, h3]; rfl,
    encodedR_of _ _ rfl fun w h7 h3 => by rw [decodeOp, h7, h3]; rfl,
    encodedR_of _ _ rfl fun w h7 h3 => by rw [decodeOp, h7, h3]; rfl,
    fun _ _ _ _ => ⟨produces_of_aluReg rfl (divSigned_eq _ _), produces_of_aluReg rfl (divUnsigned_eq _ _),
      produces_of_aluReg rfl (remSigned_eq _ _), produces_of_aluReg rfl (remUnsigned_eq _ _)⟩⟩

end Sys2Proof.Machine
end

section
/-! PROOF. The stores, the effective address and the byte order (43_stores.md, 20_memory.md). -/

namespace Sys2Proof.Machine

open Sys2Proof.Claims

variable {s t : State} {a : Word} {n k : Nat} {v : Word}

/-- Settles O10: funct3 selects the instruction, whose meaning is the store form of its width. -/
theorem storeInstructions : Obligations.StoreInstructions :=
  ⟨encodedS_of _ _ rfl fun w h3 => by rw [decodeStore, h3]; rfl,
    encodedS_of _ _ rfl fun w h3 => by rw [decodeStore, h3]; rfl,
    encodedS_of _ _ rfl fun w h3 => by rw [decodeStore, h3]; rfl,
    encodedS_of _ _ rfl fun w h3 => by rw [decodeStore, h3]; rfl,
    fun _ _ _ _ hinv => ⟨stores_of hinv rfl, stores_of hinv rfl, stores_of hinv rfl, stores_of hinv rfl⟩⟩

theorem toNat_u64i (z : Int) : ((u64i z).toNat : Int) = z % 2 ^ 64 := by
  rw [u64i, BitVec.toNat_ofInt, Int.toNat_of_nonneg (Int.emod_nonneg _ (by decide))]
  rfl

/-- A checked read within bounds answers the little-endian value of the coherent bytes (R52, R56). -/
theorem State.memRead_eq_ok (hm : s.memSys.Ok s.params.memorySize) (hsize : s.params.memorySize < 2 ^ 64)
    (hn : n ≤ 8) (h : a.toNat + n ≤ s.params.memorySize) :
    ∃ t, s.memRead a n = .ok (u64 (valueAt s a n), t) ∧ SameBytes s t := by
  obtain ⟨x, hr, -, hbytes⟩ := State.memRead_ok hm hsize h
  rw [← valueAt_eq s a n hn, u64_toNat]
  exact ⟨_, hr, hbytes⟩

theorem State.memRead_uncached {t : State} (hc : s.memSys.cache = none) (h : s.memRead a n = .ok (v, t)) :
    t = s := by
  unfold State.memRead at h
  split at h
  · cases h
  · cases h; rw [readBytes_uncached _ _ hc]

theorem State.peek32_eq_wordAt (h : a.toNat + 4 ≤ s.params.memorySize) : s.peek32 a = some (wordAt s a) := by
  rw [State.peek32, if_neg (by omega), wordOfFourBytes_peek]

/-- Settles O11: the sum is that of the integers modulo 2^64, and both the checked read and the look-ahead see
the coherent bytes. -/
theorem addressAndByteOrder : Obligations.AddressAndByteOrder := by
  refine ⟨fun s rs1 imm => ?_, fun s a n hinv hn ha => ⟨?_, ?_⟩⟩
  · rw [addressOf, effectiveAddr, add_imm12_eq_u64i, toNat_u64i]
  · obtain ⟨-, hsize, -⟩ := hinv.params
    obtain ⟨t, hr, hbytes⟩ := State.memRead_eq_ok hinv.mem hsize hn ha
    have hlt := valueAt_lt s a n hn
    have hval : (u64 (valueAt s a n)).toNat = valueAt s a n :=
      Nat.mod_eq_of_lt (hlt.trans_le (Nat.pow_le_pow_right (by decide) (by omega)))
    exact ⟨_, t, hr, hval, hval.trans_lt hlt, hbytes, fun hc => State.memRead_uncached hc hr⟩
  · rintro rfl
    exact State.peek32_eq_wordAt ha

/-- `n` bytes of `v` stand at `a`, least significant first (R52). -/
def StoredAt (t : State) (a : Word) (n : Nat) (v : Nat) : Prop :=
  ∀ k, k < n → t.peekByte (a + BitVec.ofNat 64 k) = BitVec.ofNat 8 (v / 2 ^ (8 * k))

/-- What a checked write leaves: the memory system alone may have changed, the bytes stand there, and the
invariant of the memory system holds. -/
theorem State.memWrite_storedAt (hm : s.memSys.Ok s.params.memorySize) (hsize : s.params.memorySize < 2 ^ 64)
    (h : s.memWrite a n v = .ok t) : t.params = s.params ∧ t.memSys.Ok t.params.memorySize ∧
      a.toNat + n ≤ t.params.memorySize ∧ StoredAt t a n v.toNat := by
  obtain ⟨hcheck, -⟩ := State.memWrite_fields h
  obtain ⟨ha, hguard⟩ := check_eq_none.mp hcheck
  obtain ⟨x, hw, hx, hbytes⟩ := State.memWrite_ok (v := v) hm hsize ha (hguard rfl)
  obtain rfl := Except.ok.inj (hw.symm.trans h)
  refine ⟨rfl, hx, ha, fun k hk => ?_⟩
  have hak : (a + BitVec.ofNat 64 k).toNat = a.toNat + k := toNat_add_ofNat a k (by omega)
  exact (hbytes _ (by omega)).trans (by rw [if_pos (by omega), hak, Nat.add_sub_cancel_left])

/-- Bytes that stand in memory are read back as the value they are of. -/
theorem State.memRead_of_storedAt {v : Nat} (hm : t.memSys.Ok t.params.memorySize)
    (hsize : t.params.memorySize < 2 ^ 64) (hn : n ≤ 8) (ha : a.toNat + n ≤ t.params.memorySize)
    (h : StoredAt t a n v) : ∃ u, t.memRead a n = .ok (u64 (v % 2 ^ (8 * n)), u) := by
  obtain ⟨u, hr, -⟩ := State.memRead_eq_ok hm hsize hn ha
  rw [valueAt_stored t a n v (by omega) h] at hr
  exact ⟨u, hr⟩

/-- A byte of a stored value, on its own. -/
theorem StoredAt.byte {v : Nat} (h : StoredAt t a n v) (hk : k < n) :
    StoredAt t (u64 (a.toNat + k)) 1 (v / 2 ^ (8 * k)) := by
  intro j hj
  obtain rfl : j = 0 := by omega
  have haddr : u64 (a.toNat + k) + BitVec.ofNat 64 0 = a + BitVec.ofNat 64 k := by
    simp [u64, BitVec.ofNat_add]
  rw [haddr, h k hk, Nat.mul_zero, Nat.pow_zero, Nat.div_one]

/-- Settles O12: the write leaves the bytes of the value, in the order in which the reads assemble them. -/
theorem storeThenLoad : Obligations.StoreThenLoad := by
  intro s t a n v hinv hn hw
  obtain ⟨-, hsize, -⟩ := hinv.params
  obtain ⟨hparams, hm, ha, hstored⟩ := State.memWrite_storedAt hinv.mem hsize hw
  rw [← hparams] at hsize
  refine ⟨State.memRead_of_storedAt hm hsize hn ha hstored, fun k hk => ?_⟩
  refine State.memRead_of_storedAt hm hsize (by decide) ?_ (hstored.byte hk)
  rw [u64, BitVec.toNat_ofNat, Nat.mod_eq_of_lt (by omega)]
  omega

end Sys2Proof.Machine
end

section
/-! PROOF. `jalr`, a call and its return, the upper immediates and the SYSTEM words (45_jumps.md,
46_upper_immediate.md, 47_system.md). -/

namespace Sys2Proof.Machine

open Sys2Proof.Claims

/-! ## `jalr` and the return from a call -/

theorem encodedI_of_jalr {p : InstrWord} {mk : Reg → Reg → BitVec 12 → Instr} (hop : opcodeOf p = 0x67#7)
    (hd : ∀ w, funct3Of w = funct3Of p → decodeJalr w = some (mk (rdOf w) (rs1Of w) (immIOf w))) :
    EncodedI p mk :=
  encodedI_of p mk (.inl (ne_zero_of_opcodeOf hop (by decide))) decodeJalr
    (fun _ _ ho => decodeWord_jalr (ho.trans hop)) hd

/-- Settles O15: the meaning takes the target from the state before the link is written, and the clearing of
bit 0 is the rounding down to an even integer. -/
theorem jalrEffect : Obligations.JalrEffect := by
  refine ⟨encodedI_of_jalr rfl fun w h3 => by rw [decodeJalr, h3]; rfl, fun s rd rs1 imm => ⟨_, rfl, ?_⟩⟩
  rw [← jalrTarget_eq]
  exact jumpResult_link s rd _ _

/-- A return through an even address goes to that address: only a set bit 0 is cleared (R27, R252). -/
theorem jalrTarget_zero_of_even {v : Word} (h : v.toNat % 2 = 0) : jalrTarget v 0 = v := by
  have hzero : effectiveAddr v 0 = v := BitVec.add_zero v
  rw [jalrTarget, hzero, clear_bit_zero, Nat.div_mul_cancel (Nat.dvd_of_mod_eq_zero h), u64_toNat]

/-- Settles O16: the link is even, as `pc` is, so that the return goes to the link itself, and it pops the frame
that the call has pushed. -/
theorem callAndReturn : Obligations.CallAndReturn := by
  intro s offset hinv
  refine ⟨_, rfl, rfl, fun u hlink hdepth => ⟨_, rfl, ?_, ?_, fun r => ?_⟩⟩
  · have hone : (1 : Reg) ≠ 0 := by decide
    have hu : u.readReg 1 = s.pc + 4 := hlink.trans (s.readReg_writeReg_same hone _)
    show jalrTarget (u.readReg 1) 0 = nextPc s
    rw [hu, jalrTarget_zero_of_even (even_add_four _ hinv.pc_even), pc_add_four]
  · show u.callStack.tail.length = s.callStack.length
    rw [List.length_tail, hdepth]
    rfl
  · exact State.readReg_congr rfl r

/-! ## Upper immediates -/

theorem u64i_natCast_add (x : Word) (z : Int) : u64i (x.toNat + z) = x + u64i z := by
  rw [u64i, BitVec.ofInt_add, BitVec.ofInt_natCast, BitVec.ofNat_toNat]
  rfl

/-- Settles O17: the opcode alone selects the instruction, and the shifted field keeps its signed value. -/
theorem upperImmediates : Obligations.UpperImmediates :=
  ⟨encodedU_of _ _ (by decide) fun _ _ ho => decodeWord_lui ho,
    encodedU_of _ _ (by decide) fun _ _ ho => decodeWord_auipc ho,
    fun _ _ _ => ⟨produces_of_result rfl (immU_eq_u64i _),
      produces_of_result rfl (by rw [u64i_natCast_add, immU_eq_u64i])⟩⟩

/-! ## SYSTEM words -/

theorem moves_of_advance {i : Instr} {s : State} (he : exec i s = .next s.advance) : Moves i s (nextPc s) :=
  moves_of he (by rw [← pc_add_four]; rfl)

/-- Settles O18: the decoder matches the two words as a whole and rejects every other word of their opcode. -/
theorem systemWords : Obligations.SystemWords := by
  refine ⟨rfl, rfl, fun s => ⟨moves_of_advance rfl, moves_of_advance rfl⟩, fun w hop hecall hebreak => ?_⟩
  have hsys : opcodeOf w = 0x73#7 := (opcodeOf_eq_iff w _).mpr hop
  exact runsAsNop_of_no_row (decodeWord_system hsys) (by rw [decodeSystem, if_neg hecall, if_neg hebreak])

end Sys2Proof.Machine
end

section
/-! PROOF. The decoder selects by the opcode table (30_encoding.md section 3). -/

namespace Sys2Proof.Machine

open Sys2Proof.Claims

/-- A word that meets the row decodes to an instruction of the row. -/
def Dispatches (row : OpcodeRow) : Prop :=
  ∀ w : InstrWord, w &&& row.mask = row.pattern → ∃ i, decodeWord w = .ok i ∧ i.row = row

section
variable {n : String} {p m : InstrWord}

theorem dispatches_of_selected {mk : InstrWord → Instr} (h : Selected p m mk) (hrow : ∀ w, (mk w).row = ⟨n, p, m⟩) :
    Dispatches ⟨n, p, m⟩ :=
  fun w hw => ⟨mk w, h w hw, hrow w⟩

/-- A row that names a whole word. -/
theorem dispatches_of_word {i : Instr} (h : decodeWord p = .ok i) (hrow : i.row = ⟨n, p, 0xFFFFFFFF#32⟩) :
    Dispatches ⟨n, p, 0xFFFFFFFF#32⟩ := by
  intro w hw
  have hall : w &&& 0xFFFFFFFF#32 = w := BitVec.and_allOnes
  obtain rfl : w = p := hall.symm.trans hw
  exact ⟨i, h, hrow⟩

end

theorem dispatches_alu : ∀ row ∈ opcodeRowsAlu, Dispatches row := by
  obtain ⟨hadd, hsub, hslt, hsltu, -⟩ := registerArithmetic
  obtain ⟨hxor, hor, hand, -⟩ := registerLogic
  obtain ⟨hsll, hsrl, hsra, -⟩ := registerShifts
  simp only [opcodeRowsAlu, List.forall_mem_cons, List.not_mem_nil, false_imp_iff, implies_true, and_true]
  exact ⟨dispatches_of_selected hadd fun _ => rfl, dispatches_of_selected hsub fun _ => rfl,
    dispatches_of_selected hsll fun _ => rfl, dispatches_of_selected hslt fun _ => rfl,
    dispatches_of_selected hsltu fun _ => rfl, dispatches_of_selected hxor fun _ => rfl,
    dispatches_of_selected hsrl fun _ => rfl, dispatches_of_selected hsra fun _ => rfl,
    dispatches_of_selected hor fun _ => rfl, dispatches_of_selected hand fun _ => rfl⟩

theorem dispatches_imm : ∀ row ∈ opcodeRowsImm, Dispatches row := by
  obtain ⟨haddi, hslti, hxori, hori, handi, -⟩ := immediateOperations
  obtain ⟨hsltiu, -⟩ := unsignedImmediateCompare
  obtain ⟨hslli, hsrli, hsrai, -⟩ := immediateShifts
  simp only [opcodeRowsImm, List.forall_mem_cons, List.not_mem_nil, false_imp_iff, implies_true, and_true]
  exact ⟨dispatches_of_selected haddi fun _ => rfl, dispatches_of_selected hslti fun _ => rfl,
    dispatches_of_selected hsltiu fun _ => rfl, dispatches_of_selected hxori fun _ => rfl,
    dispatches_of_selected hori fun _ => rfl, dispatches_of_selected handi fun _ => rfl,
    dispatches_of_selected hslli fun _ => rfl, dispatches_of_selected hsrli fun _ => rfl,
    dispatches_of_selected hsrai fun _ => rfl⟩

theorem dispatches_load : ∀ row ∈ opcodeRowsLoad, Dispatches row := by
  obtain ⟨hlb, hlh, hlw, -⟩ := signedLoads
  obtain ⟨hld, hlbu, hlhu, hlwu, -⟩ := unsignedLoads
  simp only [opcodeRowsLoad, List.forall_mem_cons, List.not_mem_nil, false_imp_iff, implies_true, and_true]
  exact ⟨dispatches_of_selected hlb fun _ => rfl, dispatches_of_selected hlh fun _ => rfl,
    dispatches_of_selected hlw fun _ => rfl, dispatches_of_selected hld fun _ => rfl,
    dispatches_of_selected hlbu fun _ => rfl, dispatches_of_selected hlhu fun _ => rfl,
    dispatches_of_selected hlwu fun _ => rfl⟩

theorem dispatches_store : ∀ row ∈ opcodeRowsStore, Dispatches row := by
  obtain ⟨hsb, hsh, hsw, hsd, -⟩ := storeInstructions
  simp only [opcodeRowsStore, List.forall_mem_cons, List.not_mem_nil, false_imp_iff, implies_true, and_true]
  exact ⟨dispatches_of_selected hsb fun _ => rfl, dispatches_of_selected hsh fun _ => rfl,
    dispatches_of_selected hsw fun _ => rfl, dispatches_of_selected hsd fun _ => rfl⟩

theorem dispatches_branch : ∀ row ∈ opcodeRowsBranch, Dispatches row := by
  obtain ⟨hbeq, hbne, hblt, hbge, hbltu, hbgeu, -⟩ := branchInstructions
  simp only [opcodeRowsBranch, List.forall_mem_cons, List.not_mem_nil, false_imp_iff, implies_true, and_true]
  exact ⟨dispatches_of_selected hbeq fun _ => rfl, dispatches_of_selected hbne fun _ => rfl,
    dispatches_of_selected hblt fun _ => rfl, dispatches_of_selected hbge fun _ => rfl,
    dispatches_of_selected hbltu fun _ => rfl, dispatches_of_selected hbgeu fun _ => rfl⟩

theorem dispatches_other : ∀ row ∈ opcodeRowsOther, Dispatches row := by
  obtain ⟨hjal, -⟩ := jalEffect
  obtain ⟨hjalr, -⟩ := jalrEffect
  obtain ⟨hlui, hauipc, -⟩ := upperImmediates
  obtain ⟨hecall, hebreak, -⟩ := systemWords
  simp only [opcodeRowsOther, List.forall_mem_cons, List.not_mem_nil, false_imp_iff, implies_true, and_true]
  exact ⟨dispatches_of_selected hjal fun _ => rfl, dispatches_of_selected hjalr fun _ => rfl,
    dispatches_of_selected hlui fun _ => rfl, dispatches_of_selected hauipc fun _ => rfl,
    dispatches_of_word hecall rfl, dispatches_of_word hebreak rfl⟩

theorem dispatches_mulDiv : ∀ row ∈ opcodeRowsMulDiv, Dispatches row := by
  obtain ⟨hmul, hmulh, hmulhu, -⟩ := multiplication
  obtain ⟨hmulhsu, -⟩ := mixedMultiplyHigh
  obtain ⟨hdiv, hdivu, hrem, hremu, -⟩ := divisionAndRemainder
  simp only [opcodeRowsMulDiv, List.forall_mem_cons, List.not_mem_nil, false_imp_iff, implies_true, and_true]
  exact ⟨dispatches_of_selected hmul fun _ => rfl, dispatches_of_selected hmulh fun _ => rfl,
    dispatches_of_selected hmulhsu fun _ => rfl, dispatches_of_selected hmulhu fun _ => rfl,
    dispatches_of_selected hdiv fun _ => rfl, dispatches_of_selected hdivu fun _ => rfl,
    dispatches_of_selected hrem fun _ => rfl, dispatches_of_selected hremu fun _ => rfl⟩

theorem dispatches_sentinel : ∀ row ∈ opcodeRowsSentinel, Dispatches row := by
  simp only [opcodeRowsSentinel, List.forall_mem_cons, List.not_mem_nil, false_imp_iff, implies_true, and_true]
  exact dispatches_of_word (i := .sentinel) rfl rfl

theorem dispatches_of_mem : ∀ row ∈ opcodeTable, Dispatches row := by
  simp only [opcodeTable, List.forall_mem_append]
  exact ⟨⟨⟨⟨⟨⟨⟨dispatches_alu, dispatches_imm⟩, dispatches_load⟩, dispatches_store⟩, dispatches_branch⟩,
    dispatches_other⟩, dispatches_mulDiv⟩, dispatches_sentinel⟩

theorem row_mem_opcodeTable (i : Instr) : i.row ∈ opcodeTable := by
  cases i <;> simp [Instr.row, opcodeTable, opcodeRowsAlu, opcodeRowsImm, opcodeRowsLoad, opcodeRowsStore,
    opcodeRowsBranch, opcodeRowsOther, opcodeRowsMulDiv, opcodeRowsSentinel]

/-- The word of an instruction meets the instruction's own row: the per-instruction family. -/
theorem tableRow (i : Instr) : Laws.TableRow.Statement i := by
  cases i with
  | add | sub | sll | slt | sltu | xor | srl | sra | or | and
  | mul | mulh | mulhsu | mulhu | div | divu | rem | remu => exact (rWord_key ..).trans rfl
  | addi | slti | sltiu | xori | ori | andi | lb | lh | lw | ld | lbu | lhu | lwu | jalr =>
    exact (iWord_key ..).trans rfl
  | slli | srli | srai => exact (shiftWord_key ..).trans rfl
  | sb | sh | sw | sd => exact (sWord_key ..).trans rfl
  | beq | bne | blt | bge | bltu | bgeu => exact (bWord_key ..).trans rfl
  | jal => exact (jWord_key ..).trans rfl
  | lui | auipc => exact (uWord_key ..).trans rfl
  | ecall => exact Laws.TableRow.ecall
  | ebreak => exact Laws.TableRow.ebreak
  | sentinel => exact Laws.TableRow.sentinel

/-- Settles O42: a decoded word is the encoding of its instruction, which meets its own row; each row selects its
instruction; and a word that meets two rows would decode to instructions of both. -/
theorem tableDispatch : Obligations.TableDispatch := by
  refine ⟨rfl, fun w i hi => ⟨row_mem_opcodeTable i, ?_⟩, fun w row hrow hw => dispatches_of_mem row hrow w hw,
    fun w row row' hrow hrow' hw hw' => ?_⟩
  · obtain ⟨-, rfl⟩ := encodeOfDecode w i hi
    exact tableRow i
  · obtain ⟨i, hi, rfl⟩ := dispatches_of_mem row hrow w hw
    obtain ⟨j, hj, rfl⟩ := dispatches_of_mem row' hrow' w hw'
    rw [Except.ok.inj (hi.symm.trans hj)]

end Sys2Proof.Machine
end

section
/-! PROOF. Everything one step does, case by case, and the rules of the step that follow (50_step_and_run.md
section 2, 60_exceptions.md, 43_stores.md). -/

namespace Sys2Proof.Machine

open Sys2Proof.Claims

variable {s t u v : State} {w : InstrWord} {i : Instr}

/-! ## The fetch -/

/-- The step passes the guard and its fetch answers the word `w` and the state `u` (R301 to R303). -/
structure State.Fetches (s : State) (w : InstrWord) (u : State) : Prop where
  unfaulted : s.runState ≠ .faulted
  code : s.pc.toNat < s.params.dataBase
  fetch : s.fetch = .ok (w, u)

theorem State.Fetches.eq_memSys (h : s.Fetches w u) : u = { s with memSys := u.memSys } := by
  obtain ⟨-, hu⟩ := State.fetch_fields h.fetch
  exact hu

theorem State.Fetches.backed (h : s.Fetches w u) : s.pc.toNat + 4 ≤ s.params.memorySize := by
  obtain ⟨hcheck, -⟩ := State.fetch_fields h.fetch
  exact (check_eq_none.mp hcheck).1

theorem State.Fetches.setup (h : s.Fetches w u) : SameSetup s u := fetch_setup h.fetch

/-- The fetch sees the coherent bytes and keeps them, and the invariant of the memory system. -/
theorem State.Fetches.coherent (h : s.Fetches w u) (hinv : s.Inv) :
    w = wordAt s s.pc ∧ u.memSys.Ok s.params.memorySize ∧ SameBytes s u := by
  obtain ⟨-, hsize, -⟩ := hinv.params
  obtain ⟨x, hf, hx, hbytes⟩ := fetch_answers hinv.mem hsize h.backed
  obtain ⟨rfl, rfl⟩ := Prod.mk.inj (Except.ok.inj (h.fetch.symm.trans hf))
  exact ⟨rfl, hx, hbytes⟩

/-- Within the code region and backed, the fetch answers. -/
theorem State.Inv.fetches (hinv : s.Inv) (hrun : s.runState ≠ .faulted) (hpc : s.pc.toNat < s.params.dataBase)
    (hbacked : s.pc.toNat + 4 ≤ s.params.memorySize) : ∃ u, s.Fetches (wordAt s s.pc) u := by
  obtain ⟨-, hsize, -⟩ := hinv.params
  obtain ⟨x, hf, -⟩ := fetch_answers hinv.mem hsize hbacked
  exact ⟨_, hrun, hpc, hf⟩

/-- After the fetch the step is the fetched word, classified and run. -/
theorem State.Fetches.step_eq (h : s.Fetches w u) : step s = runWord w u := by
  rw [step, cycle, if_neg h.unfaulted, if_neg (Nat.not_le.mpr h.code), h.fetch]

/-! ## The cases of a step -/

/-- What a fetched word other than the sentinel does without a fault: the meaning of its instruction, or the
no-op of a word that decodes to none (R272, R305). -/
inductive Completes (w : InstrWord) (s : State) : State → Prop
  | instr {i : Instr} {v : State} (hw : decodeWord w = .ok i) (hi : i ≠ .sentinel)
      (hc : accessFault s i = none) (he : exec i s = .next v) : Completes w s v
  | nop {r : DecodeReject} (hw : decodeWord w = .error r) : Completes w s s.advance

/-- Every way in which a step answers a next state. It refines `StepEffect` by what decides between a fault and a
completion. -/
inductive StepCase (s : State) : State → Prop
  | stopped (hrun : s.runState = .faulted) : StepCase s { s with lastStatus := some .fault }
  | inData (hrun : s.runState ≠ .faulted) (hpc : s.params.dataBase ≤ s.pc.toNat) :
      StepCase s (s.takeFault .pcData)
  | unbacked (hrun : s.runState ≠ .faulted) (hpc : s.pc.toNat < s.params.dataBase)
      (hoob : s.params.memorySize < s.pc.toNat + 4) : StepCase s (s.takeFault .oob)
  | ended {w : InstrWord} {u : State} (hf : s.Fetches w u) (hw : decodeWord w = .ok .sentinel) :
      StepCase s { u.callStackClear with runState := .halted, lastStatus := some .ended }
  | faulted {w : InstrWord} {u : State} {i : Instr} {c : Fault} (hf : s.Fetches w u)
      (hw : decodeWord w = .ok i) (hc : accessFault u.beginInstr i = some c) :
      StepCase s (u.beginInstr.takeFault c)
  | completed {w : InstrWord} {u v : State} (hf : s.Fetches w u) (hv : Completes w u.beginInstr v) :
      StepCase s v.lookAhead

/-- A meaning either takes the fault of its data access or leaves the control state alone. -/
theorem stepCase_of_exec (hf : s.Fetches w u) (hw : decodeWord w = .ok i) (hi : i ≠ .sentinel)
    (he : exec i u.beginInstr = .next v) : StepCase s (if v.runState = .faulted then v else v.lookAhead) := by
  have hcases := exec_accessFault i u.beginInstr hi
  cases hc : accessFault u.beginInstr i with
  | some c =>
    rw [hc] at hcases
    obtain rfl := Host.Outcome.next.inj (he.symm.trans hcases)
    exact .faulted hf hw hc
  | none =>
    rw [hc] at hcases
    obtain ⟨v', he', hcontrol, -⟩ := hcases
    obtain rfl := Host.Outcome.next.inj (he.symm.trans he')
    have hrun : v.runState ≠ .faulted := by
      rw [hcontrol.runState, hf.eq_memSys]
      exact hf.unfaulted
    rw [if_neg hrun]
    exact .completed hf (.instr hw hi hc he)

theorem step_case (h : step s = .next t) : StepCase s t := by
  cases step_effect h with
  | stopped hrun => exact .stopped hrun
  | inData hrun hpc => exact .inData hrun hpc
  | fetchFault c hrun hpc hc =>
    rw [check_eq_some] at hc
    split_ifs at hc with hoob hwrite
    · obtain rfl := Option.some.inj hc
      exact .unbacked hrun hpc hoob
    · exact absurd hwrite.1 (by decide)
  | sentinel w u hrun hpc hf hw => exact .ended ⟨hrun, hpc, hf⟩ hw
  | executed w u i v hrun hpc hf hw hi he => exact stepCase_of_exec ⟨hrun, hpc, hf⟩ hw hi he
  | unhandled w u r hrun hpc hf hw => exact .completed ⟨hrun, hpc, hf⟩ (.nop hw)

section
variable (h : Completes w s v)
include h

theorem Completes.effect : Effect s v := by
  cases h with
  | instr hw _ _ he =>
    obtain ⟨v', he', heff⟩ := exec_effect _ (wf_of_decodeWord hw) s
    obtain rfl := Host.Outcome.next.inj (he.symm.trans he')
    exact heff
  | nop => exact .advanced

theorem Completes.control : SameControl s v := by
  cases h with
  | @instr i v _ hi hc he =>
    have hcases := exec_accessFault i s hi
    rw [hc] at hcases
    obtain ⟨v', he', hcontrol, -⟩ := hcases
    obtain rfl := Host.Outcome.next.inj (he.symm.trans he')
    exact hcontrol
  | nop => exact ⟨rfl, rfl, rfl, rfl⟩

end

/-! ## Totality, and the unhandled word -/

theorem exec_answers (hw : decodeWord w = .ok i) (s : State) : ∃ v, exec i s = .next v := by
  obtain ⟨v, hv, -⟩ := exec_effect i (wf_of_decodeWord hw) s
  exact ⟨v, hv⟩

theorem runInstr_answers (hw : decodeWord w = .ok i) (s : State) : ∃ v, runInstr i s = .next v := by
  unfold runInstr
  split
  · exact exec_answers hw s
  · obtain ⟨v, hv⟩ := exec_answers hw s.beginInstr
    rw [hv]
    exact ⟨_, rfl⟩

theorem runWord_of_ok (hw : decodeWord w = .ok i) (s : State) : runWord w s = runInstr i s := by
  rw [runWord, hw]

theorem runWord_of_error {r : DecodeReject} (hw : decodeWord w = .error r) (s : State) :
    runWord w s = runUnhandled w s := by
  rw [runWord, hw]

/-- Settles O34: by the order of the step; every meaning answers, and so does a word without one unless
STRICT_DECODE is set. -/
theorem stepIsTotal : Obligations.StepIsTotal := by
  intro s
  by_cases hrun : s.runState = .faulted
  · exact .inl ⟨_, by rw [step, cycle, if_pos hrun]⟩
  by_cases hpc : s.params.dataBase ≤ s.pc.toNat
  · exact .inl ⟨_, step_eq_takeFault_of_dataBase_le hrun hpc⟩
  cases hfetch : s.fetch with
  | error c => exact .inl ⟨_, by rw [step, cycle, if_neg hrun, if_neg hpc, hfetch]⟩
  | ok r =>
    obtain ⟨w, u⟩ := r
    have hf : s.Fetches w u := ⟨hrun, Nat.not_le.mp hpc, hfetch⟩
    cases hw : decodeWord w with
    | ok i =>
      rw [hf.step_eq, runWord_of_ok hw]
      exact .inl (runInstr_answers hw u)
    | error r =>
      rw [hf.step_eq, runWord_of_error hw, runUnhandled, hf.setup.params]
      cases hstrict : s.params.strictDecode with
      | false => exact .inl ⟨_, rfl⟩
      | true => exact .inr ⟨rfl, hrun, hf.code, w, u, r, rfl, hw, rfl⟩

/-- Settles O20: after the fetch the step is the run of the unhandled word. -/
theorem unhandledWordIsNop : Obligations.UnhandledWordIsNop := by
  intro s u w r hrun hpc hfetch hw
  have hf : s.Fetches w u := ⟨hrun, hpc, hfetch⟩
  rw [hf.step_eq, ← hf.setup.params]
  refine ⟨fun hstrict => ?_, fun hstrict => ?_⟩
  · exact runsAsNop_of_decodeWord_error hw u hstrict (by rw [hf.eq_memSys]; exact hrun)
  · rw [runWord_of_error hw, runUnhandled, if_pos hstrict]

/-! ## The FAULTED core, and the decoded instruction -/

theorem Status.eq_fault_of_runState {st : Status} (h : st.runState = .faulted) : st = .fault := by
  cases st with
  | fault => rfl
  | normal | ended | halted => cases h

/-- Settles O29: in the invariant a FAULTED core has status 3 as its last, which its step returns again. -/
theorem faultedStepDoesNothing : Obligations.FaultedStepDoesNothing := by
  intro s hinv hrun
  have hstatus : s.lastStatus = some .fault := by
    have := hinv.status.symm.trans hrun
    cases hs : s.lastStatus with
    | none => rw [hs] at this; cases this
    | some st => rw [hs] at this; rw [Status.eq_fault_of_runState this]
  refine ⟨hstatus, ?_⟩
  rw [step, cycle, if_pos hrun, ← hstatus]

/-- The four bytes that a fetch reads decode as the word it answers. -/
theorem decodeWord_wordAt_of_decode
    (h : decode [s.peekByte s.pc, s.peekByte (s.pc + 1), s.peekByte (s.pc + 2), s.peekByte (s.pc + 3)] =
      .ok (i, [])) : decodeWord (wordAt s s.pc) = .ok i := by
  rw [decode, wordOfFourBytes_peek] at h
  cases hw : decodeWord (wordAt s s.pc) with
  | ok j => rw [hw] at h; cases h; rfl
  | error r => rw [hw] at h; cases h

theorem State.fetch_uncached (hc : s.memSys.cache = none) (h : s.fetch = .ok (w, u)) : u = s := by
  unfold State.fetch at h
  split at h
  · cases h
  next v t hr => cases h; exact State.memRead_uncached hc hr

/-- Settles O30: the fetched word is the encoding of `i`, and the state after the fetch differs from the state
before it in the memory system alone, so that the refreshed line is the same. -/
theorem stepRunsDecoded : Obligations.StepRunsDecoded := by
  intro s i hinv hrun hpc hbacked hdecode
  have hw := decodeWord_wordAt_of_decode hdecode
  obtain ⟨-, hencode⟩ := encodeOfDecode _ _ hw
  obtain ⟨u, hf⟩ := hinv.fetches hrun hpc hbacked
  obtain ⟨-, -, hbytes⟩ := hf.coherent hinv
  refine ⟨u, by rw [hencode]; exact hf.fetch, hf.eq_memSys, hbytes, hf.setup,
    fun hc => State.fetch_uncached hc hf.fetch, ?_⟩
  have hbegin : u.beginInstr =
      { u with wb := none, callStack := refreshTop (s.lineAt s.pc) s.callStack } := by
    rw [hf.eq_memSys]; rfl
  rw [hf.step_eq, runWord_of_ok hw, runInstr, hbegin]
  rfl

end Sys2Proof.Machine
end

section
/-! PROOF. Faults, the look-ahead, registers and memory over one step (50_step_and_run.md section 2,
60_exceptions.md, 20_memory.md section 6). -/

namespace Sys2Proof.Machine

open Sys2Proof.Claims

variable {s t u v : State} {w : InstrWord} {i : Instr} {c : Fault}

/-! ## The fault of a step (R347) -/

theorem stepFault_of_inData (hpc : s.params.dataBase ≤ s.pc.toNat) : stepFault s = some .pcData := if_pos hpc

theorem stepFault_of_unbacked (hpc : s.pc.toNat < s.params.dataBase)
    (hoob : s.params.memorySize < s.pc.toNat + 4) : stepFault s = some .oob := by
  rw [stepFault, if_neg (Nat.not_le.mpr hpc), if_pos hoob]

section
variable (hf : s.Fetches w u) (hinv : s.Inv)
include hf hinv

theorem State.Fetches.stepFault_of_ok (hw : decodeWord w = .ok i) : stepFault s = accessFault s i := by
  obtain ⟨hword, -⟩ := hf.coherent hinv
  rw [stepFault, if_neg (Nat.not_le.mpr hf.code), if_neg (Nat.not_lt.mpr hf.backed), ← hword, hw]

theorem State.Fetches.stepFault_of_error {r : DecodeReject} (hw : decodeWord w = .error r) :
    stepFault s = none := by
  obtain ⟨hword, -⟩ := hf.coherent hinv
  rw [stepFault, if_neg (Nat.not_le.mpr hf.code), if_neg (Nat.not_lt.mpr hf.backed), ← hword, hw]

end

/-- The registers and the parameters, on which the fault of a data access depends, are those before the fetch. -/
theorem State.Fetches.accessFault_beginInstr (hf : s.Fetches w u) (i : Instr) :
    accessFault u.beginInstr i = accessFault s i := by
  have hu := hf.eq_memSys
  exact accessFault_congr (by rw [hu]; rfl) (by rw [hu]; rfl) i

theorem State.Fetches.stepFault_of_access (hf : s.Fetches w u) (hinv : s.Inv) (hw : decodeWord w = .ok i)
    (hc : accessFault u.beginInstr i = some c) : stepFault s = some c := by
  rw [hf.stepFault_of_ok hinv hw, ← hc, hf.accessFault_beginInstr]

theorem State.Fetches.stepFault_of_sentinel (hf : s.Fetches w u) (hinv : s.Inv)
    (hw : decodeWord w = .ok .sentinel) : stepFault s = none :=
  hf.stepFault_of_ok hinv hw

theorem State.Fetches.stepFault_of_completes (hf : s.Fetches w u) (hinv : s.Inv)
    (hv : Completes w u.beginInstr v) : stepFault s = none := by
  cases hv with
  | instr hw _ hc => rw [hf.stepFault_of_ok hinv hw, ← hc, hf.accessFault_beginInstr]
  | nop hw => exact hf.stepFault_of_error hinv hw

/-- While the core is not FAULTED it holds no cause (R32). -/
theorem State.Inv.faultCause_eq_none (hinv : s.Inv) (hrun : s.runState ≠ .faulted) : s.faultCause = none := by
  by_contra hc
  exact hrun (hinv.cause.mp (Option.isSome_iff_ne_none.mpr hc))

theorem State.Fetches.faultCause (hf : s.Fetches w u) (hinv : s.Inv) : u.faultCause = none := by
  rw [hf.eq_memSys]
  exact hinv.faultCause_eq_none hf.unfaulted

theorem lookAhead_lastStatus_ne_fault (v : State) : v.lookAhead.lastStatus ≠ some .fault := by
  obtain ⟨st, hst, -, -, hfault⟩ := lookAhead_status v
  rw [hst]
  exact fun h => hfault (Option.some.inj h)

/-- Settles O27: by the cases of the step, in each of which `stepFault` passes the same tests. -/
theorem faultPriority : Obligations.FaultPriority := by
  intro s t hinv hrun h
  cases step_case h with
  | stopped hrun' => exact absurd hrun' hrun
  | inData _ hpc => simp [stepFault_of_inData hpc]
  | unbacked _ hpc hoob => simp [stepFault_of_unbacked hpc hoob]
  | ended hf hw => simp [hf.stepFault_of_sentinel hinv hw, hf.faultCause hinv]
  | faulted hf hw hc => simp [hf.stepFault_of_access hinv hw hc]
  | completed hf hv =>
    have hcause := hv.control.faultCause.trans (hf.faultCause hinv)
    have hstatus := lookAhead_lastStatus_ne_fault
    simp [hf.stepFault_of_completes hinv hv, hcause, hstatus, -State.lookAhead_lastStatus]

/-- Settles O28: a fault of the guard or of the fetch is taken on the state as it stands, one of the data access
on the state after the fetch, with the record emptied and the top line refreshed. -/
theorem faultEntry : Obligations.FaultEntry := by
  intro s t hinv hrun h hstatus
  cases step_case h with
  | stopped hrun' => exact absurd hrun' hrun
  | inData _ hpc =>
    refine ⟨.pcData, stepFault_of_inData hpc, rfl, rfl, rfl, rfl, fun _ => rfl, fun _ _ => rfl,
      ⟨rfl, rfl, rfl, rfl, rfl, rfl⟩, ?_⟩
    rw [if_pos (.inl hpc)]
    exact ⟨rfl, rfl, rfl⟩
  | unbacked _ hpc hoob =>
    refine ⟨.oob, stepFault_of_unbacked hpc hoob, rfl, rfl, rfl, rfl, fun _ => rfl, fun _ _ => rfl,
      ⟨rfl, rfl, rfl, rfl, rfl, rfl⟩, ?_⟩
    rw [if_pos (.inr hoob)]
    exact ⟨rfl, rfl, rfl⟩
  | ended => cases hstatus
  | @faulted w u i c hf hw hc =>
    obtain ⟨-, -, hbytes⟩ := hf.coherent hinv
    have hu := hf.eq_memSys
    have hsetup := hf.setup
    refine ⟨c, hf.stepFault_of_access hinv hw hc, rfl, rfl, by rw [hu]; rfl, by rw [hu]; rfl,
      State.readReg_congr (by rw [hu]; rfl), hbytes, { hsetup with }, ?_⟩
    have hpass : ¬ (s.params.dataBase ≤ s.pc.toNat ∨ s.params.memorySize < s.pc.toNat + 4) := by
      have := hf.code
      have := hf.backed
      omega
    rw [if_neg hpass]
    exact ⟨rfl, by rw [hu]; rfl, w, u, hf.fetch, rfl⟩
  | completed => exact absurd hstatus (lookAhead_lastStatus_ne_fault _)

/-! ## The look-ahead (R307) -/

/-- A step of status 0 or 2 is one that completed. -/
theorem step_completed (h : step s = .next t) (hst : t.lastStatus = some .normal ∨ t.lastStatus = some .halted) :
    ∃ w u v, s.Fetches w u ∧ Completes w u.beginInstr v ∧ t = v.lookAhead := by
  cases step_case h with
  | completed hf hv => exact ⟨_, _, _, hf, hv, rfl⟩
  | stopped | inData | unbacked | ended | faulted => simp at hst

theorem lookAhead_lastStatus_eq_halted_iff (v : State) :
    v.lookAhead.lastStatus = some .halted ↔ v.haltsAhead = true := by
  rw [State.lookAhead_lastStatus]
  split <;> simp_all

/-- The look-ahead sets the run state and the status, which it does not read. -/
theorem haltsAhead_lookAhead (v : State) : v.lookAhead.haltsAhead = v.haltsAhead := by
  simp [State.haltsAhead, State.peek32, lookAhead_peekByte]

/-- A step that completed has status 2 exactly if the state it leaves halts ahead. -/
theorem step_halted_iff (h : step s = .next t) (hst : t.lastStatus = some .normal ∨ t.lastStatus = some .halted) :
    t.lastStatus = some .halted ↔ t.haltsAhead = true := by
  obtain ⟨-, -, v, -, -, rfl⟩ := step_completed h hst
  rw [lookAhead_lastStatus_eq_halted_iff, haltsAhead_lookAhead]

/-- Settles O32: the look-ahead decides by the state the step leaves, and reads the coherent word there. -/
theorem lookAheadHalts : Obligations.LookAheadHalts := fun _ t _ h hst =>
  (step_halted_iff h hst).trans (haltsAhead_iff t)

/-! ## Registers and the setup (10_state.md) -/

theorem State.Fetches.beginInstr_setup (hf : s.Fetches w u) : SameSetup s u.beginInstr := by
  have hsetup := hf.setup
  exact { hsetup with }

theorem step_sameSetup (h : step s = .next t) : SameSetup s t := by
  cases step_case h with
  | stopped | inData | unbacked => exact ⟨rfl, rfl, rfl, rfl, rfl, rfl⟩
  | ended hf => have hsetup := hf.setup; exact { hsetup with }
  | faulted hf => have hsetup := hf.beginInstr_setup; exact { hsetup with }
  | completed hf hv =>
    exact (hf.beginInstr_setup.trans (effect_setup hv.effect)).trans (lookAhead_setup _)

theorem State.Fetches.readReg (hf : s.Fetches w u) (r : Reg) : u.beginInstr.readReg r = s.readReg r :=
  State.readReg_congr (by rw [hf.eq_memSys]; rfl) r

/-- Settles O35: no step writes the setup; one that completed writes at most one register, which its record names,
and one that ended or faulted writes none. -/
theorem oneRegisterWrite : Obligations.OneRegisterWrite := by
  intro s t h
  refine ⟨step_sameSetup h, fun hst => ?_, fun hst => ?_⟩
  · obtain ⟨w, u, v, hf, hv, rfl⟩ := step_completed h hst
    have hregs : ∀ r, v.lookAhead.readReg r = v.readReg r := State.readReg_congr v.lookAhead_regs
    simp only [State.lookAhead_wb, hregs, ← hf.readReg]
    exact effect_regs hv.effect rfl
  · cases step_case h with
    | stopped | inData | unbacked => exact fun _ => rfl
    | ended hf | faulted hf => exact hf.readReg
    | completed =>
      obtain ⟨st, hlast, -, hended, hfault⟩ := lookAhead_status _
      rw [hlast] at hst
      simp [hended, hfault] at hst

/-- Settles O33: the set laws of the sorted list, and the look-ahead finds the index of the new pc in it. -/
theorem breakpointCommands : Obligations.BreakpointCommands := by
  refine ⟨fun s k hs => ⟨⟨s.bpSet k, rfl, rfl, insertIndex_spec k _ hs⟩,
    ⟨s.bpClear k, rfl, rfl, hs.filter _, fun j => ?_⟩, rfl⟩, fun s t k h hst hk hpc => ?_⟩
  · simp [State.bpClear, removeIndex, and_comm]
  · have hbp := (step_sameSetup h).breakpoints
    refine (step_halted_iff h hst).mpr ((haltsAhead_iff t).mpr (.inl ?_))
    rwa [hbp, hpc, Nat.mul_div_cancel_left k (by decide)]

/-! ## Bytes (20_memory.md section 6) -/

theorem sameBytes_trans (h : SameBytes s t) (hp : t.params = s.params) (h' : SameBytes t u) :
    SameBytes s u :=
  fun a ha => (h' a (by rwa [hp])).trans (h a ha)

theorem sameBytes_lookAhead (v : State) : SameBytes v v.lookAhead := fun a _ => lookAhead_peekByte v a

theorem State.Fetches.beginInstr_bytes (hf : s.Fetches w u) (hinv : s.Inv) : SameBytes s u.beginInstr := by
  obtain ⟨-, -, hbytes⟩ := hf.coherent hinv
  exact hbytes

theorem State.Fetches.beginInstr_memSys (hf : s.Fetches w u) (hinv : s.Inv) :
    u.beginInstr.memSys.Ok u.beginInstr.params.memorySize ∧ u.beginInstr.params.memorySize < 2 ^ 64 := by
  obtain ⟨-, hx, -⟩ := hf.coherent hinv
  obtain ⟨-, hsize, -⟩ := hinv.params
  rw [hf.beginInstr_setup.params]
  exact ⟨hx, hsize⟩

/-- Only the completion of a store changes a byte. -/
theorem Completes.sameBytes (hv : Completes w s v) (hm : s.memSys.Ok s.params.memorySize)
    (hsize : s.params.memorySize < 2 ^ 64) (hstore : ∀ i, decodeWord w = .ok i → isStore i = false) :
    SameBytes s v := by
  cases hv with
  | instr hw _ _ he => exact exec_bytes _ s v (hstore _ hw) (wf_of_decodeWord hw) hm hsize he
  | nop => exact fun _ _ => rfl

/-- Settles O36: the fetch keeps the bytes, and so does everything after it but the completion of a store. -/
theorem onlyStoresChangeMemory : Obligations.OnlyStoresChangeMemory := by
  intro s t hinv h hcase
  cases step_case h with
  | stopped | inData | unbacked => exact fun _ _ => rfl
  | ended hf => exact hf.beginInstr_bytes hinv
  | faulted hf => exact hf.beginInstr_bytes hinv
  | @completed w u v hf hv =>
    have hstore := hcase.resolve_right (lookAhead_lastStatus_ne_fault v)
    obtain ⟨hw, -⟩ := hf.coherent hinv
    obtain ⟨hm, hsize⟩ := hf.beginInstr_memSys hinv
    have hparams : v.params = s.params :=
      (effect_setup hv.effect).params.trans hf.beginInstr_setup.params
    rw [← hw] at hstore
    exact sameBytes_trans (sameBytes_trans (hf.beginInstr_bytes hinv) hf.beginInstr_setup.params
      (hv.sameBytes hm hsize hstore)) hparams (sameBytes_lookAhead v)

/-- An effect of an instruction leaves the code region alone while stores into it are not allowed: a checked
write starts at or above DATA_BASE, and its bytes lie above its start (R55). -/
theorem Effect.code_bytes (h : Effect s t) (hm : s.memSys.Ok s.params.memorySize) (hp : s.params.Valid)
    (hsmc : s.params.smcEnable = false) : ∀ a : Word, a.toNat < s.params.dataBase → t.peekByte a = s.peekByte a := by
  intro a ha
  obtain ⟨-, hsize, -, -, hle⟩ := hp
  have hbacked : a.toNat < s.params.memorySize := by omega
  rcases effect_bytes h hm hsize with hsame | ⟨n, b, v, -, hguard, hbytes⟩
  · exact hsame a hbacked
  · have hb : s.params.dataBase ≤ b.toNat := hguard.resolve_left (by simp [hsmc])
    rw [hbytes a hbacked, if_neg (by omega)]

theorem step_code_bytes (hinv : s.Inv) (hsmc : s.params.smcEnable = false) (h : step s = .next t) :
    ∀ a : Word, a.toNat < s.params.dataBase → t.peekByte a = s.peekByte a := by
  obtain ⟨-, -, -, -, hle⟩ := hinv.params
  cases step_case h with
  | stopped | inData | unbacked => exact fun _ _ => rfl
  | ended hf => exact fun a ha => hf.beginInstr_bytes hinv a (by omega)
  | faulted hf => exact fun a ha => hf.beginInstr_bytes hinv a (by omega)
  | @completed w u v hf hv =>
    intro a ha
    obtain ⟨hm, -⟩ := hf.beginInstr_memSys hinv
    have hparams := hf.beginInstr_setup.params
    have heff := hv.effect.code_bytes hm (by rw [hparams]; exact hinv.params) (by rw [hparams]; exact hsmc) a
      (by rw [hparams]; exact ha)
    rw [lookAhead_peekByte, heff, hf.beginInstr_bytes hinv a (by omega)]

/-- Settles O37: the word at an address is made of four bytes of the region, none of which a step changes. -/
theorem codeRegionFixed : Obligations.CodeRegionFixed := by
  intro s t hinv hsmc h
  have hbytes := step_code_bytes hinv hsmc h
  obtain ⟨-, hsize, -, -, hle⟩ := hinv.params
  refine ⟨hbytes, fun a ha => wordAt_congr fun k hk => hbytes _ ?_⟩
  rw [toNat_add_ofNat a k (by omega)]
  omega

end Sys2Proof.Machine
end

section
/-! PROOF. Every step keeps the invariant of the whole state. -/

namespace Sys2Proof.Machine

open Sys2Proof.Claims

variable {s t u v : State} {w : InstrWord}

/-- The part of the invariant that does not speak of the control state. -/
structure State.DataInv (s : State) : Prop where
  params : s.params.Valid
  mem : s.memSys.Ok s.params.memorySize
  zero : s.regs[0] = 0
  pc_even : s.pc.toNat % 2 = 0
  breakpoints : s.breakpoints.Pairwise (· < ·)
  labels : s.labels.Pairwise (fun k l => k.start ≠ l.start)
  image : s.image.fits s.params = true

theorem State.Inv.dataInv (h : s.Inv) : s.DataInv :=
  ⟨h.params, h.mem, h.zero, h.pc_even, h.breakpoints, h.labels, h.image⟩

theorem State.DataInv.inv (h : s.DataInv) (hcause : s.faultCause.isSome = true ↔ s.runState = .faulted)
    (hstatus : s.runState = (s.lastStatus.map Status.runState).getD .running) : s.Inv :=
  ⟨h.params, h.mem, h.zero, h.pc_even, hcause, hstatus, h.breakpoints, h.labels, h.image⟩

theorem Effect.dataInv (h : Effect s t) (hs : s.DataInv) : t.DataInv := by
  obtain ⟨-, hsize, -⟩ := hs.params
  obtain ⟨hm, hparams, himage, hlabels⟩ := effect_mem h hs.mem hsize
  exact ⟨hparams ▸ hs.params, hm, effect_zero h hs.zero, effect_even h hs.pc_even,
    effect_breakpoints h ▸ hs.breakpoints, hlabels ▸ hs.labels, by rw [himage, hparams]; exact hs.image⟩

theorem State.DataInv.lookAhead (h : s.DataInv) : s.lookAhead.DataInv := by
  obtain ⟨hparams, hm, hzero, hpc, hbp, hlabels, himage⟩ := h
  refine ⟨?_, ?_, ?_, ?_, ?_, ?_, ?_⟩ <;> simpa

theorem State.Fetches.dataInv (hf : s.Fetches w u) (hinv : s.Inv) : u.beginInstr.DataInv := by
  obtain ⟨-, hm, -⟩ := hf.coherent hinv
  rw [hf.eq_memSys]
  exact { hinv.dataInv with mem := hm }

theorem step_dataInv (hinv : s.Inv) (h : step s = .next t) : t.DataInv := by
  cases step_case h with
  | stopped | inData | unbacked => exact { hinv.dataInv with }
  | ended hf => exact { hf.dataInv hinv with }
  | faulted hf => exact { hf.dataInv hinv with }
  | completed hf hv => exact (hv.effect.dataInv (hf.dataInv hinv)).lookAhead

/-- A step leaves a cause exactly if it leaves the core FAULTED (R32). -/
theorem step_cause (hinv : s.Inv) (h : step s = .next t) :
    t.faultCause.isSome = true ↔ t.runState = .faulted := by
  cases step_case h with
  | stopped => exact hinv.cause
  | inData | unbacked | faulted => simp
  | ended hf => simp [hf.faultCause hinv]
  | @completed w u v hf hv =>
    have hcause : v.faultCause = none := hv.control.faultCause.trans (hf.faultCause hinv)
    obtain ⟨st, -, hrun, -, hfault⟩ := lookAhead_status v
    have hne : st.runState ≠ .faulted := fun hst => hfault (Status.eq_fault_of_runState hst)
    simp [hcause, hrun, hne, -State.lookAhead_runState]

theorem step_inv (hinv : s.Inv) (h : step s = .next t) : t.Inv := by
  obtain ⟨st, hlast, hrun, -⟩ := step_endsStep h
  exact (step_dataInv hinv h).inv (step_cause hinv h) (by rw [hlast, hrun]; rfl)

/-- Settles O43: the data by what an effect keeps, the control state by the status the step returns. -/
theorem stepKeepsInv : Obligations.StepKeepsInv := fun _ _ hinv h => step_inv hinv h

end Sys2Proof.Machine
end

section
/-! PROOF. The cache is transparent: states that differ in the memory system alone, with the same coherent bytes,
take the same step (21_cache.md section 8). Each operation of the step is shown to keep the two alike. -/

namespace Sys2Proof.Machine

open Sys2Proof.Claims

variable {s t : State} {w : InstrWord} {i : Instr}

/-- The two states differ in the memory system alone, both memory systems meet their invariant, and the coherent
bytes are the same. -/
structure Alike (s t : State) : Prop where
  size_lt : s.params.memorySize < 2 ^ 64
  left : s.memSys.Ok s.params.memorySize
  right : t.memSys.Ok s.params.memorySize
  eq_memSys : t = { s with memSys := t.memSys }
  bytes : SameBytes s t

theorem sameButCache_eq_memSys (h : SameButCache s t) : t = { s with memSys := t.memSys } := by
  obtain ⟨⟨hrun, hcause, hstatus, hreports⟩, hparams, hbp, hlines, hlabels, himage, hregs, hpc, hwb, hstack, -⟩ := h
  cases s
  cases t
  simp_all

theorem alike_of_inv (hs : s.Inv) (ht : t.Inv) (h : SameButCache s t) : Alike s t where
  size_lt := by obtain ⟨-, hsize, -⟩ := hs.params; exact hsize
  left := hs.mem
  right := h.params ▸ ht.mem
  eq_memSys := sameButCache_eq_memSys h
  bytes := h.bytes

theorem Alike.sameButCache (h : Alike s t) : SameButCache s t := by
  obtain ⟨-, -, -, heq, hbytes⟩ := h
  rw [heq] at hbytes ⊢
  exact ⟨⟨rfl, rfl, rfl, rfl⟩, rfl, rfl, rfl, rfl, rfl, rfl, rfl, rfl, rfl, hbytes⟩

/-! ## Operations that do not touch the memory system -/

/-- The operation neither reads nor writes the memory system, and it keeps the parameters. -/
structure Memoryless (f : State → State) : Prop where
  comm : ∀ s x, f { s with memSys := x } = { f s with memSys := x }
  memSys : ∀ s, (f s).memSys = s.memSys
  params : ∀ s, (f s).params = s.params

theorem Alike.map {f : State → State} (hf : Memoryless f) (h : Alike s t) : Alike (f s) (f t) := by
  obtain ⟨hsize, hl, hr, heq, hbytes⟩ := h
  rw [heq] at hr hbytes ⊢
  rw [hf.comm s t.memSys]
  refine ⟨hf.params s ▸ hsize, ?_, ?_, rfl, fun a ha => ?_⟩
  · rw [hf.memSys, hf.params]; exact hl
  · rw [hf.params]; exact hr
  · rw [State.peekByte, State.peekByte, hf.memSys]
    exact hbytes a (hf.params s ▸ ha)

theorem memoryless_takeFault (c : Fault) : Memoryless (State.takeFault · c) :=
  ⟨fun _ _ => rfl, fun _ => rfl, fun _ => rfl⟩

theorem memoryless_advance : Memoryless State.advance := ⟨fun _ _ => rfl, fun _ => rfl, fun _ => rfl⟩

theorem memoryless_beginInstr : Memoryless State.beginInstr := ⟨fun _ _ => rfl, fun _ => rfl, fun _ => rfl⟩

theorem memoryless_writeReg (rd : Reg) (v : Word) : Memoryless (State.writeReg · rd v) :=
  ⟨fun _ _ => rfl, fun _ => rfl, fun _ => rfl⟩

theorem memoryless_jumpTo (target : Word) : Memoryless (State.jumpTo · target) :=
  ⟨fun _ _ => rfl, fun _ => rfl, fun _ => rfl⟩

theorem memoryless_status (st : Option Status) : Memoryless fun s => { s with lastStatus := st } :=
  ⟨fun _ _ => rfl, fun _ => rfl, fun _ => rfl⟩

theorem memoryless_runState (r : RunState) : Memoryless fun s => { s with runState := r } :=
  ⟨fun _ _ => rfl, fun _ => rfl, fun _ => rfl⟩

/-! ## The checked accesses and the fetch -/

section
variable (h : Alike s t)
include h

theorem Alike.params : t.params = s.params := by rw [h.eq_memSys]

theorem Alike.pc : t.pc = s.pc := by rw [h.eq_memSys]

theorem Alike.runState : t.runState = s.runState := by rw [h.eq_memSys]

theorem Alike.readReg (r : Reg) : t.readReg r = s.readReg r := State.readReg_congr (by rw [h.eq_memSys]) r

theorem Alike.valueAt {a : Word} {n : Nat} (ha : a.toNat + n ≤ s.params.memorySize) :
    Claims.valueAt t a n = Claims.valueAt s a n :=
  peek_congr_add h.bytes ha h.size_lt

/-- Two memory systems with the coherent bytes of two alike states make alike states. -/
theorem Alike.withMemSys {x y : MemSystem} (hx : x.Ok s.params.memorySize) (hy : y.Ok s.params.memorySize)
    (hbytes : ∀ a : Word, a.toNat < s.params.memorySize → y.peekByte a = x.peekByte a) :
    Alike { s with memSys := x } { t with memSys := y } := by
  rw [h.eq_memSys]
  exact ⟨h.size_lt, hx, hy, rfl, hbytes⟩

/-- A checked read of alike states faults in both or answers one value and alike states. -/
theorem Alike.memRead (a : Word) {n : Nat} (hn : n ≤ 8) :
    (∃ c, s.memRead a n = .error c ∧ t.memRead a n = .error c) ∨
    ∃ v s' t', s.memRead a n = .ok (v, s') ∧ t.memRead a n = .ok (v, t') ∧ Alike s' t' := by
  cases hc : check s.params a n false with
  | some c => exact .inl ⟨c, State.memRead_error.mpr hc, State.memRead_error.mpr (h.params ▸ hc)⟩
  | none =>
    obtain ⟨ha, -⟩ := check_eq_none.mp hc
    obtain ⟨x, hr, hx, hbytes⟩ := State.memRead_ok h.left h.size_lt ha
    obtain ⟨y, hr', hy, hbytes'⟩ := State.memRead_ok (s := t) (a := a) (n := n) (h.params ▸ h.right)
      (h.params ▸ h.size_lt) (h.params ▸ ha)
    rw [h.params] at hy hbytes'
    rw [← u64_toNat (wordOfBytes _), Claims.valueAt_eq _ _ _ hn] at hr hr'
    rw [h.valueAt ha] at hr'
    refine .inr ⟨_, _, _, hr, hr', h.withMemSys hx hy fun b hb => ?_⟩
    rw [hbytes b hb, hbytes' b hb, h.bytes b hb]

/-- A checked write of alike states faults in both or answers alike states. -/
theorem Alike.memWrite (a : Word) (n : Nat) (v : Word) :
    (∃ c, s.memWrite a n v = .error c ∧ t.memWrite a n v = .error c) ∨
    ∃ s' t', s.memWrite a n v = .ok s' ∧ t.memWrite a n v = .ok t' ∧ Alike s' t' := by
  cases hc : check s.params a n true with
  | some c => exact .inl ⟨c, State.memWrite_error.mpr hc, State.memWrite_error.mpr (h.params ▸ hc)⟩
  | none =>
    obtain ⟨ha, hguard⟩ := check_eq_none.mp hc
    obtain ⟨x, hr, hx, hbytes⟩ := State.memWrite_ok (v := v) h.left h.size_lt ha (hguard rfl)
    obtain ⟨y, hr', hy, hbytes'⟩ := State.memWrite_ok (s := t) (a := a) (n := n) (v := v) (h.params ▸ h.right)
      (h.params ▸ h.size_lt) (h.params ▸ ha) (h.params ▸ hguard rfl)
    rw [h.params] at hy hbytes'
    refine .inr ⟨_, _, hr, hr', h.withMemSys hx hy fun b hb => ?_⟩
    rw [hbytes b hb, hbytes' b hb, h.bytes b hb]

theorem Alike.fetch :
    (∃ c, s.fetch = .error c ∧ t.fetch = .error c) ∨
    ∃ w s' t', s.fetch = .ok (w, s') ∧ t.fetch = .ok (w, t') ∧ Alike s' t' := by
  unfold State.fetch
  rw [h.pc]
  rcases h.memRead s.pc (n := 4) (by decide) with ⟨c, hs, ht⟩ | ⟨v, s', t', hs, ht, h'⟩
  · exact .inl ⟨c, by rw [hs], by rw [ht]⟩
  · exact .inr ⟨_, s', t', by rw [hs], by rw [ht], h'⟩

/-! ## The meanings -/

/-- Both answer alike next states, or the same refusal. -/
inductive AnswersAlike : Answer → Answer → Prop
  | next {s t : State} (h : Alike s t) : AnswersAlike (.next s) (.next t)
  | refused (q : Refusal) : AnswersAlike (.refused q) (.refused q)

theorem Alike.loadFrom {n : Nat} (hn : n ≤ 8) (ext : Word → Word) (rd rs1 : Reg) (imm : BitVec 12) :
    AnswersAlike (s.loadFrom n ext rd rs1 imm) (t.loadFrom n ext rd rs1 imm) := by
  unfold State.loadFrom
  rw [h.readReg]
  rcases h.memRead (effectiveAddr (s.readReg rs1) imm) hn with ⟨c, hs, ht⟩ | ⟨v, s', t', hs, ht, h'⟩
  · rw [hs, ht]; exact .next (h.map (memoryless_takeFault c))
  · rw [hs, ht]; exact .next ((h'.map (memoryless_writeReg rd (ext v))).map memoryless_advance)

theorem Alike.storeTo (n : Nat) (rs1 : Reg) (imm : BitVec 12) (rs2 : Reg) :
    AnswersAlike (s.storeTo n rs1 imm rs2) (t.storeTo n rs1 imm rs2) := by
  unfold State.storeTo
  rw [h.readReg, h.readReg]
  rcases h.memWrite (effectiveAddr (s.readReg rs1) imm) n (s.readReg rs2) with
    ⟨c, hs, ht⟩ | ⟨s', t', hs, ht, h'⟩
  · rw [hs, ht]; exact .next (h.map (memoryless_takeFault c))
  · rw [hs, ht]; exact .next (h'.map memoryless_advance)

theorem Alike.branchIf (cond : Word → Word → Bool) (rs1 rs2 : Reg) (offset : BitVec 13) :
    AnswersAlike (s.branchIf cond rs1 rs2 offset) (t.branchIf cond rs1 rs2 offset) := by
  unfold State.branchIf
  rw [h.readReg, h.readReg, h.pc]
  split
  · exact .next (h.map (memoryless_jumpTo _))
  · exact .next (h.map memoryless_advance)

/-- The meanings of alike states answer alike: a load and a store by their checked access, a branch by its
condition on registers, and every other meaning without the memory system. -/
theorem Alike.exec (i : Instr) : AnswersAlike (exec i s) (exec i t) := by
  cases i with
  | lb | lh | lw | ld | lbu | lhu | lwu => exact h.loadFrom (by decide) _ _ _ _
  | sb | sh | sw | sd => exact h.storeTo _ _ _ _
  | beq | bne | blt | bge | bltu | bgeu => exact h.branchIf _ _ _ _
  | _ =>
    obtain ⟨hsize, hl, hr, heq, hbytes⟩ := h
    rw [heq] at hr hbytes ⊢
    exact .next ⟨hsize, hl, hr, rfl, hbytes⟩

/-! ## The step -/

theorem Alike.haltsAhead : t.haltsAhead = s.haltsAhead := by
  have hbp : t.breakpoints = s.breakpoints := by rw [h.eq_memSys]
  have hpeek : t.peek32 s.pc = s.peek32 s.pc := by
    by_cases hb : s.pc.toNat + 4 ≤ s.params.memorySize
    · rw [State.peek32_eq_wordAt hb, State.peek32_eq_wordAt (h.params ▸ hb),
        wordAt_of_sameBytes h.bytes hb h.size_lt]
    · rw [State.peek32, State.peek32, h.params, if_pos (Nat.not_le.mp hb), if_pos (Nat.not_le.mp hb)]
  rw [State.haltsAhead, State.haltsAhead, h.pc, hbp, hpeek]

theorem Alike.lookAhead : Alike s.lookAhead t.lookAhead := by
  unfold State.lookAhead
  rw [h.haltsAhead]
  split
  · exact (h.map (memoryless_status (some .halted))).map (memoryless_runState .halted)
  · exact (h.map (memoryless_status (some .normal))).map (memoryless_runState .running)

end

theorem AnswersAlike.finishStep {r r' : Answer} (h : AnswersAlike r r') :
    AnswersAlike (finishStep r) (finishStep r') := by
  cases h with
  | refused q => exact .refused q
  | @next s t h =>
    refine .next ?_
    rw [h.runState]
    split
    · exact h
    · exact h.lookAhead

theorem Alike.runWord (h : Alike s t) (w : InstrWord) : AnswersAlike (runWord w s) (runWord w t) := by
  have hbegin := h.map memoryless_beginInstr
  cases hw : decodeWord w with
  | ok i =>
    rw [runWord_of_ok hw, runWord_of_ok hw]
    unfold runInstr
    split
    · exact h.exec i
    · exact (hbegin.exec i).finishStep
  | error r =>
    rw [runWord_of_error hw, runWord_of_error hw]
    unfold runUnhandled
    rw [h.params]
    split
    · exact .refused _
    · exact (AnswersAlike.next (hbegin.map memoryless_advance)).finishStep

/-- Alike states take alike steps. -/
theorem Alike.step (h : Alike s t) : AnswersAlike (step s) (step t) := by
  unfold Machine.step cycle
  by_cases hrun : s.runState = .faulted
  · rw [if_pos hrun, if_pos (h.runState.trans hrun)]
    exact .next (h.map (memoryless_status (some .fault)))
  have hrun' : t.runState ≠ .faulted := by rwa [h.runState]
  rw [if_neg hrun, if_neg hrun']
  by_cases hpc : s.params.dataBase ≤ s.pc.toNat
  · rw [if_pos hpc, if_pos (by rwa [h.params, h.pc])]
    exact .next (h.map (memoryless_takeFault .pcData))
  rw [if_neg hpc, if_neg (by rwa [h.params, h.pc])]
  rcases h.fetch with ⟨c, hs, ht⟩ | ⟨w, s', t', hs, ht, h'⟩
  · rw [hs, ht]; exact .next (h.map (memoryless_takeFault c))
  · rw [hs, ht]; exact h'.runWord w

theorem AnswersAlike.of_next {r : Answer} (h : AnswersAlike (.next s) r) :
    ∃ t, r = .next t ∧ SameButCache s t := by
  cases h with
  | next h => exact ⟨_, rfl, h.sameButCache⟩

theorem AnswersAlike.of_refused {r : Answer} {q : Refusal} (h : AnswersAlike (.refused q) r) :
    r = .refused q := by
  cases h with
  | refused => rfl

/-- Settles O38: states of the invariant that differ in the cache alone are alike, and alike states take alike
steps. -/
theorem cacheIsTransparent : Obligations.CacheIsTransparent := by
  intro s₁ s₂ hs₁ hs₂ h
  have halike := (alike_of_inv hs₁ hs₂ h).step
  exact ⟨fun t₁ h₁ => (h₁ ▸ halike).of_next, fun q hq => (hq ▸ halike).of_refused⟩

end Sys2Proof.Machine
end

section
/-! PROOF. Cache configuration, the parts of an address, and cache maintenance (21_cache.md sections 1, 2, 6 and
8). -/

namespace Sys2Proof.Machine

open Sys2Proof.Claims

variable {size : Nat} {x : MemSystem} {c : Cache} {r : CacheRequest} {g : CacheConfig} {m : Memory}

/-! ## Configuration (R81 to R84) -/

theorem CacheRequest.config_isSome_iff : r.config.isSome = true ↔
    (∃ k, r.size = 2 ^ k) ∧ (∃ j, r.blockSize = 2 ^ j) ∧ r.associativity ≠ 0 ∧
      r.blockSize * r.associativity ∣ r.size := by
  rw [← isPow2_iff, ← isPow2_iff, Option.isSome_iff_exists]
  constructor
  · rintro ⟨g, hg⟩
    obtain ⟨hsize, hblock, hways, hmod, -⟩ := CacheRequest.config_eq_some.mp hg
    exact ⟨hsize, hblock, hways, Nat.dvd_of_mod_eq_zero hmod⟩
  · rintro ⟨hsize, hblock, hways, hdvd⟩
    have hpos := isPow2_pos hsize
    have hle := Nat.le_of_dvd hpos hdvd
    have hprod : 0 < r.blockSize * r.associativity := Nat.pos_of_dvd_of_pos hdvd hpos
    exact ⟨_, CacheRequest.config_eq_some.mpr ⟨hsize, hblock, hways, Nat.mod_eq_zero_of_dvd hdvd,
      (Nat.div_pos hle hprod).ne', (Nat.le_mul_of_pos_right _ (Nat.pos_of_ne_zero hways)).trans hle, rfl⟩⟩

theorem issue_cacheEnable_of_configError (s : State) (h : r.config = none) :
    issue (.cacheEnable r) s = .next (s.cacheDisable, .configError) := by
  simp [issue, State.cacheEnable, MemSystem.enable, h, replyEnable, State.cacheDisable]

/-- Settles O50: the divisor checks of the construction follow from the four conditions, and a divisor of a power
of two is one. -/
theorem cacheConfigValidity : Obligations.CacheConfigValidity := by
  refine ⟨fun r => CacheRequest.config_isSome_iff, fun r g hg => ?_, fun s r h =>
    ⟨_, issue_cacheEnable_of_configError s h, rfl, rfl⟩⟩
  obtain ⟨hmul, -, hlines, hways⟩ := CacheRequest.config_geometry hg
  have hpos := isPow2_pos hlines
  rw [isPow2_iff] at hlines hways
  obtain ⟨-, -, -, -, -, -, rfl⟩ := CacheRequest.config_eq_some.mp hg
  exact ⟨rfl, rfl, rfl, rfl, rfl, hmul, hpos, hways, hlines⟩

/-- Settles O51: the masks are those of the geometry, which is made of powers of two. -/
theorem addressDecomposition : Obligations.AddressDecomposition := by
  intro r g a hg
  obtain ⟨-, hb, hn, -⟩ := CacheRequest.config_geometry hg
  refine ⟨rfl, rfl, rfl, g.offset_eq hb a, g.index_eq hb hn a, ?_, ?_⟩
  · have := Nat.div_add_mod' a.toNat (g.blockSize * g.nLines)
    rw [g.tag_eq hb hn]
    omega
  · have := g.blockAddr_eq_base hb hn a
    rw [CacheConfig.blockAddr] at this
    rw [this, g.base_add_offset hb]

/-! ## Invalidate, disable and enable (R101, R109) -/

/-- The cache that `Invalidate()` leaves, with `n` as its write-back count. -/
def Cache.invalidated (c : Cache) (n : Word) : Cache :=
  { c.clearLines with stats := { c.stats with writebacks := n } }

theorem MemSystem.invalidate_of_cache (hc : x.cache = some c) : x.invalidate size =
    { x with store := (flushSets size c.cfg 0 c.sets x.store c.stats.writebacks).1
             cache := some (c.invalidated (flushSets size c.cfg 0 c.sets x.store c.stats.writebacks).2) } := by
  rw [MemSystem.invalidate, hc]
  rfl

theorem MemSystem.invalidate_of_uncached (hc : x.cache = none) : x.invalidate size = x := by
  rw [MemSystem.invalidate, hc]

theorem Cache.noLineValid_clearLines (c : Cache) : NoLineValid c.clearLines := by
  intro s L hL
  obtain ⟨hvalid, -⟩ := Cache.mem_ways_clearLines hL
  exact hvalid

theorem Cache.noLineValid_new (g : CacheConfig) (trace : Bool) : NoLineValid (Cache.new g trace) := by
  intro s L hL
  rw [Cache.mem_ways_new hL]
  rfl

/-- The coherent view is the store where no line is valid or there is no cache. -/
theorem MemSystem.peekByte_of_noLineValid (hc : ∀ c, x.cache = some c → NoLineValid c) (a : Word) :
    x.peekByte a = x.store.read a.toNat := by
  unfold MemSystem.peekByte
  split
  next c h => exact Cache.peek_of_invalid (hc c h) x.store a
  next => rfl

theorem MemSystem.Ok.invalidate_store (h : x.Ok size) (hsize : size < 2 ^ 64) :
    (x.invalidate size).store.wf = true ∧ (x.invalidate size).store.within size = true ∧
      ∀ a : Word, a.toNat < size → (x.invalidate size).store.read a.toNat = x.peekByte a := by
  cases hc : x.cache with
  | none =>
    rw [MemSystem.invalidate_of_uncached hc]
    exact ⟨h.store_wf, h.store_within, fun a _ => by rw [MemSystem.peekByte, hc]⟩
  | some c =>
    obtain ⟨hwf, hwithin, hread⟩ :=
      (h.coherent c hc).flushAll h.store_wf h.store_within hsize c.stats.writebacks
    rw [MemSystem.invalidate_of_cache hc]
    exact ⟨hwf, hwithin, fun a ha => by rw [MemSystem.peekByte, hc]; exact hread a ha⟩

theorem MemSystem.invalidate_noLineValid : ∀ c, (x.invalidate size).cache = some c → NoLineValid c := by
  intro c' hc'
  cases hc : x.cache with
  | none => rw [MemSystem.invalidate_of_uncached hc, hc] at hc'; cases hc'
  | some c =>
    rw [MemSystem.invalidate_of_cache hc] at hc'
    obtain rfl := Option.some.inj hc'
    exact c.noLineValid_clearLines

theorem MemSystem.Ok.invalidate (h : x.Ok size) (hsize : size < 2 ^ 64) : (x.invalidate size).Ok size := by
  obtain ⟨hwf, hwithin, -⟩ := h.invalidate_store hsize
  cases hc : x.cache with
  | none => rwa [MemSystem.invalidate_of_uncached hc]
  | some c =>
    rw [MemSystem.invalidate_of_cache hc] at hwf hwithin ⊢
    refine ⟨hwf, hwithin, ?_, ?_⟩
    · rintro _ ⟨⟩
      exact ((h.coherent c hc).clearLines _).congr rfl rfl
    · rintro _ ⟨⟩
      obtain ⟨hsum, hrate⟩ := h.stats c hc
      exact ⟨hsum, hrate⟩

/-- What `Invalidate()` keeps of a cache, and the count of its flushes (D15). -/
theorem MemSystem.invalidate_cache (hc : x.cache = some c) : ∃ c', (x.invalidate size).cache = some c' ∧
    c'.cfg = c.cfg ∧ c'.traceEnable = c.traceEnable ∧ NoLineValid c' ∧ c'.clk = c.clk ∧
    c'.stats.writebacks = c.stats.writebacks + BitVec.ofNat 64 (flushCount c) ∧
    c'.stats.accessCount = c.stats.accessCount ∧ c'.stats.hitCount = c.stats.hitCount ∧
    c'.stats.missCount = c.stats.missCount := by
  rw [MemSystem.invalidate_of_cache hc]
  exact ⟨_, rfl, rfl, rfl, c.noLineValid_clearLines, rfl, flushSets_count .., rfl, rfl, rfl⟩

theorem MemSystem.invalidate_trace : (x.invalidate size).trace = x.trace := by
  unfold MemSystem.invalidate
  split <;> rfl

/-- A store that holds the coherent view, behind no cache or one without a valid line, shows the same view. -/
theorem MemSystem.Ok.withCache (h : x.Ok size) (hsize : size < 2 ^ 64) {cache : Option Cache}
    (hvalid : ∀ c, cache = some c → NoLineValid c) {a : Word} (ha : a.toNat < size) :
    ({ x.invalidate size with cache := cache } : MemSystem).peekByte a = x.peekByte a := by
  obtain ⟨-, -, hread⟩ := h.invalidate_store hsize
  rw [MemSystem.peekByte_of_noLineValid hvalid]
  exact hread a ha

theorem MemSystem.Ok.disable (h : x.Ok size) (hsize : size < 2 ^ 64) : (x.disable size).Ok size := by
  obtain ⟨hwf, hwithin, -⟩ := h.invalidate_store hsize
  exact ⟨hwf, hwithin, nofun, nofun⟩

theorem MemSystem.enable_of_config (x : MemSystem) (hg : r.config = some g) :
    (x.enable size r).2 = { x.invalidate size with cache := some (Cache.new g r.traceEnable) } := by
  rw [MemSystem.enable, hg]
  rfl

theorem MemSystem.enable_of_configError (x : MemSystem) (hg : r.config = none) :
    (x.enable size r).2 = x.disable size := by
  rw [MemSystem.enable, hg]

theorem MemSystem.Ok.enable (h : x.Ok size) (hsize : size < 2 ^ 64) (r : CacheRequest) :
    (x.enable size r).2.Ok size := by
  cases hg : r.config with
  | none => rw [MemSystem.enable_of_configError x hg]; exact h.disable hsize
  | some g =>
    obtain ⟨-, hb, hn, hw⟩ := CacheRequest.config_geometry hg
    obtain ⟨hwf, hwithin, -⟩ := h.invalidate_store hsize
    rw [MemSystem.enable_of_config x hg]
    refine ⟨hwf, hwithin, ?_, ?_⟩
    · rintro _ ⟨⟩
      exact Cache.new_coherent hb hn hw r.traceEnable _
    · rintro _ ⟨⟩
      exact Cache.new_statsOk g r.traceEnable

theorem MemSystem.Ok.peekByte_enable (h : x.Ok size) (hsize : size < 2 ^ 64) (r : CacheRequest) {a : Word}
    (ha : a.toNat < size) : (x.enable size r).2.peekByte a = x.peekByte a := by
  cases hg : r.config with
  | none =>
    rw [MemSystem.enable_of_configError x hg]
    exact h.withCache (cache := none) hsize nofun ha
  | some g =>
    rw [MemSystem.enable_of_config x hg]
    refine h.withCache hsize ?_ ha
    rintro _ ⟨⟩
    exact Cache.noLineValid_new g r.traceEnable

/-- Settles O57: the flushes put the whole coherent view into the store, and each of the three commands leaves no
cache or one without a valid line, so that the store is what is seen. -/
theorem maintenanceKeepsView : Obligations.MaintenanceKeepsView := by
  refine ⟨fun size x r hx hsize => ⟨⟨hx.invalidate hsize, fun a ha => ?_, MemSystem.invalidate_trace,
    fun c hc => MemSystem.invalidate_cache hc⟩, ⟨hx.disable hsize, rfl, fun a ha => ?_⟩,
    ⟨hx.enable hsize r, fun a ha => hx.peekByte_enable hsize r ha, fun g hg => ?_⟩⟩, fun s => ?_⟩
  · obtain ⟨-, -, hread⟩ := hx.invalidate_store hsize
    refine ⟨?_, hread a ha⟩
    rw [MemSystem.peekByte_of_noLineValid MemSystem.invalidate_noLineValid, hread a ha]
  · exact hx.withCache (cache := none) hsize nofun ha
  · rw [MemSystem.enable_of_config x hg]
    exact ⟨_, rfl, rfl, Cache.noLineValid_new g r.traceEnable, rfl, rfl, rfl, rfl, rfl, rfl⟩
  · refine ⟨_, rfl, Memory.dump_length .., fun a ha => ⟨Memory.dump_getD _ ha, ?_⟩⟩
    rw [issue, if_pos ha]

end Sys2Proof.Machine
end

section
/-! PROOF. Power-on, load and the resets, the run loops, and that every command keeps the invariant
(50_step_and_run.md, 70_reset_and_hazards.md). -/

namespace Sys2Proof.Machine

open Sys2Proof.Claims

variable {s t : State} {ks : List Nat} {cache : Option Cache} {p : Params}

/-! ## Power-on (R45, R371) -/

theorem powerOn_inv (hp : p.Valid) : (State.powerOn p).Inv := by
  obtain ⟨-, -, -, -, hle⟩ := id hp
  refine ⟨hp, ⟨rfl, rfl, nofun, nofun⟩, ?_, rfl, by simp [State.powerOn],
    rfl, .nil, .nil, ?_⟩
  · simp [State.powerOn]
  · simpa [State.powerOn, Image.fits] using hle

/-- Settles O44: at power-on memory is empty, there is no cache, and the empty image fits. -/
theorem resetMeetsInv : Obligations.ResetMeetsInv :=
  ⟨fun _ hp => powerOn_inv hp, powerOn_inv (by unfold Params.Valid Params.default; decide)⟩

theorem readReg_of_regs_replicate (h : s.regs = Vector.replicate 32 0) (r : Reg) : s.readReg r = 0 := by
  simp [State.readReg, h]

theorem powerOn_atSentinel (hp : p.Valid) : (State.powerOn p).AtSentinel := by
  obtain ⟨-, hsize, -, hfour, hle⟩ := id hp
  refine ⟨(powerOn_inv hp).mem, hsize, nofun, ?_, ?_, rfl⟩
  · exact Nat.lt_of_lt_of_le (show (0 : Word).toNat < 4 by decide) hfour
  · exact hfour.trans hle

/-- Settles O46: by definition but for the first step, which finds the word 0. -/
theorem powerOnValues : Obligations.PowerOnValues := by
  intro p hp
  obtain ⟨t, ht, hres, -⟩ := (powerOn_atSentinel hp).step_sentinelResult
  exact ⟨readReg_of_regs_replicate rfl, rfl, fun _ => rfl, rfl, rfl, rfl, rfl, rfl, rfl, rfl, rfl, rfl, rfl, rfl,
    t, ht, hres⟩

/-! ## Load and the resets (R320, R370 to R374) -/

/-- A restart puts the stored image into memory, behind no cache or one without a valid line. -/
theorem restarted_restart (s : State) (ks : List Nat) (hfits : s.image.fits s.params = true)
    (hcache : ∀ c, cache = some c → NoLineValid c) : Restarted s (s.restart ks cache) s.image ks := by
  obtain ⟨-, -, hread⟩ := applyImage_spec s.params s.image hfits
  refine ⟨rfl, readReg_of_regs_replicate rfl, rfl, rfl, rfl, rfl, rfl, rfl, rfl, fun a ha =>
    ⟨hread a.toNat ha, ?_⟩⟩
  rw [State.peekByte, MemSystem.peekByte_of_noLineValid hcache]
  exact hread a.toNat ha

theorem softReset_noLineValid (cache : Option Cache) : ∀ c, cache.map Cache.softReset = some c → NoLineValid c := by
  intro c hc
  obtain ⟨c₀, -, rfl⟩ := Option.map_eq_some_iff.mp hc
  exact c₀.noLineValid_clearLines

/-- Settles O47: both resets restart on the stored image, and a cleared cache has no valid and no dirty line. -/
theorem resetEffects : Obligations.ResetEffects := by
  refine fun s hinv => ⟨⟨s.hardReset, rfl, ?_, rfl, rfl, rfl⟩, s.softReset, rfl, ?_, rfl, rfl, fun hc => ?_,
    fun c hc => ⟨c.softReset, ?_, rfl, rfl, c.noLineValid_clearLines, fun k L hL => ?_, rfl, rfl, rfl, rfl, rfl,
      rfl⟩⟩
  · exact restarted_restart s [] hinv.image nofun
  · exact restarted_restart s s.breakpoints hinv.image (softReset_noLineValid _)
  · rw [State.softReset, State.restart, hc]; rfl
  · rw [State.softReset, State.restart, hc]; rfl
  · obtain ⟨-, hdirty, -⟩ := Cache.mem_ways_clearLines (c := c) hL
    exact hdirty

theorem State.load_of_fits {image : Image} (h : image.fits s.params = true) (lines : Option (List Nat))
    (labels : Option (List Label)) : s.load image lines labels =
      some (State.restart { s with image := image, lineTable := lines, labels := dedupLabels (labels.getD []) }
        [] none) :=
  if_pos h

theorem State.load_of_not_fits {image : Image} (h : ¬ image.fits s.params = true) (lines : Option (List Nat))
    (labels : Option (List Label)) : s.load image lines labels = none :=
  if_neg h

/-- Settles O48: nothing is written over the zeros by an empty image, and a refused load answers the state as it
was. -/
theorem hardResetOfEmptyImage : Obligations.HardResetOfEmptyImage := by
  refine ⟨fun s hwords hdata hlines hlabels => ⟨s.hardReset, rfl, ?_⟩, fun s t image lines labels h => ?_⟩
  · have himage : s.image = { words := [], data := [] } := by
      rw [← hwords, ← hdata]
    rw [State.hardReset, State.restart, himage, hlines, hlabels]
    rfl
  · by_cases hfits : image.fits s.params = true
    · rw [issue, State.load_of_fits hfits] at h; cases h
    · rw [issue, State.load_of_not_fits hfits] at h; cases h; rfl

/-- Settles O49: the test of the load is that of the statement, and a load that passes it restarts on the image. -/
theorem loadEffect : Obligations.LoadEffect := by
  intro s image lines labels hinv
  have hfits : image.fits s.params = true ↔ 4 * image.words.length ≤ s.params.dataBase ∧
      s.params.dataBase + image.data.length ≤ s.params.memorySize := by
    simp [Image.fits]
  split
  next h =>
    have hrestart := restarted_restart (cache := none)
      { s with image := image, lineTable := lines, labels := dedupLabels (labels.getD []) } []
      (hfits.mpr h) nofun
    rw [issue, State.load_of_fits (hfits.mpr h)]
    exact ⟨_, rfl, { hrestart with }, rfl, rfl, rfl⟩
  next h => rw [issue, State.load_of_not_fits (mt hfits.mp h)]

/-! ## The run loops (R311) -/

/-- Settles O59: by induction on the poll answers, each of which that is `proceed` is one step. -/
theorem runLoopSteps : Obligations.RunLoopSteps := by
  intro polls
  induction polls with
  | nil =>
    intro s t st h
    obtain ⟨rfl, rfl⟩ := Prod.mk.inj (Host.Outcome.next.inj h)
    exact .inl ⟨rfl, rfl, by simp⟩
  | cons q polls ih =>
    intro s t st h
    cases q with
    | stop =>
      obtain ⟨rfl, rfl⟩ := Prod.mk.inj (Host.Outcome.next.inj h)
      exact .inr ⟨0, s, by simp, rfl, by simp, .inl ⟨rfl, rfl, rfl⟩⟩
    | proceed =>
      rw [runLoop] at h
      cases hstep : step s with
      | fault f => rw [hstep] at h; cases h
      | refused f => rw [hstep] at h; cases h
      | next u =>
        simp only [hstep] at h
        by_cases hnormal : u.lastStatus = some .normal
        · rw [if_pos hnormal] at h
          rcases ih u t st h with ⟨hst, hsteps, hall⟩ | ⟨k, v, hk, hsteps, hall, hend⟩
          · exact .inl ⟨hst, ⟨u, hstep, hnormal, hsteps⟩, by simpa using hall⟩
          · refine .inr ⟨k + 1, v, by simpa using hk, ⟨u, hstep, hnormal, hsteps⟩, fun j hj => ?_, hend⟩
            cases j with
            | zero => rfl
            | succ j => exact hall j (by omega)
        · rw [if_neg hnormal] at h
          obtain ⟨rfl, rfl⟩ := Prod.mk.inj (Host.Outcome.next.inj h)
          obtain ⟨code, hcode, -⟩ := step_endsStep hstep
          exact .inr ⟨0, s, by simp, rfl, by simp, .inr ⟨rfl, hstep, rfl, hnormal, by simp [hcode]⟩⟩

/-! ## Commands -/

/-- A restart meets the invariant, whatever the state was before, if what it keeps does. -/
theorem restart_inv (hp : s.params.Valid) (hlabels : s.labels.Pairwise fun k l => k.start ≠ l.start)
    (hfits : s.image.fits s.params = true) (hks : ks.Pairwise (· < ·))
    (hcache : ∀ c, cache = some c → (∀ m, c.Coherent s.params.memorySize m) ∧ c.StatsOk) :
    (s.restart ks cache).Inv := by
  obtain ⟨hwf, hwithin, -⟩ := applyImage_spec s.params s.image hfits
  refine ⟨hp, ⟨hwf, hwithin, fun c hc => ?_, fun c hc => ?_⟩, by simp [State.restart], rfl,
    by simp [State.restart], rfl, hks, hlabels, hfits⟩
  · obtain ⟨hco, -⟩ := hcache c hc
    exact hco _
  · obtain ⟨-, hstats⟩ := hcache c hc
    exact hstats

section
variable (hinv : s.Inv)
include hinv

theorem hardReset_inv : s.hardReset.Inv :=
  restart_inv hinv.params hinv.labels hinv.image .nil nofun

theorem softReset_inv : s.softReset.Inv := by
  refine restart_inv hinv.params hinv.labels hinv.image hinv.breakpoints fun c hc => ?_
  obtain ⟨c₀, hc₀, rfl⟩ := Option.map_eq_some_iff.mp hc
  have hco := hinv.mem.coherent c₀ hc₀
  exact ⟨fun m => (hco.softReset m).1, (hco.softReset []).2⟩

theorem load_inv {image : Image} {lines : Option (List Nat)} {labels : Option (List Label)}
    (h : s.load image lines labels = some t) : t.Inv := by
  by_cases hfits : image.fits s.params = true
  · rw [State.load_of_fits hfits] at h
    obtain rfl := Option.some.inj h
    exact restart_inv hinv.params (dedupLabels_pairwise _) hfits .nil nofun
  · rw [State.load_of_not_fits hfits] at h
    cases h

theorem State.Inv.withMemSys {x : MemSystem} (hx : x.Ok s.params.memorySize) : { s with memSys := x }.Inv :=
  { hinv with mem := hx }

theorem State.Inv.withBreakpoints (hks : ks.Pairwise (· < ·)) : { s with breakpoints := ks }.Inv :=
  { hinv with breakpoints := hks }

end

theorem normalSteps_inv {k : Nat} (hinv : s.Inv) (h : NormalSteps k s t) : t.Inv := by
  induction k generalizing s with
  | zero => obtain rfl := h; exact hinv
  | succ k ih =>
    obtain ⟨u, hstep, -, hrest⟩ := h
    exact ih (step_inv hinv hstep) hrest

/-- A run is made of steps, each of which keeps the invariant. -/
theorem runLoop_inv {polls : List Poll} {st : Option Status} (hinv : s.Inv)
    (h : runLoop polls s = .next (t, st)) : t.Inv := by
  rcases runLoopSteps polls s t st h with ⟨-, hsteps, -⟩ | ⟨k, u, -, hsteps, -, hend⟩
  · exact normalSteps_inv hinv hsteps
  · have hu := normalSteps_inv hinv hsteps
    rcases hend with ⟨-, rfl, -⟩ | ⟨-, hstep, -⟩
    · exact hu
    · exact step_inv hu hstep

theorem replyStatus_eq_next {o : Host.Outcome (State × Option Status) Fault Refusal} {r : Reply}
    (h : replyStatus o = .next (t, r)) : ∃ st, o = .next (t, st) := by
  cases o with
  | next q => obtain ⟨t', st⟩ := q; cases h; exact ⟨st, rfl⟩
  | fault f => cases h
  | refused q => cases h

/-- Settles O45: each command is a load or a reset, which restart; steps; a change of the breakpoint set or of the
cache; or a read handle, which changes nothing. -/
theorem commandsKeepInv : Obligations.CommandsKeepInv := by
  intro c s t r hinv h
  obtain ⟨-, hsize, -⟩ := hinv.params
  cases c with
  | load image lines labels =>
    rw [issue] at h
    cases hload : s.load image lines labels with
    | none => rw [hload] at h; cases h; exact hinv
    | some u => rw [hload] at h; cases h; exact load_inv hinv hload
  | step =>
    rw [issue] at h
    cases hstep : step s with
    | next u => rw [hstep] at h; cases h; exact step_inv hinv hstep
    | fault f => rw [hstep] at h; cases h
    | refused q => rw [hstep] at h; cases h
  | run polls | runToEnd polls =>
    obtain ⟨st, hrun⟩ := replyStatus_eq_next h
    exact runLoop_inv hinv hrun
  | reset kind =>
    cases kind with
    | hard => cases h; exact hardReset_inv hinv
    | soft => cases h; exact softReset_inv hinv
  | bpSet k => cases h; exact hinv.withBreakpoints (insertIndex_spec k _ hinv.breakpoints).1
  | bpClear k => cases h; exact hinv.withBreakpoints (hinv.breakpoints.filter _)
  | cacheEnable q | cacheReconfigure q => cases h; exact hinv.withMemSys (hinv.mem.enable hsize q)
  | cacheDisable => cases h; exact hinv.withMemSys (hinv.mem.disable hsize)
  | cacheInvalidate => cases h; exact hinv.withMemSys (hinv.mem.invalidate hsize)
  | bpGet | getRegister | getPc | getMemory | getStats | getCallStack | getRunState | getFaultCause | getWb
  | getDump | getMemoryDump => cases h; exact hinv

end Sys2Proof.Machine
end


section
/-! PROOF. The lookup, the victim, the WriteBack policy and the trace of the Cache Model (21_cache.md sections 2 to 5
and 7), and the tracker (50_step_and_run.md section 5): O52, O53, O55, O58, O60. -/

namespace Sys2Proof.Machine

open Sys2Proof.Claims

variable {size draws : Nat} {m : Memory} {c c' : Cache} {a : Word} {x : MemSystem} {allocate : Bool}

/-! ## Victim selection -/

section
variable {g : CacheConfig} {ways : List Line}

theorem victimWay_of_invalid (hinv : ∃ L ∈ ways, L.valid = false) (draw : Nat)
    (hv : victimWay g ways draw < ways.length) : ways[victimWay g ways draw].valid = false ∧
      ∀ u (hu : u < victimWay g ways draw), (ways[u]'(Nat.lt_trans hu hv)).valid = true := by
  cases hf : ways.findIdx? (fun L => !L.valid) with
  | none =>
    obtain ⟨L, hL, hinvalid⟩ := hinv
    have := List.findIdx?_eq_none_iff.mp hf L hL
    simp [hinvalid] at this
  | some w =>
    have hw : victimWay g ways draw = w := by rw [victimWay, hf]
    obtain ⟨_, hat, hbefore⟩ := List.findIdx?_eq_some_iff_getElem.mp hf
    simp only [hw]
    exact ⟨by simpa using hat, fun u hu => by simpa using hbefore u hu⟩

theorem victimWay_of_valid (hall : ∀ L ∈ ways, L.valid = true) (draw : Nat) : victimWay g ways draw =
    if g.replacement = .random then draw % g.associativity else ((oldest ways).map Prod.fst).getD 0 := by
  have hnone : ways.findIdx? (fun L => !L.valid) = none :=
    List.findIdx?_eq_none_iff.mpr fun L hL => by simp [hall L hL]
  rw [victimWay, hnone]
  cases g.replacement <;> rfl

/-- Under FIFO and LRU a set of valid lines gives up the oldest, the lowest-numbered of equals (D11). -/
theorem victimWay_oldest (hall : ∀ L ∈ ways, L.valid = true) (hrepl : g.replacement ≠ .random) (draw : Nat)
    (hv : victimWay g ways draw < ways.length) (u : Nat) (hu : u < ways.length) :
    ways[victimWay g ways draw].ts.toNat ≤ ways[u].ts.toNat ∧
      (u < victimWay g ways draw → ways[victimWay g ways draw].ts.toNat < ways[u].ts.toNat) := by
  obtain ⟨v, _, hold, hmin⟩ := oldest_spec ways (List.ne_nil_of_length_pos (by omega))
  have hw : victimWay g ways draw = v := by
    rw [victimWay_of_valid hall, if_neg hrepl, hold]; rfl
  simp only [hw]
  exact hmin u hu

theorem takesDraw_iff : takesDraw g ways = true ↔ g.replacement = .random ∧ ∀ L ∈ ways, L.valid = true := by
  simp [takesDraw]

end

/-- Settles O53: the first invalid way if there is one, and the policy's choice among valid lines if there is none. -/
theorem victimSelection : Obligations.VictimSelection := by
  intro g ways draw hlen hpos
  have hv : victimWay g ways draw < ways.length := hlen ▸ victimWay_lt hlen hpos draw
  refine ⟨_, rfl, hv, fun hinv => victimWay_of_invalid hinv draw hv,
    fun hall hrepl => victimWay_oldest hall hrepl draw hv, fun hall hrepl u hu => ⟨u, ?_⟩, takesDraw_iff⟩
  rw [victimWay_of_valid hall, if_pos hrepl, Nat.mod_eq_of_lt hu]

/-! ## Lookup -/

theorem lookup_of_hitWay {w : Nat} (hw : hitWay (c.ways (c.cfg.index a)) (c.cfg.tag a) = some w) :
    c.lookup size m draws a allocate =
      { way := some w, hit := true, store := m, draws := draws
        cache := c.beginLookup.countHit.setLine (c.cfg.index a) w
          (touchLine c.beginLookup (c.line (c.cfg.index a) w)) } := by
  simp only [Cache.lookup, Cache.cfg_beginLookup, Cache.ways_beginLookup, hw]
  rfl

/-- The way an allocating miss of `a` fills. -/
def Cache.victim (c : Cache) (draws : Nat) (a : Word) : Nat :=
  victimWay c.cfg (c.ways (c.cfg.index a)) (Config.randomDraw draws)

theorem Cache.Coherent.victim_lt (h : c.Coherent size m) (draws : Nat) (a : Word) :
    c.victim draws a < (c.ways (c.cfg.index a)).length :=
  (h.ways_length a).symm ▸ victimWay_lt (h.ways_length a) (isPow2_pos h.ways_pow2) _

theorem lookup_of_allocatingMiss (hres : ¬ Resident c a) :
    c.lookup size m draws a true =
      { way := some (c.victim draws a), hit := false
        cache := (c.beginLookup.countMiss.fill size m (c.cfg.index a) (c.victim draws a) a).1
        store := (c.beginLookup.countMiss.fill size m (c.cfg.index a) (c.victim draws a) a).2
        draws := if takesDraw c.cfg (c.ways (c.cfg.index a)) then draws + 1 else draws } := by
  simp only [Cache.lookup, Cache.cfg_beginLookup, Cache.ways_beginLookup, hitWay_of_not_resident hres]
  rfl

/-- What every lookup says and counts, whatever it finds. -/
theorem lookup_hit_clk_accessCount :
    ((c.lookup size m draws a allocate).hit = true ↔ Resident c a) ∧
      (c.lookup size m draws a allocate).cache.clk = c.clk + 1 ∧
      (c.lookup size m draws a allocate).cache.stats.accessCount = c.stats.accessCount + 1 := by
  by_cases hres : Resident c a
  · obtain ⟨w, hw⟩ := hitWay_of_resident hres
    rw [lookup_of_hitWay hw]
    exact ⟨iff_of_true rfl hres, rfl, rfl⟩
  · cases allocate with
    | false =>
      rw [lookup_bypass_of_not_resident hres]
      exact ⟨iff_of_false Bool.false_ne_true hres, rfl, rfl⟩
    | true =>
      rw [lookup_of_allocatingMiss hres]
      obtain ⟨-, -, hclk, hacc, -⟩ :=
        Cache.fill_fields size c.beginLookup.countMiss m (c.cfg.index a) (c.victim draws a) a
      exact ⟨iff_of_false Bool.false_ne_true hres, hclk, hacc⟩

theorem touchLine_of_ne_lru (hrepl : c.cfg.replacement ≠ .lru) (L : Line) : touchLine c L = L := by
  unfold touchLine
  cases h : c.cfg.replacement with
  | lru => exact absurd h hrepl
  | fifo => rfl
  | random => rfl

theorem touchLine_of_lru (hrepl : c.cfg.replacement = .lru) (L : Line) : touchLine c L = { L with ts := c.clk } := by
  simp only [touchLine, hrepl]

theorem Cache.line_setLine_self {s w : Nat} (hw : w < (c.ways s).length) (s' v : Nat) :
    (c.setLine s w (c.line s w)).line s' v = c.line s' v := by
  by_cases h : s' = s ∧ v = w
  · obtain ⟨rfl, rfl⟩ := h
    exact Cache.line_setLine_same hw _
  · exact Cache.line_setLine_other h _

theorem lookup_missCount_hitCount (hres : ¬ Resident c a) :
    (c.lookup size m draws a allocate).cache.stats.missCount = c.stats.missCount + 1 ∧
      (c.lookup size m draws a allocate).cache.stats.hitCount = c.stats.hitCount := by
  cases allocate with
  | false => rw [lookup_bypass_of_not_resident hres]; exact ⟨rfl, rfl⟩
  | true =>
    rw [lookup_of_allocatingMiss hres]
    obtain ⟨-, -, -, -, hhits, hmisses⟩ :=
      Cache.fill_fields size c.beginLookup.countMiss m (c.cfg.index a) (c.victim draws a) a
    exact ⟨hmisses, hhits⟩

/-- A flush writes the bytes of the line's block that the store backs, and no others (R94, D48). -/
theorem Cache.Coherent.read_flushLine (h : c.Coherent size m) (hwf : m.wf = true) {s w : Nat}
    (hw : w < (c.ways s).length) (k : Nat) :
    (flushLine size c.cfg m s (c.line s w)).read k =
      if c.cfg.blockAddr s (c.line s w).tag ≤ k ∧ k < c.cfg.blockAddr s (c.line s w).tag + c.cfg.blockSize ∧ k < size
      then (c.line s w).data.getD (k - c.cfg.blockAddr s (c.line s w).tag) 0 else m.read k := by
  rw [flushLine, Memory.read_writeBlock hwf, h.data_length _ _ (Cache.line_mem hw)]

/-- Settles O52: the three ways a lookup can end are a hit, which touches its line, a miss without allocation, which
counts alone, and a fill of the victim's way. -/
theorem lookupRule : Obligations.LookupRule := by
  intro size m c draws a allocate h r
  obtain ⟨hcfg, htrace⟩ := lookup_setup size c m draws a allocate
  obtain ⟨hhit, hclk, hacc⟩ := lookup_hit_clk_accessCount (size := size) (m := m) (c := c) (draws := draws) (a := a)
    (allocate := allocate)
  refine ⟨hhit, hcfg, htrace, hclk, hacc, fun hres => ?_, fun hres => ?_⟩
  · obtain ⟨w, hw⟩ := hitWay_of_resident hres
    obtain ⟨hlt, -, htag⟩ := Cache.hitWay_some hw
    rw [show r = _ from lookup_of_hitWay hw]
    refine ⟨rfl, rfl, rfl, rfl, rfl, fun hrepl s v => ?_, w, rfl, htag, fun hrepl => ⟨?_, fun s v hsv => ?_⟩⟩
    · rw [touchLine_of_ne_lru (c := c.beginLookup) hrepl]
      exact Cache.line_setLine_self (c := c.beginLookup.countHit) hlt s v
    · rw [touchLine_of_lru (c := c.beginLookup) hrepl]
      exact Cache.line_setLine_same (c := c.beginLookup.countHit) hlt _
    · exact Cache.line_setLine_other (c := c.beginLookup.countHit) hsv _
  · obtain ⟨hmisses, hhits⟩ := lookup_missCount_hitCount (size := size) (m := m) (draws := draws)
      (allocate := allocate) hres
    refine ⟨hmisses, hhits, fun hal => ?_, fun hal => ?_⟩
    · subst hal
      rw [show r = _ from lookup_bypass_of_not_resident hres]
      exact ⟨rfl, rfl, rfl, rfl, rfl⟩
    · subst hal
      rw [show r = _ from lookup_of_allocatingMiss hres]
      have hv := h.victim_lt draws a
      obtain ⟨hline, hother, hflush, hclean⟩ := cacheFill_spec size c.beginLookup.countMiss m a hv
      refine ⟨_, rfl, rfl, rfl, hline, hother, fun hneeds => ?_, hclean⟩
      obtain ⟨hwb, hstore⟩ := hflush hneeds
      exact ⟨hwb, fun hwf k => hstore ▸ h.read_flushLine hwf hv k⟩

/-! ## WriteBack -/

/-- A lookup leaves the store's byte at its own address: what it may flush is another block. -/
theorem Cache.Coherent.lookup_store_read (h : c.Coherent size m) (hwf : m.wf = true) (ha : a.toNat < size) :
    (c.lookup size m draws a allocate).store.read a.toNat = m.read a.toNat := by
  by_cases hres : Resident c a
  · obtain ⟨w, hw⟩ := hitWay_of_resident hres
    rw [lookup_of_hitWay hw]
  · cases allocate with
    | false => rw [lookup_bypass_of_not_resident hres]
    | true =>
      rw [lookup_of_allocatingMiss hres]
      have hv := h.victim_lt draws a
      obtain ⟨-, -, hflush, hclean⟩ := cacheFill_spec size c.beginLookup.countMiss m a hv
      by_cases hneeds : NeedsFlush c.cfg (c.line (c.cfg.index a) (c.victim draws a))
      · obtain ⟨-, hstore⟩ := hflush hneeds
        obtain ⟨hvalid, -, -⟩ := hneeds
        have hmiss := Cache.hitWay_none (hitWay_of_not_resident hres) hv hvalid
        rw [hstore]
        exact (h.read_flush hwf (h.index_lt a) hv hvalid ha).trans (if_neg fun hsame => hmiss hsame.2.symm)
      · obtain ⟨-, hstore⟩ := hclean hneeds
        rw [hstore]

theorem Cache.ways_congr (hs : c'.sets = c.sets) : c'.ways = c.ways := by
  funext s; rw [Cache.ways, hs]; rfl

theorem Cache.line_congr (hc : c'.cfg = c.cfg) (hs : c'.sets = c.sets) : c'.line = c.line := by
  funext s w; rw [Cache.line, Cache.ways_congr hs, hc]; rfl

/-- A written line takes the byte at the offset of the address, and is dirty under WriteBack (R96). -/
theorem Cache.Coherent.line_updateLine (h : c.Coherent size m) (hp : c.cfg.writePolicy = .writeBack) {w : Nat}
    (hw : w < (c.ways (c.cfg.index a)).length) (b : Byte) :
    ((c.updateLine (some w) a b).line (c.cfg.index a) w).dirty = true ∧
      ((c.updateLine (some w) a b).line (c.cfg.index a) w).data.getD (c.cfg.offset a) 0 = b := by
  have hoff : c.cfg.offset a < (c.line (c.cfg.index a) w).data.length :=
    (h.data_length _ _ (Cache.line_mem hw)).symm ▸ CacheConfig.offset_lt h.block_pow2 a
  rw [show c.updateLine (some w) a b = c.setLine .. from rfl, Cache.line_setLine_same hw]
  simp [Machine.putByte, hp, hoff]

/-- After a write the address hits in the way its lookup answered. -/
theorem LookupResult.Good.hitWay_written {r : LookupResult} (g : r.Good size c m a allocate) {b : Byte}
    (hcfg : c'.cfg = (r.cache.updateLine r.way a b).cfg) (hsets : c'.sets = (r.cache.updateLine r.way a b).sets) :
    c'.cfg = c.cfg ∧ hitWay (c'.ways (c.cfg.index a)) (c.cfg.tag a) = r.way := by
  have hupd : (r.cache.updateLine r.way a b).cfg = c.cfg := (Cache.updateLine_fields ..).1.trans g.cfg
  have hway := hitWay_updateLine (c := r.cache) (w := r.way) (a := a) (b := b)
  rw [hupd, g.cfg, g.way] at hway
  exact ⟨hcfg.trans hupd, by rw [Cache.ways_congr hsets, hway]⟩

/-- Settles O55: a write whose lookup answers a way puts the byte into that line and leaves the store to the lookup;
one whose lookup answers none writes the store and no line. -/
theorem writeBackRule : Obligations.WriteBackRule := by
  intro size x c a b hx hsize ha hc hp y
  have hco := hx.coherent c hc
  have g := hco.lookup hx.store_wf hx.store_within hsize x.draws a c.cfg.writeAllocate
  obtain ⟨hstore, c', hc', hcfg, hsets, -, hwb, -⟩ := byteWrite_of_cache (size := size) hc a b _ rfl
  simp only [hp] at hstore hwb
  obtain ⟨-, hway⟩ := g.hitWay_written hcfg hsets
  refine ⟨c', hc', fun hin => ?_, fun hres => ?_, fun hres hal => ?_⟩
  · obtain ⟨w, hw⟩ := Option.isSome_iff_exists.mp (lookup_way_isSome_iff.mpr hin)
    rw [hw] at hstore hway hcfg hsets
    obtain ⟨hlt, -, -⟩ := Cache.hitWay_some (g.way.trans hw)
    obtain ⟨hdirty, hbyte⟩ := g.coherent.line_updateLine (g.cfg.symm ▸ hp) (by rwa [g.cfg]) b
    rw [← Cache.line_congr hcfg hsets, g.cfg] at hdirty hbyte
    exact ⟨hstore ▸ hco.lookup_store_read hx.store_wf ha, w, hway, hdirty, hbyte⟩
  · obtain ⟨w, hw, hkept, hsame⟩ := lookup_of_resident (size := size) (m := x.store) (d := x.draws)
      (al := c.cfg.writeAllocate) hres
    rw [hw] at hstore
    exact ⟨hwb.trans hsame, hstore.trans hkept⟩
  · rw [hal, lookup_bypass_of_not_resident hres] at hstore hsets hwb
    have hstore : y.store = x.store.write a.toNat b := hstore
    exact ⟨by rw [hstore, Memory.read_write_same hx.store_wf], fun k hk => by rw [hstore, Memory.read_write_other hk],
      hsets, hwb⟩

/-! ## The trace -/

/-- No lookup changes whether the line of its address is dirty: a hit keeps the flag, and a filled line is clean. -/
theorem LookupResult.Good.lineDirty (h : c.Coherent size m)
    (g : (c.lookup size m draws a allocate).Good size c m a allocate) :
    LineDirty (c.lookup size m draws a allocate).cache a ↔ LineDirty c a := by
  have hway : hitWay ((c.lookup size m draws a allocate).cache.ways
      ((c.lookup size m draws a allocate).cache.cfg.index a))
      ((c.lookup size m draws a allocate).cache.cfg.tag a) = _ := g.cfg.symm ▸ g.way
  rw [lineDirty_iff g.coherent hway, lineDirty_iff h rfl, g.cfg]
  by_cases hres : Resident c a
  · obtain ⟨w, hw⟩ := hitWay_of_resident hres
    obtain ⟨hlt, -, -⟩ := Cache.hitWay_some hw
    obtain ⟨-, htouch, -⟩ := touchLine_eq c.beginLookup (c.line (c.cfg.index a) w)
    rw [lookup_of_hitWay hw, hw]
    simp [Cache.line_setLine_same (c := c.beginLookup.countHit) hlt, htouch]
  · rw [hitWay_of_not_resident hres]
    cases allocate with
    | false => simp [lookup_bypass_of_not_resident hres]
    | true =>
      obtain ⟨hline, -⟩ := cacheFill_spec size c.beginLookup.countMiss m a (h.victim_lt draws a)
      simp only [lookup_of_allocatingMiss hres]
      simp [show (c.beginLookup.countMiss.fill size m (c.cfg.index a) (c.victim draws a) a).1.line _ _ = _ from hline]

/-- The record of an access of `a` that found the cache `c` and left `c'`. -/
structure RecordOf (dir : Direction) (a : Word) (c c' : Cache) (q : TraceRecord) : Prop where
  dir : q.dir = dir
  address : q.address = a
  set : q.set = c.cfg.index a
  tag : q.tag = c.cfg.tag a
  hit : q.hit = true ↔ Resident c a
  dirty : q.dirty = true ↔ LineDirty c' a

theorem recordOf_traceRecord (h : c'.Coherent size m) (hcfg : c'.cfg = c.cfg) {way : Option Nat}
    (hway : hitWay (c'.ways (c.cfg.index a)) (c.cfg.tag a) = way) {hit : Bool} (hhit : hit = true ↔ Resident c a)
    (dir : Direction) : RecordOf dir a c c' (traceRecord dir a hit c' way) :=
  ⟨rfl, rfl, congrArg (CacheConfig.index · a) hcfg, congrArg (CacheConfig.tag · a) hcfg, hhit,
    traceRecord_dirty h (hcfg ▸ hway) dir hit⟩

/-- What `appendTrace` of one record leaves, by the trace switch that the access found. -/
theorem appendTrace_eq {e : Bool} (h : c.traceEnable = e) (t : List TraceRecord) (q : TraceRecord) :
    appendTrace c t q = if e = true then t ++ [q] else t := by
  rw [appendTrace, h]

theorem byteRead_record (hx : x.Ok size) (hsize : size < 2 ^ 64) (a : Word) (hc : x.cache = some c) :
    ∃ c' q, (x.byteRead size a).2.cache = some c' ∧ RecordOf .read a c c' q ∧
      (x.byteRead size a).2.trace = (if c.traceEnable = true then x.trace ++ [q] else x.trace) ∧
      (LineDirty c' a ↔ LineDirty c a) := by
  have hco := hx.coherent c hc
  have g := hco.lookup hx.store_wf hx.store_within hsize x.draws a true
  obtain ⟨hhit, -⟩ := lookup_hit_clk_accessCount (size := size) (m := x.store) (c := c) (draws := x.draws) (a := a)
    (allocate := true)
  rw [byteRead_of_cache hc]
  exact ⟨_, _, rfl, recordOf_traceRecord g.coherent.refreshRate g.cfg g.way hhit .read,
    appendTrace_eq g.traceEnable .., g.lineDirty hco⟩

theorem byteWrite_record (hx : x.Ok size) (hsize : size < 2 ^ 64) (ha : a.toNat < size) (hc : x.cache = some c)
    (b : Byte) : ∃ c' q, (x.byteWrite size a b).cache = some c' ∧ RecordOf .write a c c' q ∧
      (x.byteWrite size a b).trace = (if c.traceEnable = true then x.trace ++ [q] else x.trace) ∧
      c'.cfg = c.cfg ∧ (Resident c' a ↔ Resident c a ∨ c.cfg.writeAllocate = true) := by
  have g := (hx.coherent c hc).lookup hx.store_wf hx.store_within hsize x.draws a c.cfg.writeAllocate
  obtain ⟨hhit, -⟩ := lookup_hit_clk_accessCount (size := size) (m := x.store) (c := c) (draws := x.draws) (a := a)
    (allocate := c.cfg.writeAllocate)
  obtain ⟨-, c', hc', hcfg, hsets, hen, -, -, htrace⟩ := byteWrite_of_cache (size := size) hc a b _ rfl
  obtain ⟨hcfg', hway⟩ := g.hitWay_written hcfg hsets
  obtain ⟨hy, -⟩ := hx.byteWrite hsize ha b
  refine ⟨c', _, hc', recordOf_traceRecord (hy.coherent c' hc') hcfg' hway hhit .write,
    htrace.trans (appendTrace_eq (hen.trans g.traceEnable) ..), hcfg', ?_⟩
  rw [resident_iff_hitWay, hcfg', hway, lookup_way_isSome_iff]

/-- After a write the line of the address is dirty exactly under WriteBack, where there is such a line. -/
theorem lineDirty_byteWrite (hx : x.Ok size) (hsize : size < 2 ^ 64) (ha : a.toNat < size) (hc : x.cache = some c)
    (b : Byte) (hc' : (x.byteWrite size a b).cache = some c') : LineDirty c' a ↔
      c.cfg.writePolicy = .writeBack ∧ (Resident c a ∨ c.cfg.writeAllocate = true) := by
  obtain ⟨hy, -⟩ := hx.byteWrite hsize ha b
  obtain ⟨c₁, -, hc₁, -, -, hcfg, hres⟩ := byteWrite_record hx hsize ha hc b
  obtain rfl : c₁ = c' := Option.some.inj (hc₁.symm.trans hc')
  refine ⟨fun ⟨w, hlt, hvalid, htag, hdirty⟩ => ⟨?_, hres.mp ⟨w, hlt, hvalid, htag⟩⟩, fun ⟨hp, hin⟩ => ?_⟩
  · exact hcfg ▸ ((hy.coherent c₁ hc').agrees _ _ (Cache.line_mem hlt) hvalid).dirty hdirty
  · obtain ⟨c₂, hc₂, hwrite, -⟩ := writeBackRule size x c a b hx hsize ha hc hp
    obtain rfl : c₂ = c₁ := Option.some.inj (hc₂.symm.trans hc')
    obtain ⟨-, w, hw, hdirty, -⟩ := hwrite hin
    obtain ⟨hlt, hvalid, htag⟩ := Cache.hitWay_some hw
    rw [← hcfg] at hlt hvalid htag hdirty
    exact ⟨w, hlt, hvalid, htag, hdirty⟩

/-- Settles O58: the one record of an access shows the lookup's answer, and its flag is that of the line of the
address after it. -/
theorem traceRecords : Obligations.TraceRecords := by
  intro size x a b hx hsize ha
  refine ⟨fun hc => ?_, fun c hc => ?_⟩
  · simp [MemSystem.byteRead, MemSystem.byteWrite, hc]
  · obtain ⟨c₁, q, hc₁, hq, hread, hkept⟩ := byteRead_record hx hsize a hc
    obtain ⟨c₂, p, hc₂, hp, hwrite, -⟩ := byteWrite_record hx hsize ha hc b
    have hdirty := lineDirty_byteWrite hx hsize ha hc b hc₂
    rw [hread, hwrite]
    refine ⟨fun hoff => ?_, fun hon => ?_⟩
    · simp [hoff]
    · rw [if_pos hon, if_pos hon]
      exact ⟨⟨q, rfl, hq.dir, hq.address, hq.set, hq.tag, hq.hit, hq.dirty.trans hkept, c₁, hc₁, hq.dirty⟩,
        ⟨p, rfl, hp.dir, hp.address, hp.set, hp.tag, hp.hit, hp.dirty.trans hdirty, c₂, hc₂, hp.dirty⟩⟩

/-! ## The tracker -/

/-- The nearest label of the deduplicated table, found at its index. -/
theorem ownerOf_eq_some {labels : List Label} {line i : Nat} (h : ownerOf labels line = some i) :
    ∃ l, labels[i]? = some l ∧ l.start ≤ line ∧ ∀ k ∈ labels, k.start ≤ line → k.start ≤ l.start := by
  obtain ⟨⟨j, st⟩, hnear, rfl⟩ := Option.map_eq_some_iff.mp h
  obtain ⟨hspec, -⟩ := nearestLabel_spec line labels 0
  obtain ⟨-, l, hl, rfl, hle, hmax⟩ := hspec j st hnear
  exact ⟨l, hl, hle, hmax⟩

theorem ownerOf_eq_none_iff {labels : List Label} {line : Nat} :
    ownerOf labels line = none ↔ ∀ k ∈ labels, line < k.start := by
  obtain ⟨-, hnone⟩ := nearestLabel_spec line labels 0
  rw [ownerOf, Option.map_eq_none_iff, hnone]

theorem toNat_wordIndex (a : Word) : (a >>> 2).toNat = a.toNat / 4 := by
  rw [BitVec.toNat_ushiftRight, Nat.shiftRight_eq_div_pow]

/-- Settles O60: the table gives the line, and the deduplicated labels the owner. -/
theorem ownerOfLine : Obligations.OwnerOfLine := by
  refine ⟨fun s a => ⟨fun ht => ?_, fun lines l ht hl => ?_⟩, fun line => ⟨rfl, fun f fs => rfl⟩,
    fun labels => ⟨dedupLabels_pairwise labels, dedupLabels_find labels, mem_of_mem_dedupLabels labels,
      fun line => ⟨fun i => ownerOf_eq_some, ownerOf_eq_none_iff⟩⟩⟩
  · rw [State.lineAt, ht, toNat_wordIndex, lineOf]
  · rw [State.lineAt, ht, toNat_wordIndex]
    simp only [lineOf, hl]

end Sys2Proof.Machine
end
